-- ==== Sys2Proof/Word.lean ====
section
/-! DEFINITION. The word types of the block and their plainest arithmetic (`00_scope.md` R14, R15, R18). -/

namespace Sys2Proof

/-- A byte: 8 bits, an unsigned value 0..255 (R15). -/
abbrev Byte := BitVec 8

/-- A 16-bit register: `rx_len`, `rx_cnt`, `rx_plen`, `fr_plen` (R18). -/
abbrev Half := BitVec 16

/-- The 7-bit frame id register `tx_fid` (R18, R40). -/
abbrev Fid := BitVec 7

/-- A byte string in wire order: the head is transmitted or received first (R15). -/
abbrev Bytes := List Byte

end Sys2Proof
end

