-- ==== Sys2Proof/Config.lean ====
section
/-! DEFINITION. The implementation parameters (`00_scope.md` R9 to R13) and the free values: what the spec leaves open. -/

namespace Sys2Proof

namespace Config

/-- `DELIM`, the start delimiter (R10). -/
def delim : Byte := 0x7E

/-- `HDR_LEN`: bytes counted by the length field besides the payload (R10). -/
def hdrLen : Nat := 11

/-- `FID_MOD`: frame ids are 0..126 (R10). -/
def fidMod : Nat := 127

/-- `CK_BASE` (R10). -/
def ckBase : Byte := 0xFF

/-- `BUS_SUBCMD`, byte 0 of a motor write transaction (R10). -/
def busSubcmd : Byte := 0x01

/-- `0xFFFF - HDR_LEN`: the longest payload whose length field fits 16 bits (R13, R89). -/
def payloadLimit : Nat := 65524

end Config

/-- The parameters of rules R10 to R13, fixed for a whole run (R9). They are arguments of the model, not state (R49);
a step takes only a state, so the state carries them (assumption log 1). -/
structure Params where
  /-- the type byte of the data-with-64-bit-source frame kind (R11) -/
  typeRx64 : Byte
  /-- first reserved byte of an outgoing frame (R11) -/
  txRsvdA : Byte
  /-- second reserved byte of an outgoing frame (R11) -/
  txRsvdB : Byte
  /-- the expected inbound payload tag (R11) -/
  identIn : Byte
  /-- the outbound payload tag (R11) -/
  identOut : Byte
  /-- `N_ANALOG`, analog bytes in a payload (R12) -/
  nAnalog : Nat
  /-- `N_DIGITAL`, digital booleans in a payload (R12) -/
  nDigital : Nat
  /-- `OPERATOR_PERIOD_MS`, host only (R12) -/
  operatorPeriodMs : Nat
  /-- `TELEMETRY_PERIOD_MS`, host only (R12) -/
  telemetryPeriodMs : Nat
  /-- `HEARTBEAT_TIMEOUT_MS`, host only (R12) -/
  heartbeatTimeoutMs : Nat
  /-- `CKSUM_ENFORCE` (R13) -/
  cksumEnforce : Bool
  /-- `CKSUM_COVERS_LENGTH` (R13) -/
  cksumCoversLength : Bool
  /-- `RX_PAYLOAD_MAX`, capacity of the receive payload buffers (R13) -/
  rxPayloadMax : Nat
  /-- `TX_PAYLOAD_MAX`, longest payload an encoder operation accepts (R13) -/
  txPayloadMax : Nat
  /-- `N_REQ`, number of requester ports (R13) -/
  nReq : Nat
  /-- `BATCH_MAX`, most transactions in a batch (R13) -/
  batchMax : Nat
  /-- `TXN_MAX_BYTES`, most bytes in a write transaction (R13) -/
  txnMaxBytes : Nat
  /-- `DEV_ADDR_W`, bits of a device address (R13) -/
  devAddrW : Nat
  /-- `CLK_RATE_W`, bits of the clock-rate field (R13) -/
  clkRateW : Nat
  /-- `TIMEOUT_W`, bits of `timeoutMs` (R13) -/
  timeoutW : Nat
  deriving DecidableEq, Repr

namespace Params

/-- `N_DIG_BYTES = ceil(N_DIGITAL / 8)` (R12). -/
def digBytes (p : Params) : Nat := (p.nDigital + 7) / 8

/-- The constraints rules R11 and R13 put on the parameters. -/
abbrev ok (p : Params) : Prop :=
  p.identIn ≠ p.identOut ∧ p.rxPayloadMax ≤ Config.payloadLimit ∧ p.txPayloadMax ≤ Config.payloadLimit ∧
  1 ≤ p.nReq ∧ 1 ≤ p.batchMax ∧ 3 ≤ p.txnMaxBytes ∧ 1 ≤ p.devAddrW ∧ 1 ≤ p.clkRateW ∧ 1 ≤ p.timeoutW

/-- The vector-local parameter values of `95_test_vectors.md` section 0; used by tests only. -/
def vectors : Params where
  typeRx64 := 0x80
  txRsvdA := 0x00
  txRsvdB := 0x00
  identIn := 0xC1
  identOut := 0xC2
  nAnalog := 7
  nDigital := 8
  operatorPeriodMs := 75
  telemetryPeriodMs := 100
  heartbeatTimeoutMs := 2000
  cksumEnforce := true
  cksumCoversLength := true
  rxPayloadMax := 65524
  txPayloadMax := 65524
  nReq := 2
  batchMax := 4
  txnMaxBytes := 3
  devAddrW := 7
  clkRateW := 16
  timeoutW := 32

end Params

namespace Config

/-- OPEN parameter `TYPE_RX64` (R11, decision D4; assumption log 1). -/
opaque typeRx64 : Byte
/-- OPEN parameter `TX_RSVD_A` (R11, decision D5; assumption log 1). -/
opaque txRsvdA : Byte
/-- OPEN parameter `TX_RSVD_B` (R11, decision D5; assumption log 1). -/
opaque txRsvdB : Byte
/-- OPEN parameter `IDENT_IN` (R11, decision D33; assumption log 1). -/
opaque identIn : Byte
/-- OPEN: the value `IDENT_OUT` takes unless it would equal `IDENT_IN` (R11, decision D33; assumption log 1). -/
opaque identOutRaw : Byte
/-- OPEN: `N_REQ` less its lower bound 1 (R13, decision D18; assumption log 1). -/
opaque nReqExtra : Nat
/-- OPEN: `BATCH_MAX` less its lower bound 1 (R13, decision D21; assumption log 1). -/
opaque batchMaxExtra : Nat
/-- OPEN: `TXN_MAX_BYTES` less its lower bound 3 (R13, decision D21; assumption log 1). -/
opaque txnMaxBytesExtra : Nat
/-- OPEN: `DEV_ADDR_W` less its lower bound 1 (R13, decision D20; assumption log 1). -/
opaque devAddrWExtra : Nat
/-- OPEN: `CLK_RATE_W` less its lower bound 1 (R13, decision D20; assumption log 1). -/
opaque clkRateWExtra : Nat
/-- OPEN: `TIMEOUT_W` less its lower bound 1 (R13, decision D20; assumption log 1). -/
opaque timeoutWExtra : Nat

/-- The parameters of a run that starts at power-up: the spec's default where it gives one (R12, R13), an opaque
constant within the spec's constraint where it gives none (assumption log 1). -/
def params : Params where
  typeRx64 := typeRx64
  txRsvdA := txRsvdA
  txRsvdB := txRsvdB
  identIn := identIn
  identOut := if identOutRaw = identIn then identIn + 1 else identOutRaw
  nAnalog := 7
  nDigital := 8
  operatorPeriodMs := 75
  telemetryPeriodMs := 100
  heartbeatTimeoutMs := 2000
  cksumEnforce := true
  cksumCoversLength := true
  rxPayloadMax := 65524
  txPayloadMax := 65524
  nReq := nReqExtra + 1
  batchMax := batchMaxExtra + 1
  txnMaxBytes := txnMaxBytesExtra + 3
  devAddrW := devAddrWExtra + 1
  clkRateW := clkRateWExtra + 1
  timeoutW := timeoutWExtra + 1

/-- FREE VALUE: whether the bus device acknowledges the transaction issued at draw `n`, where no operand carries the
draw (R47, R179, U16; assumption log 4). -/
opaque deviceAck : Nat → Bool

/-- FREE VALUE: the byte an unspecified `RX_READ` returns at draw `n` (R61, R296, U10; assumption log 4). -/
opaque unspecifiedByte : Nat → Byte

/-- FREE VALUE: what `RX_READ fr_plen` returns while no frame is held, at draw `n` (R296, U10; assumption log 4). -/
opaque unspecifiedLen : Nat → Half

/-- FREE VALUE: by how much the host's monotonic clock has moved on at draw `n` (R227, N45; assumption log 14). -/
opaque clockStep : Nat → Nat

/-- FREE VALUE: the mode (taken modulo 3) and the magnitude an actuator sends at draw `n` (R241, N36; assumption log 21). -/
opaque actuatorCommand : Nat → Nat × Byte

end Config

end Sys2Proof
end

