-- ==== Sys2Proof/Syntax.lean ====
section
/-! DEFINITION. The operands and the instructions: one constructor for each row of `spec/opcode_table.json`. -/

namespace Sys2Proof

/-- The decoder's nine states (`10_state.md` R26); codes 9..15 of the register never occur. -/
inductive RxState where
  | idle | length | type | sourceAddr | quality | options | payload | checksum | ignoreUnknown
  deriving DecidableEq, Repr

/-- The numeric code of a decoder state (R26). -/
def RxState.code : RxState → Nat
  | .idle => 0
  | .length => 1
  | .type => 2
  | .sourceAddr => 3
  | .quality => 4
  | .options => 5
  | .payload => 6
  | .checksum => 7
  | .ignoreUnknown => 8

/-- An 8-byte address in wire order, never treated as a number (`20_memory.md` R63). -/
structure Addr where
  b0 : Byte
  b1 : Byte
  b2 : Byte
  b3 : Byte
  b4 : Byte
  b5 : Byte
  b6 : Byte
  b7 : Byte
  deriving DecidableEq, Repr

/-- The all-zero address, the reset value of `rx_src`, `fr_src` and `peer_addr` (R56). -/
def Addr.zero : Addr := ⟨0, 0, 0, 0, 0, 0, 0, 0⟩

/-- `deviceConfig` = (device address, clock rate) (`30_encoding.md` R101). The widths are parameters, so the two
fields are numbers; a register keeps their low bits (assumption log 17). -/
structure DeviceConfig where
  devAddr : Nat
  clkRate : Nat
  deriving DecidableEq, Repr

/-- The outcome of one bus write transaction (`42_bus_arbiter.md` R179). -/
inductive XferOutcome where
  | ack | fail
  deriving DecidableEq, Repr

/-- The three motor modes (`30_encoding.md` R100). -/
inductive MotorMode where
  | reverse | forward | brake
  deriving DecidableEq, Repr

/-- The register names of `RX_READ` (`40_decoder.md` R140); `other` is any name outside the list, which is refused. -/
inductive ReadName where
  | frValid | frNew | frPlen | frPayload | frSrc | frQuality | frOptions | frCk | frCkOk | frSrcIsPeer
  | peerValid | peerAddr | txFid | codecStatus | busStatus | reqDone | reqOk | reqNDone | busBusy
  | other (code : Byte)
  deriving DecidableEq, Repr

/-- The instructions: every row of `spec/opcode_table.json`. -/
inductive Instr where
  /-- `RX.IDLE.DELIM` (R126) -/
  | rxIdleDelim
  /-- `RX.IDLE.OTHER` (R126) -/
  | rxIdleOther (b : Byte)
  /-- `RX.LEN.HI` (R127) -/
  | rxLenHi (h : Byte)
  /-- `RX.LEN.LO` (R127) -/
  | rxLenLo (l : Byte)
  /-- `RX.TYPE.DATA64` (R128) -/
  | rxTypeData64 (t : Byte)
  /-- `RX.TYPE.DATA64.SHORT` (R129) -/
  | rxTypeData64Short (t : Byte)
  /-- `RX.TYPE.DATA64.OVERSIZE` (R129) -/
  | rxTypeData64Oversize (t : Byte)
  /-- `RX.TYPE.OTHER` (R129) -/
  | rxTypeOther (t : Byte)
  /-- `RX.SRC` (R130) -/
  | rxSrc (a : Byte)
  /-- `RX.QUAL` (R132) -/
  | rxQual (q : Byte)
  /-- `RX.OPT` (R133) -/
  | rxOpt (o : Byte)
  /-- `RX.PAYLOAD` (R134) -/
  | rxPayload (d : Byte)
  /-- `RX.CKSUM` (R135) -/
  | rxCksum (c : Byte)
  /-- `RX.IGNORE` (R137) -/
  | rxIgnore (x : Byte)
  /-- `RXFRAME.DATA64`: a whole receive data frame with a correct checksum (R86) -/
  | rxFrameData64 (src : Addr) (quality options : Byte) (payload : Bytes)
  /-- `RXFRAME.OTHER`: a whole frame of another type, `L` the number of its further bytes (R88) -/
  | rxFrameOther (t : Byte) (xs : Bytes)
  /-- `TXFRAME`: a whole transmit frame (R87, R155) -/
  | txFrame (dest : Addr) (fid : Byte) (payload : Bytes)
  /-- `MOTOR.REV` (R187) -/
  | motorRev (g : Byte)
  /-- `MOTOR.FWD` (R188) -/
  | motorFwd (g : Byte)
  /-- `MOTOR.BRK` (R189) -/
  | motorBrk (g : Byte)
  /-- `PAYLOAD.IN` (R206) -/
  | payloadIn (fieldTime flags r3 r4 : Byte) (analog digital : Bytes)
  /-- `PAYLOAD.OUT` (R210) -/
  | payloadOut (analog digital : Bytes)
  /-- `RESET` (R295) -/
  | reset
  /-- `RX_PUSH` (R125) -/
  | rxPush (b : Byte)
  /-- `RX_CHUNK` (R138) -/
  | rxChunk (bs : Bytes)
  /-- `RX_ACK` (R139) -/
  | rxAck
  /-- `RX_READ` (R140) -/
  | rxRead (name : ReadName) (idx : Nat)
  /-- `TX_ENCODE` (R156) -/
  | txEncode (dest : Addr) (fid : Byte) (payload : Bytes)
  /-- `TX_SEND` (R157) -/
  | txSend (payload : Bytes)
  /-- `BUS_REQUEST` (R176) -/
  | busRequest (r : Nat) (batch : List Bytes) (timeoutMs : Nat) (cfg : DeviceConfig)
  /-- `BUS_GRANT` (R177) -/
  | busGrant (r : Nat)
  /-- `BUS_XFER` (R179) -/
  | busXfer (outcome : XferOutcome)
  /-- `BUS_COMPLETE` (R180) -/
  | busComplete
  /-- `BUS_EXECUTE` (R181) -/
  | busExecute (r : Nat) (batch : List Bytes) (timeoutMs : Nat) (cfg : DeviceConfig)
  /-- `CLR_STATUS` (R287) -/
  | clrStatus (cmask bmask : Byte)
  deriving DecidableEq, Repr

end Sys2Proof
end

