-- ==== Sys2Proof/Machine/Bytes.lean ====
section
/-! DEFINITION. Byte strings: byte order, the checksum, addresses as strings of eight bytes. -/

namespace Sys2Proof.Machine

/-- `BE16(v)`: the two bytes of a 16-bit number, most significant first (`00_scope.md` R17, `20_memory.md` R62). -/
def be16 (v : Nat) : Bytes := [BitVec.ofNat 8 (v / 256), BitVec.ofNat 8 v]

/-- `UnBE16(h, l) = 256 h + l` (R17, `30_encoding.md` R89). -/
def unBE16 (h l : Byte) : Nat := 256 * h.toNat + l.toNat

/-- The low `8 n` bits of a number as `n` bytes, most significant first: how a word of `spec/opcode_table.json` is laid
out (assumption log 10). -/
def beBytes : Nat → Nat → Bytes
  | 0, _ => []
  | n + 1, v => BitVec.ofNat 8 (v / 256 ^ n) :: beBytes n v

/-- `Sum8(s)`: the sum of the bytes modulo 256, 0 for the empty string (R17, R90). -/
def sum8 : Bytes → Byte
  | [] => 0
  | b :: bs => b + sum8 bs

/-- `Cksum(s) = 0xFF - Sum8(s)` (R17, R90). -/
def cksum (s : Bytes) : Byte := Config.ckBase - sum8 s

/-- The covered string of a frame whose bytes between delimiter and checksum are `body` (R91): with
`CKSUM_COVERS_LENGTH` = 0 the two length bytes are left out. -/
def covered (p : Params) (body : Bytes) : Bytes := if p.cksumCoversLength then body else body.drop 2

/-- The eight bytes of an address in wire order (`20_memory.md` R63). -/
def addrBytes (a : Addr) : Bytes := [a.b0, a.b1, a.b2, a.b3, a.b4, a.b5, a.b6, a.b7]

/-- Byte `i` of an address, 0..7; an address has no other byte (the default stands for none). -/
def addrGet (a : Addr) (i : Nat) : Byte := (addrBytes a).getD i 0

/-- Write byte `i` of an address; an index above 7 writes nothing (no run reaches one, `10_state.md` R55 (c)). -/
def addrSet (a : Addr) (i : Nat) (b : Byte) : Addr :=
  match i with
  | 0 => { a with b0 := b }
  | 1 => { a with b1 := b }
  | 2 => { a with b2 := b }
  | 3 => { a with b3 := b }
  | 4 => { a with b4 := b }
  | 5 => { a with b5 := b }
  | 6 => { a with b6 := b }
  | 7 => { a with b7 := b }
  | _ => a

/-- The first eight bytes of a string as an address, with the rest. -/
def takeAddr : Bytes → Option (Addr × Bytes)
  | b0 :: b1 :: b2 :: b3 :: b4 :: b5 :: b6 :: b7 :: rest => some (⟨b0, b1, b2, b3, b4, b5, b6, b7⟩, rest)
  | _ => none

end Sys2Proof.Machine
end

