-- ==== Sys2Proof/Machine/Frames.lean ====
section
/-! DEFINITION. The wire frames and the motor write transaction (`30_encoding.md` R86 to R100, `41_encoder.md` R155). -/

namespace Sys2Proof.Machine

/-- Delimiter, body, checksum over the covered part of the body (R86, R87, R91). -/
def frameOf (p : Params) (body : Bytes) : Bytes := Config.delim :: (body ++ [cksum (covered p body)])

/-- Offsets 1 to 13+P of a transmit frame (R87). -/
def txBody (p : Params) (dest : Addr) (fid : Byte) (payload : Bytes) : Bytes :=
  be16 (payload.length + Config.hdrLen) ++ [p.txRsvdA, fid] ++ addrBytes dest ++ [p.txRsvdB] ++ payload

/-- `EncodeFrame(dest, fid, payload)`, pure and total (`41_encoder.md` R155). -/
def encodeFrame (p : Params) (dest : Addr) (fid : Byte) (payload : Bytes) : Bytes :=
  frameOf p (txBody p dest fid payload)

/-- Offsets 1 to 13+P of a receive data frame (R86). -/
def rxBody (p : Params) (src : Addr) (quality options : Byte) (payload : Bytes) : Bytes :=
  be16 (payload.length + Config.hdrLen) ++ [p.typeRx64] ++ addrBytes src ++ [quality, options] ++ payload

/-- The receive data frame of R86 with its checksum. -/
def rxDataFrame (p : Params) (src : Addr) (quality options : Byte) (payload : Bytes) : Bytes :=
  frameOf p (rxBody p src quality options payload)

/-- Any other frame on the receive line: delimiter, length `L`, type byte, `L` further bytes (R88). -/
def rxOtherFrame (t : Byte) (xs : Bytes) : Bytes := Config.delim :: (be16 xs.length ++ t :: xs)

/-- `Link(t, src, q, o)`, the test-only function of R113: the transmit frame `t`'s payload in a receive data frame. -/
def link (p : Params) (t : Bytes) (src : Addr) (quality options : Byte) : Bytes :=
  rxDataFrame p src quality options ((t.drop 14).take (t.length - 15))

/-- The mode byte of a motor write transaction (R100). -/
def modeByte : MotorMode → Byte
  | .reverse => 0
  | .forward => 1
  | .brake => 2

/-- `MotorCmd(mode, g) = [0x01, mode, g]` (`42_bus_arbiter.md` R190). -/
def motorCmd (m : MotorMode) (g : Byte) : Bytes := [Config.busSubcmd, modeByte m, g]

end Sys2Proof.Machine
end

