-- ==== Sys2Proof/Machine/Payload.lean ====
section
/-! DEFINITION. The payload formats the host gives meaning to (`43_payload_formats.md`). -/

namespace Sys2Proof.Machine

/-- IncomingControlState (`44_host_environment.md` R226, `43_payload_formats.md` R208). -/
structure Incoming where
  fieldTime : Byte
  canMove : Bool
  isAutonomous : Bool
  isBlue : Bool
  analog : Bytes
  digital : List Bool
  deriving DecidableEq, Repr

/-- OutgoingTelemetryState (R226, R211). -/
structure Outgoing where
  analog : Bytes
  digital : List Bool
  deriving DecidableEq, Repr

/-- The number whose bit `i` is boolean `i`, for the first `n` booleans of the list. -/
def bitsToNat : Nat → List Bool → Nat
  | 0, _ => 0
  | _ + 1, [] => 0
  | n + 1, d :: ds => d.toNat + 2 * bitsToNat n ds

/-- `Pack(d)`: bit `i` of byte `k` is `d[8k + i]`, 0 beyond the end (R212). -/
def pack (d : List Bool) : Bytes :=
  (List.range ((d.length + 7) / 8)).map fun k => BitVec.ofNat 8 (bitsToNat 8 (d.drop (8 * k)))

/-- `Unpack(s, N)`: boolean `j` is bit `j mod 8` of byte `j div 8` (R213). -/
def unpack (s : Bytes) (n : Nat) : List Bool :=
  (List.range n).map fun j => (s.getD (j / 8) 0).getLsbD (j % 8)

/-- The bytes of an incoming payload with its fields (R206). -/
def payloadInBytes (p : Params) (fieldTime flags r3 r4 : Byte) (analog digital : Bytes) : Bytes :=
  [p.identIn, fieldTime, flags, r3, r4] ++ analog ++ digital

/-- The bytes of an outgoing payload with its fields (R210). -/
def payloadOutBytes (p : Params) (analog digital : Bytes) : Bytes := p.identOut :: (analog ++ digital)

/-- `5 + A + DB`, the least length of an incoming payload (R207). -/
def payloadInLen (p : Params) : Nat := 5 + p.nAnalog + p.digBytes

/-- `ParseIncoming(p)` (R208): `none` is `reject`. -/
def parseIncoming (p : Params) (s : Bytes) : Option Incoming :=
  if s.length < payloadInLen p then none
  else if s.getD 0 0 ≠ p.identIn then none
  else some
    { fieldTime := s.getD 1 0
      canMove := (s.getD 2 0).getLsbD 0
      isAutonomous := (s.getD 2 0).getLsbD 1
      isBlue := (s.getD 2 0).getLsbD 2
      analog := (s.drop 5).take p.nAnalog
      digital := unpack ((s.drop (5 + p.nAnalog)).take p.digBytes) p.nDigital }

/-- `BuildOutgoing(t) = [IDENT_OUT] ++ t.analog ++ Pack(t.digital)` (R211). -/
def buildOutgoing (p : Params) (t : Outgoing) : Bytes := payloadOutBytes p t.analog (pack t.digital)

end Sys2Proof.Machine
end

