-- ==== Sys2Proof/WellFormed.lean ====
section
/-! DEFINITION. Which instruction terms an encoding of the spec admits: the checks on operands (the rows' fixed bytes,
conditions on the byte, ranges of R86 to R101). The byte form of the operations bounds no operand (assumption log 9):
what an operation does with operands beyond the block's limits is its meaning's matter (R159, R193). -/

namespace Sys2Proof

/-- A name outside the list of R140 has a code above the list's. -/
def ReadName.wellFormed : ReadName → Bool
  | .other c => decide (19 ≤ c.toNat)
  | _ => true

/-- The encoding of the instruction's row admits its operands, under the parameters `p`. The digital bytes of `PAYLOAD.OUT`
are bound in number only: with unused high bits of the last one not 0 the row is well formed all the same (DESIGN CHOICE;
assumption log 26). -/
def wellFormed (p : Params) : Instr → Bool
  | .rxIdleDelim => true
  | .rxIdleOther b => b != Config.delim
  | .rxLenHi _ => true
  | .rxLenLo _ => true
  | .rxTypeData64 t => t == p.typeRx64
  | .rxTypeData64Short t => t == p.typeRx64
  | .rxTypeData64Oversize t => t == p.typeRx64
  | .rxTypeOther t => t != p.typeRx64
  | .rxSrc _ => true
  | .rxQual _ => true
  | .rxOpt _ => true
  | .rxPayload _ => true
  | .rxCksum _ => true
  | .rxIgnore _ => true
  | .rxFrameData64 _ _ _ payload => decide (payload.length ≤ Config.payloadLimit)
  | .rxFrameOther t xs => t != p.typeRx64 && decide (xs.length < 65536)
  | .txFrame _ fid payload => decide (fid.toNat < Config.fidMod) && decide (payload.length ≤ Config.payloadLimit)
  | .motorRev _ => true
  | .motorFwd _ => true
  | .motorBrk _ => true
  | .payloadIn _ _ _ _ analog digital => decide (analog.length = p.nAnalog) && decide (digital.length = p.digBytes)
  | .payloadOut analog digital => decide (analog.length = p.nAnalog) && decide (digital.length = p.digBytes)
  | .reset => true
  | .rxPush _ => true
  | .rxChunk _ => true
  | .rxAck => true
  | .rxRead name _ => name.wellFormed
  | .txEncode _ _ _ => true
  | .txSend _ => true
  | .busRequest _ _ _ _ => true
  | .busGrant _ => true
  | .busXfer _ => true
  | .busComplete => true
  | .busExecute _ _ _ _ => true
  | .clrStatus _ _ => true

end Sys2Proof
end

