-- ==== Sys2Proof/Decode.lean ====
section
/-! DEFINITION. The decoder, total on any bytes and rejecting by name, and after it the encoder. What selects a row of
`spec/opcode_table.json` is the row's format (the channel the bytes arrive on), its fixed bits, and for the byte handlers
the decoder's registers (`30_encoding.md` R95, R110). -/

namespace Sys2Proof

/-- The formats of `spec/opcode_table.json`: where a string of bytes stands decides how it is read (R85, R110). -/
inductive Channel where
  /-- one byte on the receive line: formats `RXSTATE.<state>` -/
  | line
  /-- a whole frame on the receive line: format `FRAME.RX` -/
  | rxStream
  /-- a whole transmit frame: format `FRAME.TX` -/
  | txStream
  /-- a write transaction on the bus: format `BUSTXN.MOTOR` -/
  | bus
  /-- a payload in the host's hands: format `PAYLOAD` -/
  | payload
  /-- an operation of R110: format `OP` (byte form: assumption log 9) -/
  | op
  deriving DecidableEq, Repr

/-- An encoded instruction: its channel and its bytes in wire order. -/
structure Code where
  chan : Channel
  bytes : Bytes
  deriving DecidableEq, Repr

/-- What the byte handlers' row conditions read besides the byte (R110, R126 to R137). -/
structure DecodeCtx where
  params : Params
  rxState : RxState
  rxCnt : Half
  rxLen : Half
  deriving DecidableEq, Repr

/-- Why bytes are no instruction. -/
inductive DecodeError where
  /-- a step of the receive line carries exactly one byte (R125) -/
  | notOneByte
  /-- too few bytes for the format's fixed fields -/
  | truncated
  /-- byte 0 of a frame is not `0x7E` (R86, R87, R88) -/
  | badDelimiter
  /-- the length field does not count the bytes present (R89) -/
  | badLength
  /-- the byte after the payload is not the checksum (R90, R91) -/
  | badChecksum
  /-- a reserved byte of a transmit frame has not its parameter's value (R87) -/
  | badReserved
  /-- a transmit frame id above 126 (R97) -/
  | badFrameId
  /-- a bus transaction that no motor row matches (R100, R105); `BUS_XFER` passes it unchanged -/
  | notMotor
  /-- a payload whose tag is neither identifier tag (R206, R210, R216) -/
  | badTag
  /-- a payload whose length no layout has (R207, R210) -/
  | badPayloadLength
  /-- operand bytes that are no operands of the operation (assumption log 9) -/
  | badOperands
  /-- an operation number above 12 (R110) -/
  | unknownOperation
  deriving DecidableEq, Repr

/-! ## The decoder -/

/-- The handler row a byte on the receive line selects: within the format `RXSTATE.<state>` the first row whose bits
and condition hold (R110, R126 to R137). -/
def decodeLine (c : DecodeCtx) (b : Byte) : Instr :=
  match c.rxState with
  | .idle => if b = Config.delim then .rxIdleDelim else .rxIdleOther b
  | .length => if c.rxCnt = 0 then .rxLenHi b else .rxLenLo b
  | .type =>
    if b = c.params.typeRx64 then
      if c.rxLen.toNat < Config.hdrLen then .rxTypeData64Short b
      else if c.params.rxPayloadMax < c.rxLen.toNat - Config.hdrLen then .rxTypeData64Oversize b
      else .rxTypeData64 b
    else .rxTypeOther b
  | .sourceAddr => .rxSrc b
  | .quality => .rxQual b
  | .options => .rxOpt b
  | .payload => .rxPayload b
  | .checksum => .rxCksum b
  | .ignoreUnknown => .rxIgnore b

/-- Payload and checksum at the end of a frame: `head` is what of the body stands before them, `L` the length field. -/
def splitTail (p : Params) (len : Nat) (head tail : Bytes) : Except DecodeError Bytes :=
  if tail = [] then .error .truncated
  else if len ≠ tail.dropLast.length + Config.hdrLen then .error .badLength
  else if tail.getLast? ≠ some (cksumOf p (head ++ tail.dropLast)) then .error .badChecksum
  else .ok tail.dropLast
where
  /-- The checksum of a frame with this body (R90, R91). -/
  cksumOf (p : Params) (body : Bytes) : Byte := Machine.cksum (Machine.covered p body)

/-- A whole frame on the receive line (R86, R88, R95). -/
def decodeRxFrame (p : Params) : Bytes → Except DecodeError Instr
  | d :: h :: l :: t :: rest =>
    if d ≠ Config.delim then .error .badDelimiter
    else if t = p.typeRx64 then
      match Machine.takeAddr rest with
      | some (src, q :: o :: tail) =>
        (splitTail p (Machine.unBE16 h l) ([h, l, t] ++ Machine.addrBytes src ++ [q, o]) tail).map
          fun payload => .rxFrameData64 src q o payload
      | _ => .error .truncated
    else if Machine.unBE16 h l = rest.length then .ok (.rxFrameOther t rest)
    else .error .badLength
  | _ => .error .truncated

/-- A whole transmit frame (R87, R97). -/
def decodeTxFrame (p : Params) : Bytes → Except DecodeError Instr
  | d :: h :: l :: ra :: fid :: rest =>
    if d ≠ Config.delim then .error .badDelimiter
    else if ra ≠ p.txRsvdA then .error .badReserved
    else if Config.fidMod ≤ fid.toNat then .error .badFrameId
    else
      match Machine.takeAddr rest with
      | some (dest, rb :: tail) =>
        if rb ≠ p.txRsvdB then .error .badReserved
        else
          (splitTail p (Machine.unBE16 h l) ([h, l, ra, fid] ++ Machine.addrBytes dest ++ [rb]) tail).map
            fun payload => .txFrame dest fid payload
      | _ => .error .truncated
  | _ => .error .truncated

/-- A motor write transaction (R100): sub-command 1, mode 0, 1 or 2, magnitude. -/
def decodeMotor : Bytes → Except DecodeError Instr
  | [sub, mode, g] =>
    if sub ≠ Config.busSubcmd then .error .notMotor
    else if mode = Machine.modeByte .reverse then .ok (.motorRev g)
    else if mode = Machine.modeByte .forward then .ok (.motorFwd g)
    else if mode = Machine.modeByte .brake then .ok (.motorBrk g)
    else .error .notMotor
  | _ => .error .notMotor

/-- A payload by its tag (R206, R210, R216). Bytes after an incoming payload's digital bytes are ignored (R207).
An outgoing payload's digital bytes are any bytes, also with unused high bits of the last one not 0, which `BuildOutgoing`
never gives (R212, U24; DESIGN CHOICE, assumption log 26). -/
def decodePayload (p : Params) : Bytes → Except DecodeError Instr
  | [] => .error .truncated
  | tag :: rest =>
    if tag = p.identIn then
      match rest with
      | ft :: fl :: r3 :: r4 :: body =>
        if body.length < p.nAnalog + p.digBytes then .error .badPayloadLength
        else .ok (.payloadIn ft fl r3 r4 (body.take p.nAnalog) ((body.drop p.nAnalog).take p.digBytes))
      | _ => .error .badPayloadLength
    else if tag = p.identOut then
      if rest.length ≠ p.nAnalog + p.digBytes then .error .badPayloadLength
      else .ok (.payloadOut (rest.take p.nAnalog) (rest.drop p.nAnalog))
    else .error .badTag

/-- The code byte of a register name, in the order of R140 (assumption log 9). -/
def readNameCode : ReadName → Byte
  | .frValid => 0
  | .frNew => 1
  | .frPlen => 2
  | .frPayload => 3
  | .frSrc => 4
  | .frQuality => 5
  | .frOptions => 6
  | .frCk => 7
  | .frCkOk => 8
  | .frSrcIsPeer => 9
  | .peerValid => 10
  | .peerAddr => 11
  | .txFid => 12
  | .codecStatus => 13
  | .busStatus => 14
  | .reqDone => 15
  | .reqOk => 16
  | .reqNDone => 17
  | .busBusy => 18
  | .other c => c

/-- The register name of a code byte; every code above 18 is a name outside the list. -/
def readNameOf (b : Byte) : ReadName :=
  match b.toNat with
  | 0 => .frValid
  | 1 => .frNew
  | 2 => .frPlen
  | 3 => .frPayload
  | 4 => .frSrc
  | 5 => .frQuality
  | 6 => .frOptions
  | 7 => .frCk
  | 8 => .frCkOk
  | 9 => .frSrcIsPeer
  | 10 => .peerValid
  | 11 => .peerAddr
  | 12 => .txFid
  | 13 => .codecStatus
  | 14 => .busStatus
  | 15 => .reqDone
  | 16 => .reqOk
  | 17 => .reqNDone
  | 18 => .busBusy
  | _ => .other b

/-- A number operand at the front of a string: its digits to base 128, the least significant first, each but the last
with its top bit set; a last digit 0 after another digit is no number, so that each number has one form. No width bounds
it: the parameters that bound the operands have no upper bound themselves (R13, R101, R102; assumption log 9). -/
def takeNum : Bytes → Option (Nat × Bytes)
  | [] => none
  | b :: bs =>
    if b.toNat < 128 then some (b.toNat, bs)
    else (takeNum bs).bind fun (hi, rest) => if hi = 0 then none else some (b.toNat - 128 + 128 * hi, rest)

/-- A batch: transactions, each after its length as a number operand, up to the end of the string; `fuel` bounds how many
there are (assumption log 9). -/
def takeBatch : Nat → Bytes → Option (List Bytes)
  | _, [] => some []
  | 0, _ => none
  | fuel + 1, bs =>
    (takeNum bs).bind fun (n, rest) =>
      if rest.length < n then none else (takeBatch fuel (rest.drop n)).map (rest.take n :: ·)

/-- The operands (`r`, `timeout_ms`, `cfg`, `batch`) of `BUS_REQUEST` and `BUS_EXECUTE` (R102, R110). -/
def takeRequest (bs : Bytes) : Option (Nat × List Bytes × Nat × DeviceConfig) := do
  let (r, bs) ← takeNum bs
  let (timeoutMs, bs) ← takeNum bs
  let (devAddr, bs) ← takeNum bs
  let (clkRate, bs) ← takeNum bs
  let batch ← takeBatch bs.length bs
  return (r, batch, timeoutMs, ⟨devAddr, clkRate⟩)

/-- The operands of one operation, by its number (R110). -/
def decodeOperands (n : Nat) (args : Bytes) : Option Instr :=
  match n with
  | 0 => if args = [] then some .reset else none
  | 1 => match args with
    | [b] => some (.rxPush b)
    | _ => none
  | 2 => some (.rxChunk args)
  | 3 => if args = [] then some .rxAck else none
  | 4 => match args with
    | name :: rest => match takeNum rest with
      | some (idx, []) => some (.rxRead (readNameOf name) idx)
      | _ => none
    | _ => none
  | 5 => match Machine.takeAddr args with
    | some (dest, fid :: payload) => some (.txEncode dest fid payload)
    | _ => none
  | 6 => some (.txSend args)
  | 7 => (takeRequest args).map fun (r, batch, timeoutMs, cfg) => .busRequest r batch timeoutMs cfg
  | 8 => match takeNum args with
    | some (r, []) => some (.busGrant r)
    | _ => none
  | 9 => match args with
    | [o] => if o = 1 then some (.busXfer .ack) else if o = 0 then some (.busXfer .fail) else none
    | _ => none
  | 10 => if args = [] then some .busComplete else none
  | 11 => (takeRequest args).map fun (r, batch, timeoutMs, cfg) => .busExecute r batch timeoutMs cfg
  | 12 => match args with
    | [cmask, bmask] => some (.clrStatus cmask bmask)
    | _ => none
  | _ => none

/-- An operation: its number of R110, then its operands (assumption log 9). -/
def decodeOp : Bytes → Except DecodeError Instr
  | [] => .error .truncated
  | n :: args =>
    if 12 < n.toNat then .error .unknownOperation
    else match decodeOperands n.toNat args with
      | some i => .ok i
      | none => .error .badOperands

/-- The decoder: total on any bytes. -/
def decode (c : DecodeCtx) (w : Code) : Except DecodeError Instr :=
  match w.chan with
  | .line => match w.bytes with
    | [b] => .ok (decodeLine c b)
    | _ => .error .notOneByte
  | .rxStream => decodeRxFrame c.params w.bytes
  | .txStream => decodeTxFrame c.params w.bytes
  | .bus => decodeMotor w.bytes
  | .payload => decodePayload c.params w.bytes
  | .op => decodeOp w.bytes

/-- The registers the row conditions read, right after reset (`10_state.md` R56). -/
def resetCtx : DecodeCtx := { params := Config.params, rxState := .idle, rxCnt := 0, rxLen := 0 }

/-- The strings of whole bytes of the table's number `w`: the table reads a row's bits as one number whose least
significant byte is the last on the wire (`spec/98_reader.md`; assumption log 10). -/
def tableBytes (nbits w : Nat) : Bytes := Machine.beBytes (nbits / 8) w

/-- The channel of the rows that have this width: 8 bits are a byte on the line, 24 bits a bus transaction; the widths
of the frames and payloads are no fixed numbers, so their strings are tried in the table's order (assumption log 10). -/
def tableCode (nbits w : Nat) : Code :=
  if nbits = 8 then ⟨.line, tableBytes nbits w⟩
  else if nbits = 24 then ⟨.bus, tableBytes nbits w⟩
  else if (decodeRxFrame Config.params (tableBytes nbits w)).isOk then ⟨.rxStream, tableBytes nbits w⟩
  else if (decodeTxFrame Config.params (tableBytes nbits w)).isOk then ⟨.txStream, tableBytes nbits w⟩
  else ⟨.payload, tableBytes nbits w⟩

/-- The instruction of a word numbered as `spec/opcode_table.json` numbers it, in the decoder's state after reset. -/
def decodeTableWord (nbits w : Nat) : Option Instr := (decode resetCtx (tableCode nbits w)).toOption

/-! ## The encoder -/

/-- The digits of a number to base 128 as `takeNum` reads them; `fuel` is at least their number. -/
def numDigits : Nat → Nat → Bytes
  | 0, v => [BitVec.ofNat 8 v]
  | fuel + 1, v =>
    if v < 128 then [BitVec.ofNat 8 v] else BitVec.ofNat 8 (128 + v % 128) :: numDigits fuel (v / 128)

/-- A number operand, of any size (assumption log 9). -/
def numBytes (v : Nat) : Bytes := numDigits v v

/-- A transaction after its length (assumption log 9). -/
def encodeTxn (w : Bytes) : Bytes := numBytes w.length ++ w

/-- The operands of `BUS_REQUEST` and `BUS_EXECUTE` (assumption log 9). -/
def encodeRequest (r : Nat) (batch : List Bytes) (timeoutMs : Nat) (cfg : DeviceConfig) : Bytes :=
  numBytes r ++ numBytes timeoutMs ++ numBytes cfg.devAddr ++ numBytes cfg.clkRate ++ batch.flatMap encodeTxn

/-- The byte of a transfer outcome (assumption log 9). -/
def outcomeByte : XferOutcome → Byte
  | .ack => 1
  | .fail => 0

/-- The words of an instruction, from the encoding tables of the spec (R86 to R88, R100, R110, R206, R210). -/
def encode (p : Params) : Instr → Code
  | .rxIdleDelim => ⟨.line, [Config.delim]⟩
  | .rxIdleOther b => ⟨.line, [b]⟩
  | .rxLenHi h => ⟨.line, [h]⟩
  | .rxLenLo l => ⟨.line, [l]⟩
  | .rxTypeData64 t => ⟨.line, [t]⟩
  | .rxTypeData64Short t => ⟨.line, [t]⟩
  | .rxTypeData64Oversize t => ⟨.line, [t]⟩
  | .rxTypeOther t => ⟨.line, [t]⟩
  | .rxSrc a => ⟨.line, [a]⟩
  | .rxQual q => ⟨.line, [q]⟩
  | .rxOpt o => ⟨.line, [o]⟩
  | .rxPayload d => ⟨.line, [d]⟩
  | .rxCksum c => ⟨.line, [c]⟩
  | .rxIgnore x => ⟨.line, [x]⟩
  | .rxFrameData64 src q o payload => ⟨.rxStream, Machine.rxDataFrame p src q o payload⟩
  | .rxFrameOther t xs => ⟨.rxStream, Machine.rxOtherFrame t xs⟩
  | .txFrame dest fid payload => ⟨.txStream, Machine.encodeFrame p dest fid payload⟩
  | .motorRev g => ⟨.bus, Machine.motorCmd .reverse g⟩
  | .motorFwd g => ⟨.bus, Machine.motorCmd .forward g⟩
  | .motorBrk g => ⟨.bus, Machine.motorCmd .brake g⟩
  | .payloadIn ft fl r3 r4 analog digital => ⟨.payload, Machine.payloadInBytes p ft fl r3 r4 analog digital⟩
  | .payloadOut analog digital => ⟨.payload, Machine.payloadOutBytes p analog digital⟩
  | .reset => ⟨.op, [0]⟩
  | .rxPush b => ⟨.op, [1, b]⟩
  | .rxChunk bs => ⟨.op, 2 :: bs⟩
  | .rxAck => ⟨.op, [3]⟩
  | .rxRead name idx => ⟨.op, 4 :: readNameCode name :: numBytes idx⟩
  | .txEncode dest fid payload => ⟨.op, 5 :: (Machine.addrBytes dest ++ fid :: payload)⟩
  | .txSend payload => ⟨.op, 6 :: payload⟩
  | .busRequest r batch timeoutMs cfg => ⟨.op, 7 :: encodeRequest r batch timeoutMs cfg⟩
  | .busGrant r => ⟨.op, 8 :: numBytes r⟩
  | .busXfer o => ⟨.op, [9, outcomeByte o]⟩
  | .busComplete => ⟨.op, [10]⟩
  | .busExecute r batch timeoutMs cfg => ⟨.op, 11 :: encodeRequest r batch timeoutMs cfg⟩
  | .clrStatus cmask bmask => ⟨.op, [12, cmask, bmask]⟩

/-- The decoder's registers are as the condition of the instruction's row asks (the `condition` column of the table;
R126 to R137); every other row has no condition on registers. -/
def admits (c : DecodeCtx) : Instr → Bool
  | .rxIdleDelim => c.rxState == .idle
  | .rxIdleOther _ => c.rxState == .idle
  | .rxLenHi _ => c.rxState == .length && c.rxCnt == 0
  | .rxLenLo _ => c.rxState == .length && c.rxCnt != 0
  | .rxTypeData64 _ => c.rxState == .type && decide (Config.hdrLen ≤ c.rxLen.toNat) &&
      decide (c.rxLen.toNat - Config.hdrLen ≤ c.params.rxPayloadMax)
  | .rxTypeData64Short _ => c.rxState == .type && decide (c.rxLen.toNat < Config.hdrLen)
  | .rxTypeData64Oversize _ => c.rxState == .type && decide (Config.hdrLen ≤ c.rxLen.toNat) &&
      decide (c.params.rxPayloadMax < c.rxLen.toNat - Config.hdrLen)
  | .rxTypeOther _ => c.rxState == .type
  | .rxSrc _ => c.rxState == .sourceAddr
  | .rxQual _ => c.rxState == .quality
  | .rxOpt _ => c.rxState == .options
  | .rxPayload _ => c.rxState == .payload
  | .rxCksum _ => c.rxState == .checksum
  | .rxIgnore _ => c.rxState == .ignoreUnknown
  | .rxFrameData64 _ _ _ _ => true
  | .rxFrameOther _ _ => true
  | .txFrame _ _ _ => true
  | .motorRev _ => true
  | .motorFwd _ => true
  | .motorBrk _ => true
  | .payloadIn _ _ _ _ _ _ => true
  | .payloadOut _ _ => true
  | .reset => true
  | .rxPush _ => true
  | .rxChunk _ => true
  | .rxAck => true
  | .rxRead _ _ => true
  | .txEncode _ _ _ => true
  | .txSend _ => true
  | .busRequest _ _ _ _ => true
  | .busGrant _ => true
  | .busXfer _ => true
  | .busComplete => true
  | .busExecute _ _ _ _ => true
  | .clrStatus _ _ => true

end Sys2Proof
end

