-- ==== Sys2Proof/Machine/State.lean ====
section
/-! DEFINITION. The state of the block (`10_state.md`), the outcomes of an operation, and the state after reset. -/

namespace Sys2Proof.Machine

/-- The causes of `60_exceptions.md` R268. -/
inductive Cause where
  | eCksum | eShort | eOversize | eTxlen | eNopeer | eFid | eOverrun | eBus
  deriving DecidableEq, Repr

/-- The result an operation gives its caller: the Result column of `30_encoding.md` R110 and the `->` of R111
(assumption log 3). -/
inductive OpResult where
  /-- the operation has no result -/
  | none
  /-- `(done, accept)` of one pushed byte (R125) -/
  | push (done accept : Bool)
  /-- the bit of `RX_CHUNK` (R138) -/
  | chunk (accepted : Bool)
  /-- the value of `RX_READ` (R140) -/
  | value (v : Nat)
  /-- the frame an encoder operation appended to `tx_out` (R156, R157) -/
  | emitted (frame : Bytes)
  /-- the operation was refused, with the status bit it raised if it names one (R16, R140, R159, R193) -/
  | refused (cause : Option Cause)
  /-- the outcome of a transfer (R179) -/
  | xfer (o : XferOutcome)
  /-- `(ok, n_done)` to the owner `r` of the window (R180) -/
  | complete (r : Nat) (ok : Bool) (nDone : Nat)
  /-- `BUS_EXECUTE`'s caller is blocked: its request waits for a grant (R181, R183) -/
  | blocked
  /-- an incoming payload the host accepted (R208, R227) -/
  | accepted
  /-- an incoming payload the host rejected (R208) -/
  | rejected
  /-- the step was not enabled: no step was taken (assumption log 6) -/
  | notEnabled
  deriving DecidableEq, Repr

/-- One record of the bus trace (R48). -/
structure BusRec where
  devAddr : Nat
  clkRate : Nat
  bytes : Bytes
  outcome : XferOutcome
  deriving DecidableEq, Repr

/-- The request and result registers of one requester (R44, R45). -/
structure Req where
  pending : Bool
  batch : List Bytes
  timeoutMs : Nat
  cfg : DeviceConfig
  done : Bool
  ok : Bool
  nDone : Nat
  deriving DecidableEq, Repr

/-- A requester's registers after reset (R56); `batch`, `timeout_ms` and `cfg` are unspecified there (assumption log 5). -/
def Req.init : Req :=
  { pending := false, batch := [], timeoutMs := 0, cfg := ⟨0, 0⟩, done := false, ok := false, nDone := 0 }

/-- One window of the bus: what the grant took from the winner's request (R177, R191). -/
structure Window where
  owner : Nat
  batch : List Bytes
  cfg : DeviceConfig
  deriving DecidableEq, Repr

/-- What TelemetryChannel holds (`44_host_environment.md` R226): host state, not the block's (assumption log 13). -/
structure Telemetry where
  incoming : Incoming
  outgoing : Outgoing
  lastUpdate : Nat
  clock : Nat
  deriving DecidableEq, Repr

/-- TelemetryChannel before any frame: its sequences have their fixed sizes `N_ANALOG` and `N_DIGITAL` (R226); the source
gives no values (N41; assumption log 13). -/
def Telemetry.init (p : Params) : Telemetry :=
  { incoming :=
      { fieldTime := 0
        canMove := false
        isAutonomous := false
        isBlue := false
        analog := List.replicate p.nAnalog 0
        digital := List.replicate p.nDigital false }
    outgoing := { analog := List.replicate p.nAnalog 0, digital := List.replicate p.nDigital false }
    lastUpdate := 0
    clock := 0 }

/-- One step of an agent, waiting in the order of `20_memory.md` R75 (assumption log 2). -/
inductive Event where
  /-- a byte on the receive line (R125) -/
  | line (b : Byte)
  /-- the bytes of a whole frame on the receive line (R86, R88) -/
  | frame (bs : Bytes)
  /-- a transmit frame the host has had built (R87) -/
  | emit (bs : Bytes)
  /-- a payload in the host's hands (R206, R210) -/
  | payload (bs : Bytes)
  /-- the arbiter issues its next transaction and the device answers (R179, R284) -/
  | device
  /-- an operation of R110 -/
  | op (bs : Bytes)
  deriving DecidableEq, Repr

/-- A byte-indexed space (`20_memory.md` R60) as the list of its bytes that differ from what an unlisted index reads
as, indices strictly rising. -/
abbrev Memory := List Host.Cell

/-- What an index of a space that nothing has written holds: unspecified by R56 (assumption log 5). -/
def Memory.unlisted : Byte := 0

/-- The registers of all requesters by index, in the same canonical form; an unlisted requester is as after reset. -/
abbrev ReqFile := List (Nat × Req)

structure State where
  /-- the parameters, fixed for a run (R9, R49; assumption log 1) -/
  params : Params
  /-- `rx_state` (R26) -/
  rxState : RxState
  /-- `rx_len` (R27) -/
  rxLen : Half
  /-- `rx_cnt` (R28) -/
  rxCnt : Half
  /-- `rx_sum` (R29) -/
  rxSum : Byte
  /-- `rx_type` (R30) -/
  rxType : Byte
  /-- `rx_plen` (R31) -/
  rxPlen : Half
  /-- `rx_src` (R32) -/
  rxSrc : Addr
  /-- `rx_quality` (R33) -/
  rxQuality : Byte
  /-- `rx_options` (R33) -/
  rxOptions : Byte
  /-- `rx_ck` (R33) -/
  rxCk : Byte
  /-- `rx_buf`, space `RXA` (R35, R60) -/
  rxBuf : Memory
  /-- `peer_valid` (R34) -/
  peerValid : Bool
  /-- `peer_addr` (R34) -/
  peerAddr : Addr
  /-- `fr_valid` (R36) -/
  frValid : Bool
  /-- `fr_new` (R36) -/
  frNew : Bool
  /-- `fr_plen` (R37) -/
  frPlen : Half
  /-- `fr_payload`, space `RXF` (R37, R60) -/
  frPayload : Memory
  /-- `fr_src` (R38) -/
  frSrc : Addr
  /-- `fr_quality` (R38) -/
  frQuality : Byte
  /-- `fr_options` (R38) -/
  frOptions : Byte
  /-- `fr_ck` (R38) -/
  frCk : Byte
  /-- `fr_ck_ok` (R38) -/
  frCkOk : Bool
  /-- `fr_src_is_peer` (R38) -/
  frSrcIsPeer : Bool
  /-- `codec_status` (R39, R266) -/
  codecStatus : Byte
  /-- `tx_fid` (R40) -/
  txFid : Fid
  /-- `tx_out` (R41) -/
  txOut : Bytes
  /-- `bus_busy` (R42) -/
  busBusy : Bool
  /-- `bus_owner` (R42) -/
  busOwner : Nat
  /-- `bus_idx` (R42) -/
  busIdx : Nat
  /-- `bus_fail` (R42) -/
  busFail : Bool
  /-- `bus_cfg_valid` (R43) -/
  busCfgValid : Bool
  /-- `bus_cfg` (R43) -/
  busCfg : DeviceConfig
  /-- `req[r].*` (R44, R45) -/
  reqs : ReqFile
  /-- `bus_status` (R46, R267) -/
  busStatus : Byte
  /-- `bus_out` (R48) -/
  busOut : List BusRec
  /-- the host's TelemetryChannel (R226; assumption log 13) -/
  telemetry : Telemetry
  /-- MODEL: the agents' steps to come (assumption log 2) -/
  inbox : List Event
  /-- MODEL: the result of the last operation (assumption log 3) -/
  result : OpResult
  /-- MODEL: how many free values have been drawn (assumption log 4) -/
  draws : Nat
  /-- MODEL: the list of `raise` events (R316; assumption log 18) -/
  raised : List Cause
  /-- MODEL: the windows opened since reset, in grant order (R191; assumption log 18) -/
  windows : List Window
  deriving DecidableEq, Repr

/-- Why the machine stops with a fault: it never does. "The block never traps, halts or enters a fault state"
(`60_exceptions.md` R265), so no fault exists and none can be raised. -/
inductive Fault where
  deriving DecidableEq, Repr

/-- Why a step has no meaning. -/
inductive Refusal where
  /-- raised by `exec` for an instruction the model does not cover (none); safe -/
  | notModelled (mnemonic : String)
  /-- raised by `step` when the next inbox entry is no operation, frame to emit or byte of the line at all: the spec has
  no such step (R110, R87; assumption log 19); safe -/
  | undecodable (e : DecodeError)
  deriving DecidableEq, Repr

/-- The state a `RESET` gives the block under the parameters `p`: the table of `10_state.md` R56. Storage the table leaves
unspecified takes the values of assumption log 5. -/
def State.init (p : Params) : State :=
  { params := p
    rxState := .idle
    rxLen := 0
    rxCnt := 0
    rxSum := 0x00
    rxType := 0x00
    rxPlen := 0
    rxSrc := Addr.zero
    rxQuality := 0x00
    rxOptions := 0x00
    rxCk := 0x00
    rxBuf := []
    peerValid := false
    peerAddr := Addr.zero
    frValid := false
    frNew := false
    frPlen := 0
    frPayload := []
    frSrc := Addr.zero
    frQuality := 0x00
    frOptions := 0x00
    frCk := 0x00
    frCkOk := false
    frSrcIsPeer := false
    codecStatus := 0x00
    txFid := 0
    txOut := []
    busBusy := false
    busOwner := 0
    busIdx := 0
    busFail := false
    busCfgValid := false
    busCfg := ⟨0, 0⟩
    reqs := []
    busStatus := 0x00
    busOut := []
    telemetry := Telemetry.init p
    inbox := []
    result := .none
    draws := 0
    raised := []
    windows := [] }

/-- The machine right after power-up, which is a `RESET` (R295): nothing waiting, the parameters those of `Config`. -/
def State.reset : State := State.init Config.params

end Sys2Proof.Machine
end

