-- ==== Sys2Proof/Machine/Ops.lean ====
section
/-! DEFINITION. The named operations over the byte spaces and the registers, and recording a cause: the block has no
exception entry and no return (`60_exceptions.md` R279, R280); what it has is `raise`, and `CLR_STATUS` as its undoing. -/

namespace Sys2Proof.Machine

/-! ## Canonical lists of cells -/

/-- What the cell at `k` holds: the listed value, or `d` where none is listed. -/
def cellGet {α : Type} (d : α) : List (Nat × α) → Nat → α
  | [], _ => d
  | c :: m, k => if c.1 = k then c.2 else cellGet d m k

/-- Make the cell at `k` hold `v`; a cell that holds what an unlisted one holds is not listed. -/
def cellPut {α : Type} [DecidableEq α] (d : α) (k : Nat) (v : α) : List (Nat × α) → List (Nat × α)
  | [] => if v = d then [] else [(k, v)]
  | c :: m =>
    if k < c.1 then (if v = d then c :: m else (k, v) :: c :: m)
    else if k = c.1 then (if v = d then m else (k, v) :: m)
    else c :: cellPut d k v m

/-- The canonical form: indices strictly rising, no cell listed that holds `d`. -/
abbrev cellsWf {α : Type} [DecidableEq α] (d : α) (m : List (Nat × α)) : Prop :=
  m.Pairwise (fun a b => a.1 < b.1) ∧ ∀ c ∈ m, c.2 ≠ d

/-! ## The byte spaces `RXA` and `RXF` -/

/-- `MemRead(space, i, 1)` (`00_scope.md` R16, `20_memory.md` R60). -/
def Memory.read (m : Memory) (i : Nat) : Byte := cellGet Memory.unlisted m i

/-- `MemWrite(space, i, 1, v)` (R16, R60). -/
def Memory.write (m : Memory) (i : Nat) (v : Byte) : Memory := cellPut Memory.unlisted i v m

/-- The canonical form of a space, so that equal contents are equal data. -/
abbrev Memory.wf (m : Memory) : Prop := cellsWf Memory.unlisted m

/-- Copy indices `0 .. n-1` of `src` over `dst` (the loop of `40_decoder.md` R136). -/
def Memory.copy (src dst : Memory) : Nat → Memory
  | 0 => dst
  | n + 1 => (Memory.copy src dst n).write n (src.read n)

/-- Bytes `0 .. n-1` of a space in order. -/
def Memory.bytes (m : Memory) (n : Nat) : Bytes := (List.range n).map m.read

/-! ## The requesters' registers -/

/-- `req[r]` (R44, R45). -/
def State.req (s : State) (r : Nat) : Req := cellGet Req.init s.reqs r

/-- Write `req[r]`. -/
def State.setReq (s : State) (r : Nat) (q : Req) : State := { s with reqs := cellPut Req.init r q s.reqs }

/-- The canonical form of the requesters' registers. -/
abbrev ReqFile.wf (m : ReqFile) : Prop := cellsWf Req.init m

/-! ## Causes -/

/-- The bit of `codec_status` a cause sets (R266); `E_BUS` sets none of it. -/
def codecBit : Cause → Byte
  | .eCksum => 0x01
  | .eShort => 0x02
  | .eOversize => 0x04
  | .eTxlen => 0x08
  | .eNopeer => 0x10
  | .eFid => 0x20
  | .eOverrun => 0x40
  | .eBus => 0x00

/-- The bit of `bus_status` a cause sets (R267). -/
def busBit : Cause → Byte
  | .eBus => 0x01
  | _ => 0x00

/-- The cause code (R266, R267, R268). -/
def causeCode : Cause → Nat
  | .eCksum => 0
  | .eShort => 1
  | .eOversize => 2
  | .eTxlen => 3
  | .eNopeer => 4
  | .eFid => 5
  | .eOverrun => 6
  | .eBus => 8

/-- `raise E_x`: set the sticky bit and no more; no control transfer (R16, R265). The event is noted beside the state
as R316 proposes (assumption log 18). -/
def State.raise (s : State) (c : Cause) : State :=
  { s with
    codecStatus := s.codecStatus ||| codecBit c
    busStatus := s.busStatus ||| busBit c
    raised := s.raised ++ [c] }

/-- `raise E_x` where a condition holds. -/
def State.raiseIf (s : State) (b : Bool) (c : Cause) : State := if b then s.raise c else s

/-- Clear the status bits whose mask bits are 1 (`60_exceptions.md` R287). -/
def State.clearStatus (s : State) (cmask bmask : Byte) : State :=
  { s with codecStatus := s.codecStatus &&& ~~~cmask, busStatus := s.busStatus &&& ~~~bmask }

/-! ## Results and outputs -/

/-- Give the caller a result. -/
def State.answer (s : State) (r : OpResult) : State := { s with result := r }

/-- `refuse` with a status bit: no state changes but that bit, no output (R16, R159). -/
def State.refuse (s : State) (c : Cause) : State := (s.raise c).answer (.refused (some c))

/-- `refuse` with no status bit (R140, R193). -/
def State.reject (s : State) : State := s.answer (.refused none)

/-- A step that is not enabled is no step (R193; assumption log 6). -/
def State.skip (s : State) : State := s.answer .notEnabled

/-- `emit_tx`: append a whole frame to `tx_out` (R16, R41, R161). -/
def State.emitTx (s : State) (frame : Bytes) : State := { s with txOut := s.txOut ++ frame }

/-- `emit_bus(cfg, w, o)`: append one record to `bus_out` (R16, R48). -/
def State.emitBus (s : State) (cfg : DeviceConfig) (w : Bytes) (o : XferOutcome) : State :=
  { s with busOut := s.busOut ++ [⟨cfg.devAddr, cfg.clkRate, w, o⟩] }

/-- One free value has been drawn (assumption log 4). -/
def State.drew (s : State) : State := { s with draws := s.draws + 1 }

end Sys2Proof.Machine
end

