-- ==== Sys2Proof/Machine/Flags.lean ====
section
/-! DEFINITION. The flag computations: checksum verdict, `done` and `accept`, `fr_src_is_peer`, the enabling conditions
of the arbiter's steps, quiescence. -/

namespace Sys2Proof.Machine

/-- `ok`: the received checksum byte matches the running sum (`40_decoder.md` R135, `30_encoding.md` R92). -/
def State.cksumOk (s : State) (b : Byte) : Bool := b == Config.ckBase - s.rxSum

/-- The acceptance policy on a verdict (R135): a mismatch is accepted only with `CKSUM_ENFORCE` = 0. -/
def State.policy (s : State) (ok : Bool) : Bool := ok || !s.params.cksumEnforce

/-- `done` of the step that pushes a byte: only the `Checksum` handler can return it (R125, R135). -/
def State.pushDone (s : State) : Bool := s.rxState == .checksum

/-- `accept` of the step that pushes `b` (R125, R135). -/
def State.pushAccept (s : State) (b : Byte) : Bool := s.pushDone && s.policy (s.cksumOk b)

/-- The `accept` bit a push or a chunk returned (R125, R138). -/
def OpResult.accepts : OpResult → Bool
  | .push _ a => a
  | .chunk a => a
  | _ => false

/-- `fr_src_is_peer` at the moment of commit (R38, R136). -/
def State.srcIsPeer (s : State) : Bool := s.rxSrc == s.peerAddr

/-- `rx_sum` after a covered byte: 8-bit wrap-around addition (R29, R107 (a)). -/
def State.sumWith (s : State) (b : Byte) : Byte := s.rxSum + b

/-- `rx_sum` after a length byte, covered only with `CKSUM_COVERS_LENGTH` = 1 (R127). -/
def State.sumWithLength (s : State) (b : Byte) : Byte := if s.params.cksumCoversLength then s.rxSum + b else s.rxSum

/-- `BUS_GRANT(r)` is enabled (`42_bus_arbiter.md` R177). -/
def State.grantEnabled (s : State) (r : Nat) : Bool := !s.busBusy && (s.req r).pending

/-- The owner's batch (R179). -/
def State.ownerBatch (s : State) : List Bytes := (s.req s.busOwner).batch

/-- `BUS_XFER` is enabled (R179). -/
def State.xferEnabled (s : State) : Bool := s.busBusy && !s.busFail && decide (s.busIdx < s.ownerBatch.length)

/-- `BUS_COMPLETE` is enabled (R180). -/
def State.completeEnabled (s : State) : Bool := s.busBusy && (s.busFail || decide (s.busIdx = s.ownerBatch.length))

/-- Some requester other than `r` has a request pending. -/
def State.othersPending (s : State) (r : Nat) : Bool := s.reqs.any fun c => c.1 != r && c.2.pending

/-- No requester has a request pending (R44, `70_reset_and_hazards.md` R298 (e)). -/
def State.nonePending (s : State) : Bool := s.reqs.all fun c => !c.2.pending

/-- No step of the block's own is enabled and nothing is owed: `bus_busy` = 0 and no request pending
(`70_reset_and_hazards.md` R320). -/
def State.quiescent (s : State) : Bool := !s.busBusy && s.nonePending

end Sys2Proof.Machine
end

