-- ==== Sys2Proof/Machine/Operands.lean ====
section
/-! DEFINITION. The operand forms: the registers the row conditions read, the register an `RX_READ` names, the checks on
a request, the transaction a transfer issues. -/

namespace Sys2Proof.Machine

/-- The registers the byte handlers' row conditions read. -/
def State.ctx (s : State) : DecodeCtx :=
  { params := s.params, rxState := s.rxState, rxCnt := s.rxCnt, rxLen := s.rxLen }

/-- What reading a register gives: a value, a value the spec does not specify, or nothing (`40_decoder.md` R140, U10, U11). -/
inductive ReadAnswer where
  | known (v : Nat)
  | anyByte
  | anyLen
  | noSuch
  deriving DecidableEq, Repr

/-- A data register of the committed frame: unspecified while no frame is held (R296, U10; assumption log 11). -/
def State.frByte (s : State) (b : Byte) : ReadAnswer := if s.frValid then .known b.toNat else .anyByte

/-- A result register of requester `r`: refused where there is no such requester (R140). -/
def State.reqAnswer (s : State) (r : Nat) (v : Nat) : ReadAnswer := if r < s.params.nReq then .known v else .noSuch

/-- The value of the register `name` (index `i` where it has one) (R140, R61, R296). `bus_busy` is among them as R140 lists
it, though R50's list omits it and R54 calls it hidden, observable only through later behaviour (DESIGN CHOICE; assumption
log 27). -/
def State.readAnswer (s : State) (i : Nat) : ReadName → ReadAnswer
  | .frValid => .known s.frValid.toNat
  | .frNew => .known s.frNew.toNat
  | .frPlen => if s.frValid then .known s.frPlen.toNat else .anyLen
  | .frPayload =>
    if s.params.rxPayloadMax ≤ i then .noSuch
    else if s.frPlen.toNat ≤ i then .anyByte
    else s.frByte (s.frPayload.read i)
  | .frSrc => if 8 ≤ i then .noSuch else s.frByte (addrGet s.frSrc i)
  | .frQuality => s.frByte s.frQuality
  | .frOptions => s.frByte s.frOptions
  | .frCk => s.frByte s.frCk
  | .frCkOk => .known s.frCkOk.toNat
  | .frSrcIsPeer => .known s.frSrcIsPeer.toNat
  | .peerValid => .known s.peerValid.toNat
  | .peerAddr => if 8 ≤ i then .noSuch else .known (addrGet s.peerAddr i).toNat
  | .txFid => .known s.txFid.toNat
  | .codecStatus => .known s.codecStatus.toNat
  | .busStatus => .known s.busStatus.toNat
  | .reqDone => s.reqAnswer i (s.req i).done.toNat
  | .reqOk => s.reqAnswer i (s.req i).ok.toNat
  | .reqNDone => s.reqAnswer i (s.req i).nDone
  | .busBusy => .known s.busBusy.toNat
  | .other _ => .noSuch

/-- A batch within `BATCH_MAX` whose transactions have 1 to `TXN_MAX_BYTES` bytes (R99, R102, R176). -/
def batchOk (p : Params) (batch : List Bytes) : Bool :=
  decide (batch.length ≤ p.batchMax) && batch.all fun w => decide (1 ≤ w.length) && decide (w.length ≤ p.txnMaxBytes)

/-- `BUS_REQUEST` by `r` is not refused (R176, R193). -/
def State.requestOk (s : State) (r : Nat) (batch : List Bytes) : Bool :=
  decide (r < s.params.nReq) && !(s.req r).pending && batchOk s.params batch

/-- What the `DEV_ADDR_W` and `CLK_RATE_W` bits of a configuration register keep (R43, R101; assumption log 17). -/
def fitCfg (p : Params) (cfg : DeviceConfig) : DeviceConfig :=
  { devAddr := cfg.devAddr % 2 ^ p.devAddrW, clkRate := cfg.clkRate % 2 ^ p.clkRateW }

/-- What the `TIMEOUT_W` bits of `timeout_ms` keep (R44, R102; assumption log 17). -/
def fitTimeout (p : Params) (t : Nat) : Nat := t % 2 ^ p.timeoutW

/-- Transaction number `bus_idx` of the owner's batch (R179), the empty string where there is none. -/
def State.currentTxn (s : State) : Bytes := s.ownerBatch.getD s.busIdx []

/-- The device's answer where no operand carries the draw (R47, U16; assumption log 4). -/
def deviceAnswer (n : Nat) : XferOutcome := if Config.deviceAck n then .ack else .fail

end Sys2Proof.Machine
end

