-- ==== Sys2Proof/Machine/Bus.lean ====
section
/-! DEFINITION. The bus write-transaction arbiter (`42_bus_arbiter.md`). -/

namespace Sys2Proof.Machine

open Host (Outcome)

/-! ## The steps -/

/-- A request enters its requester's registers (R176). -/
def placeRequest (r : Nat) (batch : List Bytes) (timeoutMs : Nat) (cfg : DeviceConfig) (s : State) : State :=
  s.setReq r
    { s.req r with
      batch := batch
      timeoutMs := fitTimeout s.params timeoutMs
      cfg := fitCfg s.params cfg
      done := false
      pending := true }

/-- The window opens for `r` and its configuration is applied (R177, R178). -/
def openWindow (r : Nat) (s : State) : State :=
  { s with
    busBusy := true
    busOwner := r
    busIdx := 0
    busFail := false
    busCfg := (s.req r).cfg
    busCfgValid := true
    windows := s.windows ++ [⟨r, (s.req r).batch, (s.req r).cfg⟩] }

/-- Transaction `bus_idx` of the owner's batch is issued with outcome `o` (R179). -/
def transfer (o : XferOutcome) (s : State) : State :=
  { s.emitBus s.busCfg s.currentTxn o with
    busIdx := match o with
      | .ack => s.busIdx + 1
      | .fail => s.busIdx
    busFail := match o with
      | .ack => s.busFail
      | .fail => true }

/-- The window closes and its owner gets the result (R180). -/
def closeWindow (s : State) : State :=
  { (s.setReq s.busOwner
      { s.req s.busOwner with ok := !s.busFail, nDone := s.busIdx, done := true, pending := false }).raiseIf
        s.busFail .eBus with
    busBusy := false }

/-- The result `BUS_COMPLETE` gives (R180). -/
def closeResult (s : State) : OpResult := .complete s.busOwner (!s.busFail) s.busIdx

/-- Up to `n` transfers, each as long as it is enabled, the device's answers drawn (R181). -/
def transferAll (answer : Nat → XferOutcome) : Nat → State → State
  | 0, s => s
  | n + 1, s => if s.xferEnabled then transferAll answer n (transfer (answer s.draws) s.drew) else s

/-- The whole window of requester `r`, from grant to completion (R181). -/
def runWindow (answer : Nat → XferOutcome) (r : Nat) (s : State) : State :=
  let t := transferAll answer (s.req r).batch.length (openWindow r s)
  (closeWindow t).answer (closeResult t)

/-- `BUS_EXECUTE` seen from the caller (R181): the request, and where no other requester has one pending and the bus is
free, the whole window as one step; elsewhere the caller stays blocked until the arbiter's later steps (R183;
assumption log 7). -/
def executeBatch (answer : Nat → XferOutcome) (r : Nat) (batch : List Bytes) (timeoutMs : Nat) (cfg : DeviceConfig)
    (s : State) : State :=
  if s.requestOk r batch then
    if s.busBusy || s.othersPending r then (placeRequest r batch timeoutMs cfg s).answer .blocked
    else runWindow answer r (placeRequest r batch timeoutMs cfg s)
  else s.reject

/-- A motor write transaction (R187 to R190): the transfer that issues exactly these three bytes, enabled where they are
the transaction the open window issues next; the device's answer is drawn (assumption log 8). -/
def issueMotor (m : MotorMode) (g : Byte) (s : State) : State :=
  if s.xferEnabled && s.currentTxn == motorCmd m g then
    (transfer (deviceAnswer s.draws) s.drew).answer (.xfer (deviceAnswer s.draws))
  else s.skip

/-! ## The instructions -/

/-- `BUS_REQUEST(r, batch, timeout_ms, cfg)` (R176, R193). -/
def execBusRequest (r : Nat) (batch : List Bytes) (timeoutMs : Nat) (cfg : DeviceConfig) (s : State) :
    Outcome State Fault Refusal :=
  .next (if s.requestOk r batch then (placeRequest r batch timeoutMs cfg s).answer .none else s.reject)

/-- `BUS_GRANT(r)` (R177). -/
def execBusGrant (r : Nat) (s : State) : Outcome State Fault Refusal :=
  .next (if s.grantEnabled r then (openWindow r s).answer .none else s.skip)

/-- `BUS_XFER` with outcome `o` (R179). -/
def execBusXfer (o : XferOutcome) (s : State) : Outcome State Fault Refusal :=
  .next (if s.xferEnabled then (transfer o s).answer (.xfer o) else s.skip)

/-- `BUS_COMPLETE` (R180). -/
def execBusComplete (s : State) : Outcome State Fault Refusal :=
  .next (if s.completeEnabled then (closeWindow s).answer (closeResult s) else s.skip)

/-- `BUS_EXECUTE(r, batch, timeout_ms, cfg)` (R181). -/
def execBusExecute (r : Nat) (batch : List Bytes) (timeoutMs : Nat) (cfg : DeviceConfig) (s : State) :
    Outcome State Fault Refusal :=
  .next (executeBatch deviceAnswer r batch timeoutMs cfg s)

/-- `MOTOR.REV g` (R187). -/
def execMotorRev (g : Byte) (s : State) : Outcome State Fault Refusal := .next (issueMotor .reverse g s)

/-- `MOTOR.FWD g` (R188). -/
def execMotorFwd (g : Byte) (s : State) : Outcome State Fault Refusal := .next (issueMotor .forward g s)

/-- `MOTOR.BRK g` (R189). -/
def execMotorBrk (g : Byte) (s : State) : Outcome State Fault Refusal := .next (issueMotor .brake g s)

end Sys2Proof.Machine
end

