-- ==== Sys2Proof/Machine/Receive.lean ====
section
/-! DEFINITION. The receive decoder (`40_decoder.md`): the byte handlers, and the receive operations over them. -/

namespace Sys2Proof.Machine

open Host (Outcome)

/-! ## What each handler does with its byte -/

/-- The delimiter seen in `Idle` (R126). -/
def openFrame (s : State) : State := { s with rxState := .length, rxCnt := 0, rxLen := 0, rxSum := 0 }

/-- State `Idle` (R126): any other byte is discarded. -/
def takeIdle (b : Byte) (s : State) : State := if b = Config.delim then openFrame s else s

/-- The length's high byte (R127). -/
def takeLengthHigh (b : Byte) (s : State) : State :=
  { s with rxSum := s.sumWithLength b, rxLen := BitVec.ofNat 16 (256 * b.toNat), rxCnt := 1 }

/-- The length's low byte (R127). -/
def takeLengthLow (b : Byte) (s : State) : State :=
  { s with rxSum := s.sumWithLength b, rxLen := s.rxLen + b.setWidth 16, rxCnt := 0, rxState := .type }

/-- State `Length` (R127). -/
def takeLength (b : Byte) (s : State) : State := if s.rxCnt = 0 then takeLengthHigh b s else takeLengthLow b s

/-- A data frame is admitted (R128): the type byte matches and the payload length is 0 to `RX_PAYLOAD_MAX`. -/
def State.admitsData (s : State) (b : Byte) : Bool :=
  b == s.params.typeRx64 && decide (Config.hdrLen ≤ s.rxLen.toNat) &&
    decide (s.rxLen.toNat - Config.hdrLen ≤ s.params.rxPayloadMax)

/-- State `Type`, data-frame arm (R128). -/
def admitFrame (b : Byte) (s : State) : State :=
  { s with
    rxSum := s.sumWith b
    rxType := b
    rxPlen := BitVec.ofNat 16 (s.rxLen.toNat - Config.hdrLen)
    rxCnt := 0
    rxState := .sourceAddr }

/-- State `Type`, what every skipped frame does (R129). -/
def skipFrame (b : Byte) (s : State) : State :=
  { s with
    rxSum := s.sumWith b
    rxType := b
    rxCnt := s.rxLen
    rxState := if s.rxLen = 0 then .idle else .ignoreUnknown }

/-- The declared length is too short for a data frame (R129, R270). -/
def State.tooShort (s : State) (b : Byte) : Bool :=
  b == s.params.typeRx64 && decide (s.rxLen.toNat < Config.hdrLen)

/-- The declared payload is longer than the buffer (R129, R271). -/
def State.tooLong (s : State) (b : Byte) : Bool :=
  b == s.params.typeRx64 && decide (Config.hdrLen ≤ s.rxLen.toNat) &&
    decide (s.params.rxPayloadMax < s.rxLen.toNat - Config.hdrLen)

/-- State `Type` (R128, R129). -/
def takeType (b : Byte) (s : State) : State :=
  if s.admitsData b then admitFrame b s
  else skipFrame b ((s.raiseIf (s.tooShort b) .eShort).raiseIf (s.tooLong b) .eOversize)

/-- The pin (R131): with the eighth address byte, all nine writes at once, only where no peer is pinned. -/
def pinPeer (src : Addr) (s : State) : State := if s.peerValid then s else { s with peerAddr := src, peerValid := true }

/-- State `SourceAddr` (R130). -/
def takeSource (b : Byte) (s : State) : State :=
  let src := addrSet s.rxSrc s.rxCnt.toNat b
  let t := { s with rxSum := s.sumWith b, rxSrc := src }
  if s.rxCnt = 7 then { pinPeer src t with rxCnt := 0, rxState := .quality } else { t with rxCnt := s.rxCnt + 1 }

/-- State `Quality` (R132). -/
def takeQuality (b : Byte) (s : State) : State := { s with rxSum := s.sumWith b, rxQuality := b, rxState := .options }

/-- State `Options` (R133). -/
def takeOptions (b : Byte) (s : State) : State :=
  { s with
    rxSum := s.sumWith b
    rxOptions := b
    rxCnt := 0
    rxState := if s.rxPlen = 0 then .checksum else .payload }

/-- State `Payload` (R134). -/
def takePayload (b : Byte) (s : State) : State :=
  { s with
    rxSum := s.sumWith b
    rxBuf := s.rxBuf.write s.rxCnt.toNat b
    rxCnt := if s.rxCnt.toNat + 1 = s.rxPlen.toNat then 0 else s.rxCnt + 1
    rxState := if s.rxCnt.toNat + 1 = s.rxPlen.toNat then .checksum else .payload }

/-- The commit (R136): the assembly registers become the frame the host reads, all writes together. -/
def commit (b : Byte) (ok : Bool) (s : State) : State :=
  { s.raiseIf s.frNew .eOverrun with
    frPayload := Memory.copy s.rxBuf s.frPayload s.rxPlen.toNat
    frPlen := s.rxPlen
    frSrc := s.rxSrc
    frQuality := s.rxQuality
    frOptions := s.rxOptions
    frCk := b
    frCkOk := ok
    frSrcIsPeer := s.srcIsPeer
    frValid := true
    frNew := true }

/-- State `Checksum` (R135): verdict, `E_CKSUM`, commit if the policy accepts, back to `Idle`. -/
def takeChecksum (b : Byte) (s : State) : State :=
  let ok := s.cksumOk b
  let t := ({ s with rxCk := b } : State).raiseIf (!ok) .eCksum
  { (if s.policy ok then commit b ok t else t) with rxState := .idle, rxCnt := 0 }

/-- State `IgnoreUnknown` (R137). -/
def takeIgnored (s : State) : State :=
  if s.rxCnt = 1 then { s with rxCnt := 0, rxState := .idle } else { s with rxCnt := s.rxCnt - 1 }

/-- The state after pushing one byte: exactly one of the nine handlers, by `rx_state` before the step (R125). -/
def rxStep (b : Byte) (s : State) : State :=
  match s.rxState with
  | .idle => takeIdle b s
  | .length => takeLength b s
  | .type => takeType b s
  | .sourceAddr => takeSource b s
  | .quality => takeQuality b s
  | .options => takeOptions b s
  | .payload => takePayload b s
  | .checksum => takeChecksum b s
  | .ignoreUnknown => takeIgnored s

/-- Pushing the bytes of a string in order (R138). -/
def rxRun : Bytes → State → State
  | [], s => s
  | b :: bs, s => rxRun bs (rxStep b s)

/-- The OR of the `accept` bits of those pushes (R138). -/
def rxRunAccepts : Bytes → State → Bool
  | [], _ => false
  | b :: bs, s => s.pushAccept b || rxRunAccepts bs (rxStep b s)

/-- `RX_CHUNK(s)` as one operation (R138). -/
def chunk (bs : Bytes) (s : State) : State := (rxRun bs s).answer (.chunk (rxRunAccepts bs s))

/-- The step of one handler row: taken where the row is the one the byte selects in this state (R110), with the result
of the push; elsewhere the row is no step (assumption log 6). -/
def rowStep (row : Instr) (b : Byte) (t s : State) : State :=
  if decodeLine s.ctx b = row then t.answer (.push s.pushDone (s.pushAccept b)) else s.skip

/-! ## The byte handlers -/

/-- `RX.IDLE.DELIM` (R126). -/
def execRxIdleDelim (s : State) : Outcome State Fault Refusal :=
  .next (rowStep .rxIdleDelim Config.delim (openFrame s) s)

/-- `RX.IDLE.OTHER` (R126): the byte is discarded. -/
def execRxIdleOther (b : Byte) (s : State) : Outcome State Fault Refusal := .next (rowStep (.rxIdleOther b) b s s)

/-- `RX.LEN.HI` (R127). -/
def execRxLenHi (h : Byte) (s : State) : Outcome State Fault Refusal :=
  .next (rowStep (.rxLenHi h) h (takeLengthHigh h s) s)

/-- `RX.LEN.LO` (R127). -/
def execRxLenLo (l : Byte) (s : State) : Outcome State Fault Refusal :=
  .next (rowStep (.rxLenLo l) l (takeLengthLow l s) s)

/-- `RX.TYPE.DATA64` (R128). -/
def execRxTypeData64 (t : Byte) (s : State) : Outcome State Fault Refusal :=
  .next (rowStep (.rxTypeData64 t) t (admitFrame t s) s)

/-- `RX.TYPE.DATA64.SHORT` (R129, R270). -/
def execRxTypeData64Short (t : Byte) (s : State) : Outcome State Fault Refusal :=
  .next (rowStep (.rxTypeData64Short t) t (skipFrame t (s.raise .eShort)) s)

/-- `RX.TYPE.DATA64.OVERSIZE` (R129, R271). -/
def execRxTypeData64Oversize (t : Byte) (s : State) : Outcome State Fault Refusal :=
  .next (rowStep (.rxTypeData64Oversize t) t (skipFrame t (s.raise .eOversize)) s)

/-- `RX.TYPE.OTHER` (R129). -/
def execRxTypeOther (t : Byte) (s : State) : Outcome State Fault Refusal :=
  .next (rowStep (.rxTypeOther t) t (skipFrame t s) s)

/-- `RX.SRC` (R130, R131). -/
def execRxSrc (a : Byte) (s : State) : Outcome State Fault Refusal := .next (rowStep (.rxSrc a) a (takeSource a s) s)

/-- `RX.QUAL` (R132). -/
def execRxQual (q : Byte) (s : State) : Outcome State Fault Refusal := .next (rowStep (.rxQual q) q (takeQuality q s) s)

/-- `RX.OPT` (R133). -/
def execRxOpt (o : Byte) (s : State) : Outcome State Fault Refusal := .next (rowStep (.rxOpt o) o (takeOptions o s) s)

/-- `RX.PAYLOAD` (R134). -/
def execRxPayload (d : Byte) (s : State) : Outcome State Fault Refusal :=
  .next (rowStep (.rxPayload d) d (takePayload d s) s)

/-- `RX.CKSUM` (R135, R136). -/
def execRxCksum (c : Byte) (s : State) : Outcome State Fault Refusal :=
  .next (rowStep (.rxCksum c) c (takeChecksum c s) s)

/-- `RX.IGNORE` (R137): the byte is not stored, summed or examined. -/
def execRxIgnore (x : Byte) (s : State) : Outcome State Fault Refusal :=
  .next (rowStep (.rxIgnore x) x (takeIgnored s) s)

/-! ## The receive operations -/

/-- `RX_PUSH(b)` (R125): enabled in every state. -/
def execRxPush (b : Byte) (s : State) : Outcome State Fault Refusal :=
  .next ((rxStep b s).answer (.push s.pushDone (s.pushAccept b)))

/-- `RX_CHUNK(s)` (R138). -/
def execRxChunk (bs : Bytes) (s : State) : Outcome State Fault Refusal := .next (chunk bs s)

/-- `fr_new <- 0` (R139). -/
def ackFrame (s : State) : State := { s with frNew := false }

/-- `RX_ACK` (R139). -/
def execRxAck (s : State) : Outcome State Fault Refusal := .next ((ackFrame s).answer .none)

/-- The state after a read: the value in `result`, a fresh free value where the spec specifies none (R140, U10, U11). -/
def readInto (a : ReadAnswer) (s : State) : State :=
  match a with
  | .known v => s.answer (.value v)
  | .anyByte => s.drew.answer (.value (Config.unspecifiedByte s.draws).toNat)
  | .anyLen => s.drew.answer (.value (Config.unspecifiedLen s.draws).toNat)
  | .noSuch => s.reject

/-- `RX_READ(name, i)` (R140): changes no register of the block. -/
def execRxRead (name : ReadName) (idx : Nat) (s : State) : Outcome State Fault Refusal :=
  .next (readInto (s.readAnswer idx name) s)

/-- `RX_FRAME()`: the committed frame as one atomic read (R140). What it gives while `fr_valid` = 0 the spec leaves open:
R296 and U10 speak of `RX_READ` only. Here it gives the registers as they stand, 0 after a reset and no free value
(DESIGN CHOICE, unsafe; assumption log 11). -/
def rxFrame (s : State) : Half × Bytes × Addr × Byte × Byte × Bool × Bool :=
  (s.frPlen, s.frPayload.bytes s.frPlen.toNat, s.frSrc, s.frQuality, s.frOptions, s.frCkOk, s.frSrcIsPeer)

/-- `RXFRAME.DATA64` (R86, R145): the bytes of the frame are pushed in order, in whatever state the decoder is. -/
def execRxFrameData64 (src : Addr) (quality options : Byte) (payload : Bytes) (s : State) :
    Outcome State Fault Refusal :=
  .next (chunk (rxDataFrame s.params src quality options payload) s)

/-- `RXFRAME.OTHER` (R88, R146): the bytes of the frame are pushed in order. -/
def execRxFrameOther (t : Byte) (xs : Bytes) (s : State) : Outcome State Fault Refusal :=
  .next (chunk (rxOtherFrame t xs) s)

end Sys2Proof.Machine
end

