-- ==== Sys2Proof/Machine/System.lean ====
section
/-! DEFINITION. `RESET` and `CLR_STATUS` (`70_reset_and_hazards.md` R295, `60_exceptions.md` R287). -/

namespace Sys2Proof.Machine

open Host (Outcome)

/-- Every piece of state of the block takes its value of R56; what is not the block's (parameters, waiting steps, the
host's records, the model's counters) stays (R295, R297, R316; assumption log 23). -/
def resetBlock (s : State) : State :=
  { State.init s.params with
    telemetry := s.telemetry, inbox := s.inbox, draws := s.draws, raised := s.raised }

/-- `RESET` (R295). -/
def execReset (s : State) : Outcome State Fault Refusal := .next (resetBlock s)

/-- `CLR_STATUS(cmask, bmask)` (R287). -/
def execClrStatus (cmask bmask : Byte) (s : State) : Outcome State Fault Refusal :=
  .next ((s.clearStatus cmask bmask).answer .none)

end Sys2Proof.Machine
end

