-- ==== Sys2Proof/Machine/Transmit.lean ====
section
/-! DEFINITION. The transmit encoder (`41_encoder.md`). -/

namespace Sys2Proof.Machine

open Host (Outcome)

/-- A frame goes out whole (R161) and is the operation's result (R110). -/
def sendFrame (frame : Bytes) (s : State) : State := (s.emitTx frame).answer (.emitted frame)

/-- `(tx_fid + 1) mod 127` (R107 (f), R158). -/
def nextFid (f : Fid) : Fid := BitVec.ofNat 7 ((f.toNat + 1) % Config.fidMod)

/-- The effect of `TX_ENCODE` (R156): the tests in the order `E_FID`, `E_TXLEN`. -/
def encodeTo (dest : Addr) (fid : Byte) (payload : Bytes) (s : State) : State :=
  if Config.fidMod ≤ fid.toNat then s.refuse .eFid
  else if s.params.txPayloadMax < payload.length then s.refuse .eTxlen
  else sendFrame (encodeFrame s.params dest fid payload) s

/-- The effect of `TX_SEND` (R157, R158): the tests in the order `E_NOPEER`, `E_TXLEN`. -/
def sendToPeer (payload : Bytes) (s : State) : State :=
  if !s.peerValid then s.refuse .eNopeer
  else if s.params.txPayloadMax < payload.length then s.refuse .eTxlen
  else { sendFrame (encodeFrame s.params s.peerAddr (s.txFid.setWidth 8) payload) s with txFid := nextFid s.txFid }

/-- `TX_ENCODE(dest, fid, payload)` (R156). -/
def execTxEncode (dest : Addr) (fid : Byte) (payload : Bytes) (s : State) : Outcome State Fault Refusal :=
  .next (encodeTo dest fid payload s)

/-- `TX_SEND(payload)` (R157). -/
def execTxSend (payload : Bytes) (s : State) : Outcome State Fault Refusal := .next (sendToPeer payload s)

/-- `TXFRAME` (R87, R155): the frame with these fields is built and emitted, as the encoder does it (assumption log 16). -/
def execTxFrame (dest : Addr) (fid : Byte) (payload : Bytes) (s : State) : Outcome State Fault Refusal :=
  .next (encodeTo dest fid payload s)

end Sys2Proof.Machine
end

