-- ==== Sys2Proof/Machine/Telemetry.lean ====
section
/-! DEFINITION. The host's TelemetryChannel (`44_host_environment.md` R227 to R229) over the block's operations, and the
payload rows, which are its formats (`43_payload_formats.md`; assumption log 13). -/

namespace Sys2Proof.Machine

open Host (Outcome)

/-- The host reads its monotonic clock, which has moved on by a free value since it was last read. Which clock gives
"now" is not in the source (N45); the model has one clock for all that read it (assumption log 14). -/
def advanceClock (s : State) : State :=
  { s.drew with telemetry := { s.telemetry with clock := s.telemetry.clock + Config.clockStep s.draws } }

/-- Acceptance of a parsed payload (R227): the inbound fields are replaced, analog and digital values are copied into the
outgoing mirror (R215), `lastUpdate` is stamped with the current monotonic time (assumption log 14). -/
def acceptIncoming (st : Incoming) (s : State) : State :=
  { advanceClock s with
    telemetry :=
      { incoming := st
        outgoing := { analog := st.analog, digital := st.digital }
        lastUpdate := (advanceClock s).telemetry.clock
        clock := (advanceClock s).telemetry.clock } }

/-- The host takes the bytes of a payload (R208, R227): on `reject` it changes nothing. -/
def takeIncoming (bs : Bytes) (s : State) : State :=
  match parseIncoming s.params bs with
  | some st => (acceptIncoming st s).answer .accepted
  | none => s.answer .rejected

/-- `PollIncoming()` with the bytes available on the transport (R227). -/
def pollIncoming (bs : Bytes) (s : State) : State :=
  if rxRunAccepts bs s then
    takeIncoming ((rxRun bs s).frPayload.bytes (rxRun bs s).frPlen.toNat) (ackFrame (rxRun bs s))
  else chunk bs s

/-- The host changes the outgoing mirror, which is "independently mutable" (R215, R226). -/
def setMirror (t : Outgoing) (s : State) : State := { s with telemetry := { s.telemetry with outgoing := t } }

/-- `SendOutgoing()` (R228). -/
def sendOutgoing (s : State) : State := sendToPeer (buildOutgoing s.params s.telemetry.outgoing) s

/-- `PAYLOAD.IN` (R206, R208, R227): the host holds an accepted frame's payload with these fields. -/
def execPayloadIn (fieldTime flags r3 r4 : Byte) (analog digital : Bytes) (s : State) : Outcome State Fault Refusal :=
  .next (takeIncoming (payloadInBytes s.params fieldTime flags r3 r4 analog digital) s)

/-- `PAYLOAD.OUT` (R210, R211, R228): the host sends the outgoing payload with these fields to the peer, the bytes
unchanged, also where unused high bits of the last digital byte are not 0 (DESIGN CHOICE; assumption log 26). -/
def execPayloadOut (analog digital : Bytes) (s : State) : Outcome State Fault Refusal :=
  .next (sendToPeer (payloadOutBytes s.params analog digital) s)

end Sys2Proof.Machine
end

