-- ==== Sys2Proof/Machine/Dispatch.lean ====
section
/-! DEFINITION. The dispatch: one arm per instruction. -/

namespace Sys2Proof.Machine

open Host (Outcome)

def exec (i : Instr) (s : State) : Host.Outcome State Fault Refusal :=
  match i with
  | .rxIdleDelim => Sys2Proof.Machine.execRxIdleDelim s
  | .rxIdleOther b => Sys2Proof.Machine.execRxIdleOther b s
  | .rxLenHi h => Sys2Proof.Machine.execRxLenHi h s
  | .rxLenLo l => Sys2Proof.Machine.execRxLenLo l s
  | .rxTypeData64 t => Sys2Proof.Machine.execRxTypeData64 t s
  | .rxTypeData64Short t => Sys2Proof.Machine.execRxTypeData64Short t s
  | .rxTypeData64Oversize t => Sys2Proof.Machine.execRxTypeData64Oversize t s
  | .rxTypeOther t => Sys2Proof.Machine.execRxTypeOther t s
  | .rxSrc a => Sys2Proof.Machine.execRxSrc a s
  | .rxQual q => Sys2Proof.Machine.execRxQual q s
  | .rxOpt o => Sys2Proof.Machine.execRxOpt o s
  | .rxPayload d => Sys2Proof.Machine.execRxPayload d s
  | .rxCksum c => Sys2Proof.Machine.execRxCksum c s
  | .rxIgnore x => Sys2Proof.Machine.execRxIgnore x s
  | .rxFrameData64 src quality options payload => Sys2Proof.Machine.execRxFrameData64 src quality options payload s
  | .rxFrameOther t xs => Sys2Proof.Machine.execRxFrameOther t xs s
  | .txFrame dest fid payload => Sys2Proof.Machine.execTxFrame dest fid payload s
  | .motorRev g => Sys2Proof.Machine.execMotorRev g s
  | .motorFwd g => Sys2Proof.Machine.execMotorFwd g s
  | .motorBrk g => Sys2Proof.Machine.execMotorBrk g s
  | .payloadIn ft fl r3 r4 analog digital => Sys2Proof.Machine.execPayloadIn ft fl r3 r4 analog digital s
  | .payloadOut analog digital => Sys2Proof.Machine.execPayloadOut analog digital s
  | .reset => Sys2Proof.Machine.execReset s
  | .rxPush b => Sys2Proof.Machine.execRxPush b s
  | .rxChunk bs => Sys2Proof.Machine.execRxChunk bs s
  | .rxAck => Sys2Proof.Machine.execRxAck s
  | .rxRead name idx => Sys2Proof.Machine.execRxRead name idx s
  | .txEncode dest fid payload => Sys2Proof.Machine.execTxEncode dest fid payload s
  | .txSend payload => Sys2Proof.Machine.execTxSend payload s
  | .busRequest r batch timeoutMs cfg => Sys2Proof.Machine.execBusRequest r batch timeoutMs cfg s
  | .busGrant r => Sys2Proof.Machine.execBusGrant r s
  | .busXfer o => Sys2Proof.Machine.execBusXfer o s
  | .busComplete => Sys2Proof.Machine.execBusComplete s
  | .busExecute r batch timeoutMs cfg => Sys2Proof.Machine.execBusExecute r batch timeoutMs cfg s
  | .clrStatus cmask bmask => Sys2Proof.Machine.execClrStatus cmask bmask s

end Sys2Proof.Machine
end

