-- ==== Sys2Proof/Machine/Fetch.lean ====
section
/-! DEFINITION. Which instruction the next step runs: the block has no program (`10_state.md` R51), so a step takes the
next waiting event, finds the bytes it stands for, decodes them and runs the instruction (assumption log 2). -/

namespace Sys2Proof.Machine

open Host (Outcome)

/-- The bytes an event stands for, and the channel they arrive on. The device's answer belongs to the transaction the
arbiter issues next, whose bytes stand in space `BATCH` (R60, R179). -/
def eventCode (s : State) : Event → Code
  | .line b => ⟨.line, [b]⟩
  | .frame bs => ⟨.rxStream, bs⟩
  | .emit bs => ⟨.txStream, bs⟩
  | .payload bs => ⟨.payload, bs⟩
  | .device => ⟨.bus, s.currentTxn⟩
  | .op bs => ⟨.op, bs⟩

/-- What a step does with bytes that no row of the table matches. On the receive line every byte string is an input
(R104): it is a chunk. A transaction no motor row matches is issued unchanged (R105, R186): it is a `BUS_XFER` with the
device's answer drawn. A payload that parses as neither layout is rejected by the host (R208). Other bytes are no
operation (assumption log 19). -/
def runUnmatched (w : Code) (e : DecodeError) (s : State) : Outcome State Fault Refusal :=
  match w.chan with
  | .rxStream => exec (.rxChunk w.bytes) s
  | .bus => exec (.busXfer (deviceAnswer s.draws)) s.drew
  | .payload => .next (s.answer .rejected)
  | .line => .refused (.undecodable e)
  | .txStream => .refused (.undecodable e)
  | .op => .refused (.undecodable e)

/-- Run the instruction a code stands for. -/
def runCode (w : Code) (s : State) : Outcome State Fault Refusal :=
  match decode s.ctx w with
  | .ok i => exec i s
  | .error e => runUnmatched w e s

/-- The state with the first waiting event taken out. -/
def State.popInbox (s : State) : State := { s with inbox := s.inbox.tail }

/-- The next waiting event is taken out and run; with nothing waiting no agent moves and nothing changes
(assumption log 2). -/
def runNext (s : State) : Outcome State Fault Refusal :=
  match s.inbox with
  | [] => .next s
  | e :: _ => runCode (eventCode s e) s.popInbox

/-- The event a table code is when it waits in the inbox. -/
def codeEvent (w : Code) : Event :=
  match w.chan with
  | .line => .line (w.bytes.headD 0)
  | .rxStream => .frame w.bytes
  | .txStream => .emit w.bytes
  | .bus => .device
  | .payload => .payload w.bytes
  | .op => .op w.bytes

/-- A code placed so that the very next step runs it (assumption log 2, log 10): a byte of the line is taken in the
decoder's state after reset; a bus transaction is the one transaction of requester 0's batch, in an open window. -/
def placeCode (w : Code) (s : State) : State :=
  let t := { s with inbox := codeEvent w :: s.inbox }
  match w.chan with
  | .line => { t with rxState := .idle, rxCnt := 0, rxLen := 0 }
  | .bus => openWindow 0 (t.setReq 0 { t.req 0 with pending := true, batch := [w.bytes] })
  | .rxStream => t
  | .txStream => t
  | .payload => t
  | .op => t

end Sys2Proof.Machine
end

