-- ==== Sys2Proof/Machine/Step.lean ====
section
/-! DEFINITION. One step of the machine. -/

namespace Sys2Proof.Machine

/-- One step: the next waiting event of the total order of `20_memory.md` R75. -/
def step (s : State) : Host.Outcome State Fault Refusal := runNext s

/-- The state with a table word placed where the next step takes its instruction from (assumption log 2, log 10). -/
def State.withFetchWord (s : State) (nbits w : Nat) : State := placeCode (tableCode nbits w) s

end Sys2Proof.Machine
end

