-- ==== Sys2Proof/Machine/Supervisor.lean ====
section
/-! DEFINITION. The host's Supervisor (`44_host_environment.md` R234 to R242) over the block's operations: the contract the
block's host keeps, not hardware (`00_scope.md` R6); no step of the machine runs it (assumption log 21). -/

namespace Sys2Proof.Machine

/-! ## Actuators -/

/-- How an actuator reaches the bus: its requester port and the operands of its `BUS_EXECUTE` that are not its command
(R241). -/
structure BusPort where
  requester : Nat
  timeoutMs : Nat
  cfg : DeviceConfig
  deriving DecidableEq, Repr

/-- An actuator handle: `live` is its state of R240. -/
structure Actuator where
  live : Bool
  port : BusPort
  deriving DecidableEq, Repr

/-- `Kill()` on the handle's state: to `Killed`, whatever it was (R240). -/
def Actuator.kill (a : Actuator) : Actuator := { a with live := false }

/-- `Revive()`: to `Live`, but a no-op while the system-level `canMove` is false (R240). Whether it touches the bus is
inside the actuator (R241): in this model it does not, no `BUS_EXECUTE` is issued for it (DESIGN CHOICE, unsafe; assumption
log 21). -/
def Actuator.revive (canMove : Bool) (a : Actuator) : Actuator := if canMove then { a with live := true } else a

/-- A call the Supervisor makes on the actuator with this index in the registry (R234). -/
inductive ActuatorCall where
  | revive (idx : Nat)
  | write (idx : Nat)
  | kill (idx : Nat)
  deriving DecidableEq, Repr

/-- The motor mode a number stands for, modulo 3. -/
def modeOf (n : Nat) : MotorMode :=
  match n % 3 with
  | 0 => .reverse
  | 1 => .forward
  | _ => .brake

/-- The one transaction of a `Write()` or a `Kill()`: a motor command whose mode and magnitude are inside the actuator,
which the source excludes (R241, N36; assumption log 21). -/
def actuatorBytes (n : Nat) : Bytes :=
  motorCmd (modeOf (Config.actuatorCommand n).1) (Config.actuatorCommand n).2

/-- A `Write()` or a `Kill()` on the bus: one `BUS_EXECUTE` with a one-transaction batch (R241). -/
def actuate (a : BusPort) (s : State) : State :=
  executeBatch deviceAnswer a.requester [actuatorBytes s.draws] a.timeoutMs a.cfg s.drew

/-! ## The Supervisor -/

/-- `Snapshot()`: a copy of the committed inbound fields with their time stamp; no block operation (R226, R229). -/
def snapshot (s : State) : Incoming × Nat := (s.telemetry.incoming, s.telemetry.lastUpdate)

/-- What the Supervisor owns (R226, R234) and where it stands in the tick under way: its `BUS_EXECUTE`s block, so a tick may
have to wait for a grant (R312). -/
structure Supervisor where
  /-- the effective `canMove` of the latest tick, which is the previous one's for the tick after it -/
  prevCanMove : Bool
  /-- one indicator output (R236) -/
  indicatorBlue : Bool
  /-- the other indicator output (R236) -/
  indicatorOther : Bool
  /-- the ControlSnapshot of the latest tick -/
  snap : Incoming × Nat
  /-- the ActuatorRegistry, in insertion order (R242) -/
  registry : List Actuator
  /-- the actuators, by port and registry index, whose `Write()` or `Kill()` the tick under way has not had return; empty
  between ticks -/
  todo : List (BusPort × Nat)
  /-- the call on the first of them has been made and is blocked -/
  waiting : Bool
  /-- the calls the latest tick has made, in order -/
  calls : List ActuatorCall
  deriving DecidableEq, Repr

/-- The watchdog's effective `canMove` at time `now`: false once `now - lastUpdate` exceeds the window (R235). -/
def effectiveCanMove (p : Params) (now : Nat) (snap : Incoming × Nat) : Bool :=
  snap.1.canMove && !decide (p.heartbeatTimeoutMs < now - snap.2)

/-- The level-driven call of a tick on one actuator (R234, R238). -/
def levelCall (canMove : Bool) (idx : Nat) : ActuatorCall := if canMove then .write idx else .kill idx

/-- All calls of one tick: on the edge `Revive()` on every actuator, then `Write()` or `Kill()` on every actuator
(R234, R237, R238). -/
def tickCalls (prev canMove : Bool) (n : Nat) : List ActuatorCall :=
  (if !prev && canMove then (List.range n).map .revive else []) ++ (List.range n).map (levelCall canMove)

/-- The calls the tick under way has still to make. -/
def Supervisor.owed (sup : Supervisor) : List ActuatorCall :=
  (if sup.waiting then sup.todo.tail else sup.todo).map fun a => levelCall sup.prevCanMove a.2

/-- Steps 3 to 5 of a tick (R234), from its snapshot and the time: watchdog, indicators, revive on the edge. No block
operation is among them (R236, assumption log 21). -/
def decideTick (p : Params) (now : Nat) (snap : Incoming × Nat) (sup : Supervisor) : Supervisor :=
  let canMove := effectiveCanMove p now snap
  let edge := !sup.prevCanMove && canMove
  { prevCanMove := canMove
    indicatorBlue := snap.1.isBlue
    indicatorOther := !snap.1.isBlue
    snap := snap
    registry := if edge then sup.registry.map (Actuator.revive canMove) else sup.registry
    todo := (sup.registry.map Actuator.port).zipIdx
    waiting := false
    calls := if edge then (List.range sup.registry.length).map .revive else [] }

/-- Steps 1 to 5 of a tick with nothing in between (R229, R234). -/
def beginTick (now : Nat) (sup : Supervisor) (s : State) : Supervisor := decideTick s.params now (snapshot s) sup

/-- The level-driven call on actuator `idx` is made: it is noted, and a `Kill()` leaves the handle `Killed` (R240). -/
def Supervisor.called (idx : Nat) (sup : Supervisor) : Supervisor :=
  { sup with
    calls := sup.calls ++ [levelCall sup.prevCanMove idx]
    registry := if sup.prevCanMove then sup.registry else sup.registry.modify idx Actuator.kill }

/-- Step 6 of a tick (R234): the level-driven calls in registry order from one caller context (R238). A call that blocks
stops the tick until its request is served (R312); the outcome of a call that returns is discarded (R243). Where the
requester still has a request pending, no call is made: the Supervisor keeps R249 (e). -/
def issueCalls : List (BusPort × Nat) → Supervisor → State → Supervisor × State
  | [], sup, s => ({ sup with todo := [], waiting := false }, s)
  | (a, idx) :: as, sup, s =>
    if (s.req a.requester).pending then ({ sup with todo := (a, idx) :: as, waiting := false }, s)
    else if (actuate a s).result = .blocked then
      ({ sup.called idx with todo := (a, idx) :: as, waiting := true }, actuate a s)
    else issueCalls as (sup.called idx) (actuate a s)

/-- The tick under way goes on: a blocked call returns when the arbiter has written its result (`req[r].done`, R45, R180);
until then the Supervisor does nothing at all (R312), after a `RESET` for ever (R297). -/
def continueTick (sup : Supervisor) (s : State) : Supervisor × State :=
  match sup.waiting, sup.todo with
  | true, (a, _) :: as => if (s.req a.requester).done then issueCalls as sup s else (sup, s)
  | _, todo => issueCalls todo sup s

/-- `SupervisorTick()` (R234): a new tick begins where none is under way, else the one under way goes on. Which clock gives
`now` is not in the source (N45), so `now` is any number here, not tied to the clock that stamps `lastUpdate`; the
host's loop (`runTask`) gives it that clock (DESIGN CHOICE; assumption log 14). -/
def supervisorTick (now : Nat) (sup : Supervisor) (s : State) : Supervisor × State :=
  if sup.todo = [] then continueTick (beginTick now sup s) s else continueTick sup s

end Sys2Proof.Machine
end

