-- ==== Sys2Proof/Machine/Host.lean ====
section
/-! DEFINITION. The host's five tasks (`44_host_environment.md` R231 to R233, R239) over the block and the host's records:
the contract the block's host keeps, not hardware (`00_scope.md` R6); no step of the machine runs it (assumption log 21). -/

namespace Sys2Proof.Machine

/-- The five tasks (R231). -/
inductive Task where
  | operator | autonomous | poll | telemetry | supervisor
  deriving DecidableEq, Repr

/-- Whether a task's guard lets it act on a committed snapshot (R231, R239). -/
def taskGuard (snap : Incoming) : Task → Bool
  | .operator => !snap.isAutonomous
  | .autonomous => snap.isAutonomous
  | .poll => true
  | .telemetry => true
  | .supervisor => true

/-- The fixed period of a task in milliseconds; the others are tight loops (R231's table, and R12, which lists two
periods). `70_reset_and_hazards.md` R318 speaks of a receive poll of 75 ms and a supervisor period of 100 ms, and no ruling
of the spec settles the difference: the model follows R231 and R12 (DESIGN CHOICE; assumption log 25). -/
def taskPeriod (p : Params) : Task → Option Nat
  | .operator => some p.operatorPeriodMs
  | .telemetry => some p.telemetryPeriodMs
  | .autonomous => none
  | .poll => none
  | .supervisor => none

/-! ## The threads -/

/-- Where PollTask stands in its iteration (R227). -/
inductive PollAt where
  /-- between iterations -/
  | idle
  /-- inside `RX_CHUNK`: the bytes still to push, and the OR of the `accept` bits so far (R138) -/
  | pushing (rest : Bytes) (accepted : Bool)
  /-- the accepted payload is read, `RX_ACK` is next -/
  | acking (payload : Bytes)
  /-- the payload is to be parsed and committed under the lock -/
  | committing (payload : Bytes)
  deriving DecidableEq, Repr

/-- Where each thread stands: one place for each task, so no task runs twice at a time (R232, R233). -/
structure Threads where
  /-- OperatorTask's guard held, its callback is next -/
  operator : Bool
  /-- AutonomousTask's guard held, its callback is next -/
  autonomous : Bool
  poll : PollAt
  /-- TelemetryTask has copied the outgoing mirror and is to send it -/
  telemetry : Option Outgoing
  /-- SupervisorTick has taken its snapshot and is to decide; what it has still to call is in `Supervisor.todo` -/
  supervisor : Option (Incoming × Nat)
  deriving DecidableEq, Repr

/-- Every thread between iterations. -/
def Threads.idle : Threads :=
  { operator := false, autonomous := false, poll := .idle, telemetry := none, supervisor := none }

/-- The host with the block it drives: the machine with TelemetryChannel in it, the Supervisor, the external callbacks
invoked so far, which set only actuators' desired state, inside the actuators (R239, R246; assumption log 21), and where
each thread stands. -/
structure HostSystem where
  machine : State
  sup : Supervisor
  callbacks : List Task
  threads : Threads
  deriving DecidableEq, Repr

/-- Invoke the external callback of a task (R246). -/
def HostSystem.invoke (t : Task) (h : HostSystem) : HostSystem := { h with callbacks := h.callbacks ++ [t] }

/-! ## Moves: threads interleave between single operations (R75, R233) -/

/-- The state after one operation of the block (every operation completes, R265). -/
def perform (i : Instr) (s : State) : State :=
  match exec i s with
  | .next t => t
  | .fault _ => s
  | .refused _ => s

/-- The next move of PollTask (R227): one byte pushed, or the frame read, or `RX_ACK`, or the commit under the lock. An
iteration takes the bytes available when it begins. -/
def HostSystem.movePoll (avail : Bytes) (h : HostSystem) : HostSystem :=
  match h.threads.poll with
  | .idle => { h with threads := { h.threads with poll := .pushing avail false } }
  | .pushing (b :: bs) accepted =>
    let s := perform (.rxPush b) h.machine
    { h with machine := s, threads := { h.threads with poll := .pushing bs (accepted || s.result.accepts) } }
  | .pushing [] false => { h with threads := { h.threads with poll := .idle } }
  | .pushing [] true =>
    let payload := h.machine.frPayload.bytes h.machine.frPlen.toNat
    { h with threads := { h.threads with poll := .acking payload } }
  | .acking payload =>
    { h with machine := perform .rxAck h.machine, threads := { h.threads with poll := .committing payload } }
  | .committing payload =>
    { h with machine := takeIncoming payload h.machine, threads := { h.threads with poll := .idle } }

/-- The next move of TelemetryTask (R228): the copy under the lock, or `TX_SEND`. -/
def HostSystem.moveTelemetry (h : HostSystem) : HostSystem :=
  match h.threads.telemetry with
  | none => { h with threads := { h.threads with telemetry := some h.machine.telemetry.outgoing } }
  | some t =>
    { h with
      machine := perform (.txSend (buildOutgoing h.machine.params t)) h.machine
      threads := { h.threads with telemetry := none } }

/-- The next move of a tick whose calls are under way: the `BUS_REQUEST` of its next call (R181, R241), or, once that
request is served, its return. It does nothing while the request waits (R312), nor before the call while its requester has
a request pending (R249 (e)). -/
def moveCall (sup : Supervisor) (s : State) : Supervisor × State :=
  match sup.todo with
  | [] => (sup, s)
  | (a, idx) :: as =>
    if sup.waiting then
      if (s.req a.requester).done then ({ sup with todo := as, waiting := false }, s) else (sup, s)
    else if (s.req a.requester).pending then (sup, s)
    else
      ((if s.requestOk a.requester [actuatorBytes s.draws] then { sup.called idx with waiting := true }
        else { sup.called idx with todo := as }),
        perform (.busRequest a.requester [actuatorBytes s.draws] a.timeoutMs a.cfg) s.drew)

/-- The next move of SupervisorTick (R234): the snapshot under the lock, or the decision at the time the host's clock then
shows (assumption log 14), or a move of its calls. -/
def HostSystem.moveSupervisor (h : HostSystem) : HostSystem :=
  match h.sup.todo, h.threads.supervisor with
  | [], none => { h with threads := { h.threads with supervisor := some (snapshot h.machine) } }
  | [], some snap =>
    let s := advanceClock h.machine
    { h with
      machine := s
      sup := decideTick s.params s.telemetry.clock snap h.sup
      threads := { h.threads with supervisor := none } }
  | _ :: _, _ => { h with sup := (moveCall h.sup h.machine).1, machine := (moveCall h.sup h.machine).2 }

/-- The next move of OperatorTask: its own read of the latest committed record for its guard, or its callback (R239,
R246). -/
def HostSystem.moveOperator (h : HostSystem) : HostSystem :=
  if h.threads.operator then { h.invoke .operator with threads := { h.threads with operator := false } }
  else { h with threads := { h.threads with operator := taskGuard h.machine.telemetry.incoming .operator } }

/-- The next move of AutonomousTask, as OperatorTask's. -/
def HostSystem.moveAutonomous (h : HostSystem) : HostSystem :=
  if h.threads.autonomous then { h.invoke .autonomous with threads := { h.threads with autonomous := false } }
  else { h with threads := { h.threads with autonomous := taskGuard h.machine.telemetry.incoming .autonomous } }

/-- One move: of a task's thread (with what has arrived on the transport, for a poll that begins), or an operation of the
block that an agent other than the five tasks issues. -/
inductive HostMove where
  | task (t : Task) (avail : Bytes)
  | block (i : Instr)
  deriving DecidableEq, Repr

/-- PollTask is inside its `RX_CHUNK`. -/
def PollAt.inChunk : PollAt → Bool
  | .pushing _ _ => true
  | .idle => false
  | .acking _ => false
  | .committing _ => false

/-- Requester `r` is none of the Supervisor's own, whose requests only its tick makes (`20_memory.md` R78, R238, R241). -/
def HostSystem.otherRequester (h : HostSystem) (r : Nat) : Bool := h.sup.registry.all fun a => a.port.requester != r

/-- What an agent other than the five tasks may issue (`20_memory.md` R78, `60_exceptions.md` R284): the arbiter its steps,
another requester its request, anyone a read or `CLR_STATUS`, the host at large `RESET`, which it never issues while a
requester is pending or a chunk is being pushed (`70_reset_and_hazards.md` R298 (e)). Bytes are pushed and `RX_ACK` is
issued by PollTask alone, frames are sent by TelemetryTask alone, and PollTask is the sole writer of TelemetryChannel's
committed state (R230, R232, R249 (b), (d)). -/
def HostSystem.admits (h : HostSystem) (i : Instr) : Bool :=
  match i with
  | .rxIdleDelim => false
  | .rxIdleOther _ => false
  | .rxLenHi _ => false
  | .rxLenLo _ => false
  | .rxTypeData64 _ => false
  | .rxTypeData64Short _ => false
  | .rxTypeData64Oversize _ => false
  | .rxTypeOther _ => false
  | .rxSrc _ => false
  | .rxQual _ => false
  | .rxOpt _ => false
  | .rxPayload _ => false
  | .rxCksum _ => false
  | .rxIgnore _ => false
  | .rxFrameData64 _ _ _ _ => false
  | .rxFrameOther _ _ => false
  | .txFrame _ _ _ => false
  | .motorRev _ => true
  | .motorFwd _ => true
  | .motorBrk _ => true
  | .payloadIn _ _ _ _ _ _ => false
  | .payloadOut _ _ => false
  | .reset => h.machine.nonePending && !h.threads.poll.inChunk
  | .rxPush _ => false
  | .rxChunk _ => false
  | .rxAck => false
  | .rxRead _ _ => true
  | .txEncode _ _ _ => false
  | .txSend _ => false
  | .busRequest r _ _ _ => h.otherRequester r
  | .busGrant _ => true
  | .busXfer _ => true
  | .busComplete => true
  | .busExecute r _ _ _ => h.otherRequester r
  | .clrStatus _ _ => true

/-- A move is at most one operation of the block, or one copy under the state lock, which is not held across it (R75,
R230). An operation that no agent outside the tasks issues is no move. -/
def hostMove (m : HostMove) (h : HostSystem) : HostSystem :=
  match m with
  | .task .operator _ => h.moveOperator
  | .task .autonomous _ => h.moveAutonomous
  | .task .poll avail => h.movePoll avail
  | .task .telemetry _ => h.moveTelemetry
  | .task .supervisor _ => h.moveSupervisor
  | .block i => if h.admits i then { h with machine := perform i h.machine } else h

/-- A run of the host: moves of independent threads in any order, so that any operation of another thread may fall between
two moves of an iteration, as under true multicore (R75, R233). Who moves next is not determined: every list is a run. -/
def runMoves (ms : List HostMove) (h : HostSystem) : HostSystem := ms.foldl (fun h m => hostMove m h) h

/-! ## Whole iterations -/

/-- The Supervisor's iteration, at the time the host's clock shows (R234; assumption log 14). -/
def HostSystem.superviseAt (s : State) (h : HostSystem) : HostSystem :=
  { h with
    sup := (supervisorTick s.telemetry.clock h.sup s).1
    machine := (supervisorTick s.telemetry.clock h.sup s).2 }

/-- A task's action (R231); `avail` is what has arrived on the transport since the last poll. -/
def taskAction (avail : Bytes) (h : HostSystem) : Task → HostSystem
  | .operator => h.invoke .operator
  | .autonomous => h.invoke .autonomous
  | .poll => { h with machine := pollIncoming avail h.machine }
  | .telemetry => { h with machine := sendOutgoing h.machine }
  | .supervisor => h.superviseAt (advanceClock h.machine)

/-- A task's thread is between iterations, so that its task may begin one: no task runs twice at a time (R232, R233). The
Supervisor's tick that waits for the bus is one under way, and its next iteration here goes on with it (R312). -/
def Threads.between (th : Threads) : Task → Bool
  | .operator => !th.operator
  | .autonomous => !th.autonomous
  | .poll => th.poll == .idle
  | .telemetry => th.telemetry.isNone
  | .supervisor => th.supervisor.isNone

/-- One iteration of a task with no other thread's operation inside it: its action where its thread is between iterations
and its guard holds of the latest committed record (R231, R232, R239). Only a tick that waits for the bus lasts over
several (R312). -/
def runTask (avail : Bytes) (t : Task) (h : HostSystem) : HostSystem :=
  if h.threads.between t && taskGuard h.machine.telemetry.incoming t then taskAction avail h t else h

/-- Whole iterations of tasks in some order, each with the bytes that have arrived for it. These are only the runs in which
no iteration is cut by another thread; the threads of R233 may cut one anywhere, and `runMoves` has those runs too. -/
def runTasks (ts : List (Task × Bytes)) (h : HostSystem) : HostSystem := ts.foldl (fun h t => runTask t.2 t.1 h) h

end Sys2Proof.Machine
end

