-- ==== Sys2Proof/Safety.lean ====
section
/-! DEFINITION. What holds of every reachable state: the invariants of `10_state.md` R55 with the facts they rest on, and
the trace property of the bus (`42_bus_arbiter.md` R191); who writes what (`20_memory.md` R78); and what the host owes the
block, as premises on a run (`44_host_environment.md` R249). -/

namespace Sys2Proof.Machine

/-- The decoder is past a data frame's type byte (R55 (e)). -/
def State.inDataFrame (s : State) : Prop :=
  s.rxState = .sourceAddr ∨ s.rxState = .quality ∨ s.rxState = .options ∨ s.rxState = .payload ∨ s.rxState = .checksum

/-- The decoder is past a data frame's source address (R55 (f)). -/
def State.pastSource (s : State) : Prop :=
  s.rxState = .quality ∨ s.rxState = .options ∨ s.rxState = .payload ∨ s.rxState = .checksum

/-- The invariants of the codec (R55 (a) to (h), (j); R28, R37, R38, R60, R142). -/
structure State.CodecInv (s : State) : Prop where
  /-- R55 (a) -/
  fid : s.txFid.toNat ≤ 126
  /-- R55 (b) -/
  payloadCnt : s.rxState = .payload → s.rxCnt.toNat < s.rxPlen.toNat
  /-- R55 (c) -/
  sourceCnt : s.rxState = .sourceAddr → s.rxCnt.toNat ≤ 7
  /-- R55 (d) -/
  ignoreCnt : s.rxState = .ignoreUnknown → 1 ≤ s.rxCnt.toNat
  /-- R28, R142: in `Length` the counter is 0 or 1 and the low length byte is not yet there -/
  lengthCnt : s.rxState = .length → (s.rxCnt = 0 ∧ s.rxLen = 0) ∨ (s.rxCnt = 1 ∧ s.rxLen.toNat % 256 = 0)
  /-- R28, R142: in the states of one byte the counter is 0 -/
  zeroCnt : (s.rxState = .idle ∨ s.rxState = .type ∨ s.rxState = .quality ∨ s.rxState = .options ∨
    s.rxState = .checksum) → s.rxCnt = 0
  /-- R55 (e) -/
  lens : s.inDataFrame → s.rxLen.toNat = s.rxPlen.toNat + Config.hdrLen ∧ s.rxPlen.toNat ≤ s.params.rxPayloadMax
  /-- R55 (f) -/
  pinned : s.pastSource → s.peerValid = true
  /-- R55 (g) -/
  newHeld : s.frValid = false → s.frNew = false
  /-- R55 (h) -/
  heldPinned : s.frValid = true → s.peerValid = true
  /-- R37: the committed payload fits its buffer -/
  frLen : s.frPlen.toNat ≤ s.params.rxPayloadMax
  /-- R38: a committed frame's checksum matched unless the policy does not enforce it -/
  enforced : s.params.cksumEnforce = true → s.frValid = true → s.frCkOk = true
  /-- R55 (j), first half -/
  codecReserved : s.codecStatus &&& 0x80 = 0
  /-- the space `RXA` is canonical and holds indices below `RX_PAYLOAD_MAX` only (R60, R61) -/
  rxBufWf : s.rxBuf.wf ∧ ∀ c ∈ s.rxBuf, c.1 < s.params.rxPayloadMax
  /-- the space `RXF` is canonical and holds indices below `RX_PAYLOAD_MAX` only (R60, R61) -/
  frPayloadWf : s.frPayload.wf ∧ ∀ c ∈ s.frPayload, c.1 < s.params.rxPayloadMax

/-- The invariants of the arbiter (R55 (i), (j); R42, R44, R45). -/
structure State.BusInv (s : State) : Prop where
  /-- the requesters' registers are canonical -/
  reqsWf : ReqFile.wf s.reqs
  /-- R44: only an existing requester has a request pending, and the request keeps its limits -/
  pendingOk : ∀ r, (s.req r).pending = true → r < s.params.nReq ∧ batchOk s.params (s.req r).batch = true
  /-- R45: the count of a result is at most `BATCH_MAX` -/
  nDoneLe : ∀ r, (s.req r).nDone ≤ s.params.batchMax
  /-- R55 (i) -/
  busy : s.busBusy = true →
    (s.req s.busOwner).pending = true ∧ s.busCfgValid = true ∧ s.busIdx ≤ s.ownerBatch.length
  /-- R179: a transfer that failed was one of the batch -/
  failed : s.busBusy = true → s.busFail = true → s.busIdx < s.ownerBatch.length
  /-- R42, R43: the configuration in force is the owner's -/
  cfgOwners : s.busBusy = true → s.busCfg = (s.req s.busOwner).cfg
  /-- R55 (j), second half -/
  busReserved : s.busStatus &&& 0xFE = 0

/-- The facts of the host's records: their sequences have the fixed sizes `N_ANALOG` and `N_DIGITAL` (R211, R226), and the
stamp of the latest acceptance is not ahead of the clock (R227; assumption log 14). -/
structure State.HostInv (s : State) : Prop where
  incomingAnalog : s.telemetry.incoming.analog.length = s.params.nAnalog
  incomingDigital : s.telemetry.incoming.digital.length = s.params.nDigital
  outgoingAnalog : s.telemetry.outgoing.analog.length = s.params.nAnalog
  outgoingDigital : s.telemetry.outgoing.digital.length = s.params.nDigital
  stamp : s.telemetry.lastUpdate ≤ s.telemetry.clock

/-- The invariant of the machine: R55 in full, under parameters that keep rules R11 and R13, with the facts of the host's
records. -/
structure State.Inv (s : State) : Prop where
  params : s.params.ok
  codec : s.CodecInv
  bus : s.BusInv
  host : s.HostInv

/-- What a window has put on the bus once `n` of its transactions were acknowledged, with the failed one after them if
`failed` (R179, R191). -/
def windowRecords (w : Window) (n : Nat) (failed : Bool) : List BusRec :=
  (w.batch.take n).map (fun b => ⟨w.cfg.devAddr, w.cfg.clkRate, b, .ack⟩) ++
    (if failed then ((w.batch.drop n).take 1).map (fun b => ⟨w.cfg.devAddr, w.cfg.clkRate, b, .fail⟩) else [])

/-- A closed window: its whole batch was acknowledged, or the transaction after the acknowledged ones failed (R180, R191). -/
def closedWindow (c : Window × Nat × Bool) : Prop :=
  if c.2.2 then c.2.1 < c.1.batch.length else c.2.1 = c.1.batch.length

/-- The records of closed windows in grant order (R191). -/
def closedRecords (cs : List (Window × Nat × Bool)) : List BusRec := cs.flatMap fun c => windowRecords c.1 c.2.1 c.2.2

/-- The window that is open: what the grant took from the owner's request (R177). -/
def State.openedWindow (s : State) : Window := ⟨s.busOwner, s.ownerBatch, s.busCfg⟩

/-- The trace property (R191): `bus_out` is the concatenation of one segment per grant, in grant order, each a prefix of
its batch with its configuration, all acknowledged but possibly the last; the open window's segment is the last one. -/
def State.TraceInv (s : State) : Prop :=
  ∃ cs : List (Window × Nat × Bool),
    (∀ c ∈ cs, closedWindow c) ∧
    if s.busBusy then
      s.windows = cs.map Prod.fst ++ [s.openedWindow] ∧
      s.busOut = closedRecords cs ++ windowRecords s.openedWindow s.busIdx s.busFail
    else s.windows = cs.map Prod.fst ∧ s.busOut = closedRecords cs

/-- Who issues an instruction, by the writers' table of `20_memory.md` R78. -/
inductive Writer where
  /-- the receive line and what pushes bytes: `RX_PUSH`, its handlers, `RX_CHUNK`, receive frames -/
  | receive
  /-- `RX_ACK` -/
  | acknowledge
  /-- `TX_ENCODE`, `TX_SEND`, transmit frames, outgoing payloads -/
  | transmit
  /-- `CLR_STATUS` -/
  | clear
  /-- `BUS_REQUEST` by requester `r` -/
  | request (r : Nat)
  /-- the arbiter's steps, the motor transactions among them -/
  | arbiter
  /-- `BUS_EXECUTE` by requester `r`: its request and the arbiter's steps -/
  | execute (r : Nat)
  /-- the host, on its own records -/
  | telemetry
  /-- `RX_READ` -/
  | reader
  /-- `RESET` -/
  | resetter
  deriving DecidableEq, Repr

/-- The writer of each instruction (R78). -/
def writerOf : Instr → Writer
  | .rxIdleDelim => .receive
  | .rxIdleOther _ => .receive
  | .rxLenHi _ => .receive
  | .rxLenLo _ => .receive
  | .rxTypeData64 _ => .receive
  | .rxTypeData64Short _ => .receive
  | .rxTypeData64Oversize _ => .receive
  | .rxTypeOther _ => .receive
  | .rxSrc _ => .receive
  | .rxQual _ => .receive
  | .rxOpt _ => .receive
  | .rxPayload _ => .receive
  | .rxCksum _ => .receive
  | .rxIgnore _ => .receive
  | .rxFrameData64 _ _ _ _ => .receive
  | .rxFrameOther _ _ => .receive
  | .txFrame _ _ _ => .transmit
  | .motorRev _ => .arbiter
  | .motorFwd _ => .arbiter
  | .motorBrk _ => .arbiter
  | .payloadIn _ _ _ _ _ _ => .telemetry
  | .payloadOut _ _ => .transmit
  | .reset => .resetter
  | .rxPush _ => .receive
  | .rxChunk _ => .receive
  | .rxAck => .acknowledge
  | .rxRead _ _ => .reader
  | .txEncode _ _ _ => .transmit
  | .txSend _ => .transmit
  | .busRequest r _ _ _ => .request r
  | .busGrant _ => .arbiter
  | .busXfer _ => .arbiter
  | .busComplete => .arbiter
  | .busExecute r _ _ _ => .execute r
  | .clrStatus _ _ => .clear

/-- Two states that differ at most in the two status registers (R52, R265). -/
def State.withStatus (s : State) (c b : Byte) : State := { s with codecStatus := c, busStatus := b }

/-- What a run gives that answers every instruction of a list in turn: the block's operations as a trace (R111, R320). -/
def runInstrs : List Instr → State → Option State
  | [], s => some s
  | i :: is, s =>
    match exec i s with
    | .next t => runInstrs is t
    | .fault _ => none
    | .refused _ => none

/-! ## What the host owes the block -/

/-- The instruction the next step runs when it takes this event; none where its bytes are no operation. -/
def eventInstr (s : State) (e : Event) : Option Instr :=
  match decode s.ctx (eventCode s e), e with
  | .ok i, _ => some i
  | .error _, .frame bs => some (.rxChunk bs)
  | .error _, .device => some (.busXfer (deviceAnswer s.draws))
  | .error _, _ => none

/-- The bytes of the receive line that an event pushes (R125, R138). -/
def pushedBytes : Event → Bytes
  | .line b => [b]
  | .frame bs => bs
  | .op bs =>
    match decodeOp bs with
    | .ok (.rxPush b) => [b]
    | .ok (.rxChunk cs) => cs
    | _ => []
  | .emit _ => []
  | .payload _ => []
  | .device => []

/-- The payload an instruction hands to the encoder. -/
def sentPayload (p : Params) : Instr → Option Bytes
  | .txEncode _ _ payload => some payload
  | .txSend payload => some payload
  | .txFrame _ _ payload => some payload
  | .payloadOut analog digital => some (payloadOutBytes p analog digital)
  | _ => none

/-- The requester and the batch of an instruction that makes a request. -/
def requestedBatch : Instr → Option (Nat × List Bytes)
  | .busRequest r batch _ _ => some (r, batch)
  | .busExecute r batch _ _ => some (r, batch)
  | _ => none

/-- What the host owes the block when it issues one instruction (`44_host_environment.md` R249). `wants s` are the `fr_*`
registers, with index, that the host wants of the frame the block holds in `s`; none where it does not want the frame. -/
structure State.KeepsDuties (s : State) (wants : State → List (ReadName × Nat)) (i : Instr) : Prop where
  /-- R249 (c): bytes are pushed over an unacknowledged frame only where the host does not want it -/
  acknowledged : writerOf i = .receive → s.frNew = true → wants s = []
  /-- R249 (e): a requester makes no request while one of its own is pending -/
  oneRequest : ∀ r batch, requestedBatch i = some (r, batch) → (s.req r).pending = false
  /-- R249 (f), payloads -/
  payloadFits : ∀ payload, sentPayload s.params i = some payload → payload.length ≤ s.params.txPayloadMax
  /-- R249 (f), batches -/
  batchFits : ∀ r batch, requestedBatch i = some (r, batch) → batchOk s.params batch = true
  /-- `70_reset_and_hazards.md` R298 (e): no `RESET` while a requester is pending -/
  quietReset : i = .reset → ∀ r, (s.req r).pending = false

/-- On the run from `s`, step number `n` is taken in state `t` and runs `i`. -/
def StepRuns (s : State) (n : Nat) (t : State) (i : Instr) : Prop :=
  Sys2Proof.core.run n s = .next t ∧ ∃ (e : Event) (rest : List Event), t.inbox = e :: rest ∧ eventInstr t e = some i

/-- The host reads what it wants of a frame before it pushes more bytes (R249 (c)): between a push or chunk, step `m`, that
returned 1 and the next step `n` that pushes bytes, it issues an `RX_READ` of every `fr_*` register it wants. A byte pushed
by itself is a chunk of one byte (assumption log 15). -/
def ReadsBeforePushing (wants : State → List (ReadName × Nat)) (s : State) : Prop :=
  ∀ (m n : Nat) (u v t : State) (i j : Instr),
    StepRuns s m u i → writerOf i = .receive → exec i u.popInbox = .next v → v.result.accepts = true →
    StepRuns s n t j → writerOf j = .receive → m < n →
    (∀ k w l, m < k → k < n → StepRuns s k w l → writerOf l ≠ .receive) →
    ∀ x ∈ wants v, ∃ k w, m < k ∧ k < n ∧ StepRuns s k w (.rxRead x.1 x.2)

/-- The premises R249 puts on a run from `s`, whose steps to come are `s.inbox`, while the bytes of `arriving` arrive on the
transport. "One agent at a time" in (b) and (d) holds of every run of the model, whose steps are whole operations in one
order (R75, R232). A claim that needs the host to behave takes this as a hypothesis; the block's own rules rely on none of it
(R225). -/
structure HostDuties (wants : State → List (ReadName × Nat)) (arriving : Bytes) (s : State) : Prop where
  /-- (a): a `RESET` came before anything else (R298) -/
  afterReset : ∃ s₀ : State, exec .reset s₀ = .next s
  /-- (b): the bytes are pushed in arrival order -/
  inOrder : s.inbox.flatMap pushedBytes <+: arriving
  /-- (c): a wanted frame is read before more bytes are pushed; that it is acknowledged before them is in `eachStep` -/
  readFirst : ReadsBeforePushing wants s
  /-- (c), (e), (f) at every step of the run -/
  eachStep : ∀ (n : Nat) (t : State) (i : Instr), StepRuns s n t i → t.KeepsDuties wants i

end Sys2Proof.Machine
end

