-- ==== Sys2Proof/Certificates/Slice0/Obligations.lean ====
section
/-! DEFINITION. The statements for the provers. -/

open Sys2Proof Sys2Proof.Machine

/-! ## Encoding and decoding -/

/-- Decoding the encoding of a well-formed instruction gives it back, in every decoder state its row asks for, with every
operand value its encoding admits. Headline; the byte form of the operations is the model's choice (assumption log 9). -/
def Obligations.DecodeOfEncodeIsTheInstruction : Prop :=
  ∀ (c : DecodeCtx) (i : Instr), c.params.ok → wellFormed c.params i = true → admits c i = true →
    decode c (encode c.params i) = .ok i

/-- The other direction: what the decoder accepts is well formed, is the row the decoder's registers ask for, and, on
every channel but the payload's (where R207 ignores extra bytes), encodes to exactly the bytes it was read from. On the
channel of the operations these bytes are the model's own form (its choice, assumption log 9). -/
def Obligations.EncodeOfDecodeIsTheBytes : Prop :=
  ∀ (c : DecodeCtx) (w : Code) (i : Instr), decode c w = .ok i →
    wellFormed c.params i = true ∧ admits c i = true ∧ (w.chan ≠ .payload → encode c.params i = w)

/-- A few words decode to the instructions they stand for (vector-local parameter values of `95_test_vectors.md`). The first
seven are written out from the spec's encodings; the last, the operation `0C 40 00`, has none (R110): its byte form is the
model's choice (assumption log 9). -/
def Obligations.WrittenWordsDecode : Prop :=
  let c : DecodeCtx := { params := Params.vectors, rxState := .idle, rxCnt := 0, rxLen := 0 }
  decode c ⟨.line, [0x7E]⟩ = .ok .rxIdleDelim ∧
  decode { c with rxState := .length } ⟨.line, [0x18]⟩ = .ok (.rxLenHi 0x18) ∧
  decode { c with rxState := .type, rxLen := 0x18 } ⟨.line, [0x80]⟩ = .ok (.rxTypeData64 0x80) ∧
  decode c ⟨.bus, [0x01, 0x00, 0x40]⟩ = .ok (.motorRev 0x40) ∧
  decode c ⟨.bus, [0x01, 0x02, 0x00]⟩ = .ok (.motorBrk 0x00) ∧
  decode c ⟨.rxStream, [0x7E, 0x00, 0x05, 0x8A, 0x11, 0x22, 0x33, 0x44, 0x55]⟩ =
    .ok (.rxFrameOther 0x8A [0x11, 0x22, 0x33, 0x44, 0x55]) ∧
  decode c ⟨.txStream,
      [0x7E, 0x00, 0x0B, 0x00, 0x05, 0x00, 0x13, 0xA2, 0x00, 0x40, 0xA1, 0xB2, 0xC3, 0x00, 0xE4]⟩ =
    .ok (.txFrame ⟨0x00, 0x13, 0xA2, 0x00, 0x40, 0xA1, 0xB2, 0xC3⟩ 0x05 []) ∧
  decode c ⟨.op, [0x0C, 0x40, 0x00]⟩ = .ok (.clrStatus 0x40 0x00)

/-! ## The machine as a whole -/

/-- A step takes the first waiting event out and runs the instruction its bytes decode to; nothing else happens around it.
That the agents' steps wait in an inbox and a step takes its first entry is the model's choice (assumption log 2). -/
def Obligations.StepRunsTheDecodedInstruction : Prop :=
  ∀ (s : State) (e : Event) (rest : List Event) (i : Instr), s.inbox = e :: rest →
    decode s.ctx (eventCode s e) = .ok i →
    step s = exec i { s with inbox := rest }

/-- With nothing waiting nothing changes; whole frames no row matches are pushed as a chunk; a transaction no motor row
matches is a `BUS_XFER`; an unparsable payload changes nothing (the model's choices: assumption log 2, log 19). -/
def Obligations.StepOnOtherEvents : Prop :=
  (∀ s : State, s.inbox = [] → step s = .next s) ∧
  (∀ (s : State) (bs : Bytes) (rest : List Event) (e : DecodeError), s.inbox = .frame bs :: rest →
    decode s.ctx ⟨.rxStream, bs⟩ = .error e → step s = exec (.rxChunk bs) { s with inbox := rest }) ∧
  (∀ (s : State) (rest : List Event) (e : DecodeError), s.inbox = .device :: rest →
    decode s.ctx ⟨.bus, s.currentTxn⟩ = .error e →
    step s = exec (.busXfer (deviceAnswer s.draws)) { s with inbox := rest, draws := s.draws + 1 }) ∧
  (∀ (s : State) (bs : Bytes) (rest : List Event) (e : DecodeError), s.inbox = .payload bs :: rest →
    decode s.ctx ⟨.payload, bs⟩ = .error e → step s = .next { s with inbox := rest, result := .rejected })

/-- Steps happen in the order of the inbox: a step takes exactly the first event, whatever it runs. The inbox is the
model's own field, its choice for the one order of the agents' steps (assumption log 2). -/
def Obligations.StepsTakeEventsInOrder : Prop :=
  ∀ s t : State, step s = .next t → t.inbox = s.inbox.tail

/-- Every operation completes, in every state: the block never traps, halts or refuses to go on (R265). That a step which is
not enabled (a handler row the byte does not select, a grant, transfer or completion out of turn, a motor row that is not
next) answers a next state too, in which only `result` says so, is the model's choice (assumption log 6): R193 calls it no
step. -/
def Obligations.EveryInstructionCompletes : Prop :=
  ∀ (i : Instr) (s : State), ∃ t : State, exec i s = .next t

/-- The invariants of R55, with what they rest on, are kept by every step from every state that has them. Headline (the
spec's own inference, `10_state.md` section 6). -/
def Obligations.EveryStepKeepsTheInvariants : Prop :=
  ∀ s t : State, s.Inv → step s = .next t → t.Inv

/-- The invariants and the trace property of the bus hold right after power-up, and a `RESET` there changes nothing: the
state after power-up is the state a `RESET` gives (with the values of assumption log 1 and log 5 where the spec has none). -/
def Obligations.InvariantsHoldAfterPowerUp : Prop :=
  State.reset.Inv ∧ State.reset.TraceInv ∧ exec .reset State.reset = .next State.reset

/-- Every state a run reaches from power-up has the invariants of R55: under any parameters that keep rules R11 and R13,
for any steps of the agents in any order (the spec's own inference, `10_state.md` section 6). -/
def Obligations.EveryReachableStateHasTheInvariants : Prop :=
  ∀ (p : Params) (es : List Event) (n : Nat) (t : State), p.ok →
    Sys2Proof.core.run n ({ State.init p with inbox := es } : State) = .next t → t.Inv

/-- The trace property of the bus is kept by every step. Headline (the spec's own inference, `42_bus_arbiter.md` section 4,
"Trace property", from the steps of its section 2). -/
def Obligations.EveryStepKeepsTheBusTrace : Prop :=
  ∀ s t : State, s.Inv → s.TraceInv → step s = .next t → t.TraceInv

/-- Who may write what: the single-writer table of R78, as the frame of every instruction; the frame of `RESET`, which R78
lets write all, is there in full. Storage R56 leaves unspecified holds the model's values after a `RESET` (assumption log
5), and what is not the block's stays (log 23); that payload rows write the host's records is log 13, the kept lists of
causes and windows log 18. -/
def Obligations.SingleWriterTable : Prop :=
  ∀ (i : Instr) (s t : State), exec i s = .next t →
    match writerOf i with
    | .receive =>
      t = { s with
        rxState := t.rxState, rxLen := t.rxLen, rxCnt := t.rxCnt, rxSum := t.rxSum, rxType := t.rxType,
        rxPlen := t.rxPlen, rxSrc := t.rxSrc, rxQuality := t.rxQuality, rxOptions := t.rxOptions, rxCk := t.rxCk,
        rxBuf := t.rxBuf, peerValid := t.peerValid, peerAddr := t.peerAddr, frValid := t.frValid, frNew := t.frNew,
        frPlen := t.frPlen, frPayload := t.frPayload, frSrc := t.frSrc, frQuality := t.frQuality,
        frOptions := t.frOptions, frCk := t.frCk, frCkOk := t.frCkOk, frSrcIsPeer := t.frSrcIsPeer,
        codecStatus := t.codecStatus, raised := t.raised, result := t.result } ∧
      t.codecStatus &&& ~~~0x47 = s.codecStatus &&& ~~~0x47
    | .acknowledge => t = { s with frNew := false, result := .none }
    | .transmit =>
      t = { s with
        txFid := t.txFid, txOut := t.txOut, codecStatus := t.codecStatus, raised := t.raised, result := t.result } ∧
      t.codecStatus &&& ~~~0x38 = s.codecStatus &&& ~~~0x38
    | .clear => t = { s with codecStatus := t.codecStatus, busStatus := t.busStatus, result := .none }
    | .request r =>
      t = { s with reqs := t.reqs, result := t.result } ∧
      (ReqFile.wf s.reqs →
        (∀ j, j ≠ r → t.req j = s.req j) ∧ (t.req r).ok = (s.req r).ok ∧ (t.req r).nDone = (s.req r).nDone)
    | .arbiter =>
      t = { s with
        busBusy := t.busBusy, busOwner := t.busOwner, busIdx := t.busIdx, busFail := t.busFail,
        busCfgValid := t.busCfgValid, busCfg := t.busCfg, reqs := t.reqs, busStatus := t.busStatus,
        busOut := t.busOut, draws := t.draws, raised := t.raised, result := t.result, windows := t.windows } ∧
      (ReqFile.wf s.reqs → ∀ j, (t.req j).batch = (s.req j).batch ∧ (t.req j).timeoutMs = (s.req j).timeoutMs ∧
        (t.req j).cfg = (s.req j).cfg ∧ (j ≠ s.busOwner → t.req j = s.req j))
    | .execute r =>
      t = { s with
        busBusy := t.busBusy, busOwner := t.busOwner, busIdx := t.busIdx, busFail := t.busFail,
        busCfgValid := t.busCfgValid, busCfg := t.busCfg, reqs := t.reqs, busStatus := t.busStatus,
        busOut := t.busOut, draws := t.draws, raised := t.raised, result := t.result, windows := t.windows } ∧
      (ReqFile.wf s.reqs → ∀ j, j ≠ r → t.req j = s.req j)
    | .telemetry => t = { s with telemetry := t.telemetry, draws := t.draws, result := t.result }
    | .reader => t = { s with draws := t.draws, result := t.result }
    | .resetter => t = { State.init s.params with
        telemetry := s.telemetry, inbox := s.inbox, draws := s.draws, raised := s.raised }

/-- Status bits are sticky: only `CLR_STATUS` and `RESET` clear one. -/
def Obligations.StatusBitsAreSticky : Prop :=
  ∀ (i : Instr) (s t : State), exec i s = .next t → writerOf i ≠ .clear → writerOf i ≠ .resetter →
    t.codecStatus &&& s.codecStatus = s.codecStatus ∧ t.busStatus &&& s.busStatus = s.busStatus

/-- No rule's behaviour depends on the value of a status bit: changing the status registers changes nothing an
instruction does but the status registers themselves; only reading one of the two sees the difference. -/
def Obligations.NoBehaviourDependsOnStatus : Prop :=
  ∀ (i : Instr) (s t : State) (c b : Byte), exec i s = .next t →
    (∀ n, i ≠ .rxRead .codecStatus n ∧ i ≠ .rxRead .busStatus n) →
    ∃ c' b' : Byte, exec i (s.withStatus c b) = .next (t.withStatus c' b')

/-- The peer is pinned once: no instruction but `RESET` changes or drops a pinned address. -/
def Obligations.PeerIsPinnedOnce : Prop :=
  ∀ (i : Instr) (s t : State), exec i s = .next t → writerOf i ≠ .resetter → s.peerValid = true →
    t.peerValid = true ∧ t.peerAddr = s.peerAddr

/-- The two output streams are append-only: only `RESET` takes anything away. -/
def Obligations.OutputsAreAppendOnly : Prop :=
  ∀ (i : Instr) (s t : State), exec i s = .next t → writerOf i ≠ .resetter →
    (∃ f, t.txOut = s.txOut ++ f) ∧ (∃ rs, t.busOut = s.busOut ++ rs)

/-! ## The byte handlers -/

/-- State `Idle`: the delimiter opens a frame, any other byte leaves no trace. -/
def Obligations.IdleOpensOrDiscards : Prop :=
  ∀ s : State, s.rxState = .idle →
    exec .rxIdleDelim s =
      .next { s with rxState := .length, rxCnt := 0, rxLen := 0, rxSum := 0, result := .push false false } ∧
    ∀ b : Byte, b ≠ 0x7E → exec (.rxIdleOther b) s = .next { s with result := .push false false }

/-- State `Length`: the high byte, then the low byte, and on to `Type`, whatever the value. -/
def Obligations.LengthTakesTwoBytes : Prop :=
  ∀ (s : State) (b : Byte), s.rxState = .length →
    (s.rxCnt = 0 → exec (.rxLenHi b) s =
      .next { s with
        rxSum := if s.params.cksumCoversLength then s.rxSum + b else s.rxSum
        rxLen := BitVec.ofNat 16 (256 * b.toNat)
        rxCnt := 1
        result := .push false false }) ∧
    (s.rxCnt = 1 → exec (.rxLenLo b) s =
      .next { s with
        rxSum := if s.params.cksumCoversLength then s.rxSum + b else s.rxSum
        rxLen := s.rxLen + b.setWidth 16
        rxCnt := 0
        rxState := .type
        result := .push false false })

/-- The length field is big-endian: after its two bytes `rx_len` is `256 h + l`. -/
def Obligations.LengthFieldIsBigEndian : Prop :=
  ∀ (s t u : State) (h l : Byte), s.rxState = .length → s.rxCnt = 0 →
    exec (.rxLenHi h) s = .next t → exec (.rxLenLo l) t = .next u →
    u.rxLen.toNat = 256 * h.toNat + l.toNat ∧ u.rxState = .type ∧ u.rxCnt = 0

/-- State `Type`, data-frame arm. -/
def Obligations.TypeAdmitsDataFrame : Prop :=
  ∀ s : State, s.rxState = .type → 11 ≤ s.rxLen.toNat → s.rxLen.toNat - 11 ≤ s.params.rxPayloadMax →
    exec (.rxTypeData64 s.params.typeRx64) s =
      .next { s with
        rxSum := s.rxSum + s.params.typeRx64
        rxType := s.params.typeRx64
        rxPlen := s.rxLen - 11
        rxCnt := 0
        rxState := .sourceAddr
        result := .push false false }

/-- State `Type`, skip arm: another type raises nothing, a short one `E_SHORT`, an oversize one `E_OVERSIZE`; then
`rx_len` bytes are to be skipped, none for `rx_len` = 0. -/
def Obligations.TypeSkipsOtherFrames : Prop :=
  ∀ (s : State) (b : Byte), s.rxState = .type →
    let skipped (u : State) : State :=
      { u with
        rxSum := s.rxSum + b
        rxType := b
        rxCnt := s.rxLen
        rxState := if s.rxLen = 0 then .idle else .ignoreUnknown
        result := .push false false }
    (b ≠ s.params.typeRx64 → exec (.rxTypeOther b) s = .next (skipped s)) ∧
    (b = s.params.typeRx64 → s.rxLen.toNat < 11 →
      exec (.rxTypeData64Short b) s =
        .next (skipped { s with codecStatus := s.codecStatus ||| 0x02, raised := s.raised ++ [.eShort] })) ∧
    (b = s.params.typeRx64 → 11 ≤ s.rxLen.toNat → s.params.rxPayloadMax < s.rxLen.toNat - 11 →
      exec (.rxTypeData64Oversize b) s =
        .next (skipped { s with codecStatus := s.codecStatus ||| 0x04, raised := s.raised ++ [.eOversize] }))

/-- State `SourceAddr`: the byte is stored at the count; the eighth completes the address, pins it where no peer is
pinned, and moves to `Quality`. -/
def Obligations.SourceAddressIsStoredAndPinned : Prop :=
  ∀ (s : State) (a : Byte), s.rxState = .sourceAddr →
    (s.rxCnt.toNat < 7 → ∃ t : State, exec (.rxSrc a) s = .next t ∧
      t = { s with rxSum := s.rxSum + a, rxSrc := t.rxSrc, rxCnt := s.rxCnt + 1, result := .push false false } ∧
      addrGet t.rxSrc s.rxCnt.toNat = a ∧ ∀ j, j ≠ s.rxCnt.toNat → addrGet t.rxSrc j = addrGet s.rxSrc j) ∧
    (s.rxCnt = 7 → exec (.rxSrc a) s =
      .next { s with
        rxSum := s.rxSum + a
        rxSrc := { s.rxSrc with b7 := a }
        peerAddr := if s.peerValid then s.peerAddr else { s.rxSrc with b7 := a }
        peerValid := true
        rxCnt := 0
        rxState := .quality
        result := .push false false })

/-- States `Quality` and `Options`: the byte is summed and stored; an empty payload goes straight to `Checksum`. -/
def Obligations.QualityAndOptionsAreStored : Prop :=
  ∀ (s : State) (b : Byte),
    (s.rxState = .quality → exec (.rxQual b) s =
      .next { s with rxSum := s.rxSum + b, rxQuality := b, rxState := .options, result := .push false false }) ∧
    (s.rxState = .options → exec (.rxOpt b) s =
      .next { s with
        rxSum := s.rxSum + b
        rxOptions := b
        rxCnt := 0
        rxState := if s.rxPlen = 0 then .checksum else .payload
        result := .push false false })

/-- State `Payload`: the byte is stored at index `rx_cnt` of `RXA`, every other byte of the space is unchanged, and the
last payload byte moves to `Checksum`. -/
def Obligations.PayloadByteIsStored : Prop :=
  ∀ (s : State) (b : Byte), s.rxState = .payload → s.rxCnt.toNat < s.rxPlen.toNat → s.rxBuf.wf →
    ∃ t : State, exec (.rxPayload b) s = .next t ∧
      t = { s with
        rxSum := s.rxSum + b
        rxBuf := t.rxBuf
        rxCnt := if s.rxCnt.toNat + 1 = s.rxPlen.toNat then 0 else s.rxCnt + 1
        rxState := if s.rxCnt.toNat + 1 = s.rxPlen.toNat then .checksum else .payload
        result := .push false false } ∧
      t.rxBuf.read s.rxCnt.toNat = b ∧ (∀ j, j ≠ s.rxCnt.toNat → t.rxBuf.read j = s.rxBuf.read j) ∧ t.rxBuf.wf

/-- State `Checksum`: a mismatch raises `E_CKSUM`, and while the policy enforces it the frame is dropped; an accepted
frame is committed whole, over an unacknowledged one with `E_OVERRUN`; the decoder is back in `Idle` either way. -/
def Obligations.ChecksumDecidesAndCommits : Prop :=
  ∀ (s : State) (c : Byte), s.rxState = .checksum → s.frPayload.wf →
    (c ≠ 0xFF - s.rxSum → s.params.cksumEnforce = true →
      exec (.rxCksum c) s =
        .next { s with
          rxCk := c
          codecStatus := s.codecStatus ||| 0x01
          raised := s.raised ++ [.eCksum]
          rxState := .idle
          rxCnt := 0
          result := .push true false }) ∧
    (c = 0xFF - s.rxSum ∨ s.params.cksumEnforce = false → ∃ t : State, exec (.rxCksum c) s = .next t ∧
      t = { s with
        rxCk := c
        codecStatus := s.codecStatus ||| (if c = 0xFF - s.rxSum then 0x00 else 0x01) |||
          (if s.frNew then 0x40 else 0x00)
        raised := s.raised ++ (if c = 0xFF - s.rxSum then [] else [.eCksum]) ++ (if s.frNew then [.eOverrun] else [])
        frPayload := t.frPayload
        frPlen := s.rxPlen
        frSrc := s.rxSrc
        frQuality := s.rxQuality
        frOptions := s.rxOptions
        frCk := c
        frCkOk := decide (c = 0xFF - s.rxSum)
        frSrcIsPeer := decide (s.rxSrc = s.peerAddr)
        frValid := true
        frNew := true
        rxState := .idle
        rxCnt := 0
        result := .push true true } ∧
      ∀ j, t.frPayload.read j = if j < s.rxPlen.toNat then s.rxBuf.read j else s.frPayload.read j)

/-- State `IgnoreUnknown`: the byte is neither stored nor summed; the count runs down to `Idle`. -/
def Obligations.IgnoredBytesAreCounted : Prop :=
  ∀ (s : State) (x : Byte), s.rxState = .ignoreUnknown → 1 ≤ s.rxCnt.toNat →
    exec (.rxIgnore x) s =
      .next (if s.rxCnt = 1 then { s with rxCnt := 0, rxState := .idle, result := .push false false }
        else { s with rxCnt := s.rxCnt - 1, result := .push false false })

/-! ## The receive operations -/

/-- `RX_PUSH` is enabled in every state and executes exactly the handler that `rx_state` and the byte select; only the
`Checksum` handler returns a result other than (0,0). -/
def Obligations.PushExecutesTheSelectedHandler : Prop :=
  ∀ (s : State) (b : Byte), ∃ t : State, exec (.rxPush b) s = .next t ∧ exec (decodeLine s.ctx b) s = .next t ∧
    (s.rxState ≠ .checksum → t.result = .push false false)

/-- `RX_CHUNK` pushes its bytes in order and returns the OR of their `accept` bits; an empty chunk returns 0. -/
def Obligations.ChunkIsItsPushesInOrder : Prop :=
  (∀ s : State, exec (.rxChunk []) s = .next { s with result := .chunk false }) ∧
  ∀ (s : State) (b : Byte) (bs : Bytes), ∃ (t u : State) (d a r : Bool),
    exec (.rxPush b) s = .next t ∧ t.result = .push d a ∧
    exec (.rxChunk bs) t = .next u ∧ u.result = .chunk r ∧
    exec (.rxChunk (b :: bs)) s = .next { u with result := .chunk (a || r) }

/-- Chunk independence: cutting a byte string in two changes neither the state nor the OR of the results
(the spec's own inference, `40_decoder.md` section 4, "Chunk independence"). -/
def Obligations.ChunksMayBeCutAnywhere : Prop :=
  ∀ (s : State) (xs ys : Bytes), ∃ (t u : State) (a b : Bool),
    exec (.rxChunk xs) s = .next t ∧ t.result = .chunk a ∧
    exec (.rxChunk ys) t = .next u ∧ u.result = .chunk b ∧
    exec (.rxChunk (xs ++ ys)) s = .next { u with result := .chunk (a || b) }

/-- `RX_ACK` clears `fr_new` and nothing else. -/
def Obligations.AckClearsFrNewOnly : Prop :=
  ∀ s : State, exec .rxAck s = .next { s with frNew := false, result := .none }

/-- `RX_READ` returns the register it names and changes nothing; an index of the payload buffer past the frame reads as
some byte (which one, nothing says); a name outside the list and an index outside its range are refused. The registers
that hold a frame's data are read here while a frame is held. That `fr_ck_ok` and `fr_src_is_peer` read as they stand also
while none is, and that the index of a register that has none is ignored, is the model's reading (assumption log 11); that
`bus_busy` is among the readable registers, as R140 lists it and R50 and R54 do not, is the model's choice (assumption log
27). -/
def Obligations.ReadReturnsTheNamedRegister : Prop :=
  ∀ (s : State) (i : Nat),
    let gives (n : ReadName) (v : Nat) : Prop := exec (.rxRead n i) s = .next { s with result := .value v }
    let refused (n : ReadName) : Prop := exec (.rxRead n i) s = .next { s with result := .refused none }
    gives .frValid s.frValid.toNat ∧ gives .frNew s.frNew.toNat ∧ gives .frCkOk s.frCkOk.toNat ∧
    gives .frSrcIsPeer s.frSrcIsPeer.toNat ∧ gives .peerValid s.peerValid.toNat ∧ gives .txFid s.txFid.toNat ∧
    gives .codecStatus s.codecStatus.toNat ∧ gives .busStatus s.busStatus.toNat ∧ gives .busBusy s.busBusy.toNat ∧
    (s.frValid = true →
      gives .frPlen s.frPlen.toNat ∧ gives .frQuality s.frQuality.toNat ∧ gives .frOptions s.frOptions.toNat ∧
      gives .frCk s.frCk.toNat ∧ (i < 8 → gives .frSrc (addrGet s.frSrc i).toNat) ∧
      (i < s.params.rxPayloadMax → i < s.frPlen.toNat → gives .frPayload (s.frPayload.read i).toNat)) ∧
    (i < s.params.rxPayloadMax → s.frPlen.toNat ≤ i →
      ∃ v, v < 256 ∧ exec (.rxRead .frPayload i) s = .next { s with draws := s.draws + 1, result := .value v }) ∧
    (s.params.rxPayloadMax ≤ i → refused .frPayload) ∧
    (i < 8 → gives .peerAddr (addrGet s.peerAddr i).toNat) ∧ (8 ≤ i → refused .peerAddr ∧ refused .frSrc) ∧
    (i < s.params.nReq → gives .reqDone (s.req i).done.toNat ∧ gives .reqOk (s.req i).ok.toNat ∧
      gives .reqNDone (s.req i).nDone) ∧
    (s.params.nReq ≤ i → refused .reqDone ∧ refused .reqOk ∧ refused .reqNDone) ∧
    ∀ code : Byte, refused (.other code)

/-- While no frame is held, reading a register that holds a frame's data returns some value of the register's width and
changes nothing; which registers these are is the model's reading of `70_reset_and_hazards.md` R296 (assumption log 11). -/
def Obligations.ReadWithoutFrameIsUnspecified : Prop :=
  ∀ (s : State) (i : Nat), s.frValid = false →
    let unspecified (n : ReadName) (bound : Nat) : Prop :=
      ∃ v, v < bound ∧ exec (.rxRead n i) s = .next { s with draws := s.draws + 1, result := .value v }
    unspecified .frPlen 65536 ∧ unspecified .frQuality 256 ∧ unspecified .frOptions 256 ∧ unspecified .frCk 256 ∧
    (i < 8 → unspecified .frSrc 256) ∧ (i < s.params.rxPayloadMax → unspecified .frPayload 256)

/-! ## Whole frames on the receive line -/

/-- A well-formed data frame pushed in `Idle` returns (0,0) for every byte but the last and (1,1) for the last, ends in
`Idle`, and leaves the frame in the `fr_*` registers and, where no peer was pinned, its source as the peer. Headline (the spec's
own inference, `40_decoder.md` section 4, "What a well-formed data frame does"). -/
def Obligations.WellFormedDataFrameIsAccepted : Prop :=
  ∀ (s : State) (src : Addr) (q o : Byte) (payload : Bytes), s.rxState = .idle → s.rxBuf.wf → s.frPayload.wf →
    payload.length ≤ s.params.rxPayloadMax → s.params.rxPayloadMax ≤ 65524 →
    let frame := rxDataFrame s.params src q o payload
    (∃ t : State, exec (.rxFrameData64 src q o payload) s = .next t ∧ t.result = .chunk true ∧ t.rxState = .idle ∧
      t.frPlen.toNat = payload.length ∧ t.frPayload.bytes payload.length = payload ∧ t.frSrc = src ∧
      t.frQuality = q ∧ t.frOptions = o ∧ t.frCkOk = true ∧ t.frNew = true ∧ t.frValid = true ∧ t.peerValid = true ∧
      t.peerAddr = (if s.peerValid then s.peerAddr else src) ∧
      t.codecStatus = s.codecStatus ||| (if s.frNew then 0x40 else 0x00)) ∧
    ∀ (k : Nat) (hk : k < frame.length), ∃ u v : State, exec (.rxChunk (frame.take k)) s = .next u ∧
      exec (.rxPush frame[k]) u = .next v ∧
      v.result = .push (decide (k + 1 = frame.length)) (decide (k + 1 = frame.length))

/-- An unwanted frame is stepped over exactly: nothing is reported, the decoder is in `Idle` after its last byte, and
`fr_*`, `peer_*` and `codec_status` are unchanged (the spec's own inference, `40_decoder.md` section 4, "What an unwanted
frame does"). -/
def Obligations.UnwantedFrameIsSkipped : Prop :=
  ∀ (s : State) (b : Byte) (xs : Bytes), s.rxState = .idle → b ≠ s.params.typeRx64 → xs.length ≤ 65535 →
    (∃ t : State, exec (.rxFrameOther b xs) s = .next t ∧
      t = { s with
        rxLen := BitVec.ofNat 16 xs.length, rxCnt := 0, rxSum := t.rxSum, rxType := b, result := .chunk false }) ∧
    ∀ k : Nat, k < (rxOtherFrame b xs).length → 0 < k →
      ∃ u : State, exec (.rxChunk ((rxOtherFrame b xs).take k)) s = .next u ∧ u.result = .chunk false ∧
        u.rxState ≠ .idle

/-- Round trip: what the encoder emits, presented by the link as a data frame, is received with its payload intact. Without
the link it is received so exactly where the transmit frame's first reserved byte is the data frame's type byte, and
then the frame id and the address are read as source and quality. Headline (the spec's own inference, `41_encoder.md`,
"Round trip"). -/
def Obligations.RoundTripThroughTheLink : Prop :=
  ∀ (s : State) (dest src : Addr) (fid q o : Byte) (payload : Bytes), s.rxState = .idle → s.params.ok →
    s.rxBuf.wf → s.frPayload.wf → fid.toNat ≤ 126 →
    payload.length ≤ min s.params.txPayloadMax s.params.rxPayloadMax →
    (∃ t : State, exec (.rxChunk (link s.params (encodeFrame s.params dest fid payload) src q o)) s = .next t ∧
      t.result = .chunk true ∧ t.frPlen.toNat = payload.length ∧ t.frPayload.bytes payload.length = payload) ∧
    ∃ t : State, exec (.rxChunk (encodeFrame s.params dest fid payload)) s = .next t ∧
      (s.params.txRsvdA = s.params.typeRx64 →
        t.result = .chunk true ∧ t.frPlen.toNat = payload.length ∧ t.frPayload.bytes payload.length = payload ∧
        t.frSrc = ⟨fid, dest.b0, dest.b1, dest.b2, dest.b3, dest.b4, dest.b5, dest.b6⟩ ∧ t.frQuality = dest.b7 ∧
        t.frOptions = s.params.txRsvdB) ∧
      (s.params.txRsvdA ≠ s.params.typeRx64 → t.result = .chunk false ∧ t.frPayload = s.frPayload)

/-! ## Checksum and transmit frames -/

/-- `EncodeFrame` byte by byte, its checksum over the covered part of the frame. -/
def Obligations.EncodedFrameHasItsLayout : Prop :=
  ∀ (p : Params) (dest : Addr) (fid : Byte) (payload : Bytes), payload.length ≤ 65524 →
    let f := encodeFrame p dest fid payload
    let n := payload.length + 15
    f.length = n ∧ f[0]? = some 0x7E ∧
    (∃ h l : Byte, f[1]? = some h ∧ f[2]? = some l ∧ 256 * h.toNat + l.toNat = payload.length + 11) ∧
    f[3]? = some p.txRsvdA ∧ f[4]? = some fid ∧ (f.drop 5).take 8 = addrBytes dest ∧ f[13]? = some p.txRsvdB ∧
    (f.drop 14).take payload.length = payload ∧
    f[n - 1]? = some (0xFF - sum8 ((f.drop (if p.cksumCoversLength then 1 else 3)).take
      (n - 1 - (if p.cksumCoversLength then 1 else 3))))

/-- Any change of a single covered byte changes the checksum; the order of the bytes does not; the last clause is
the validation form (the spec's own inference, `30_encoding.md` section 3). -/
def Obligations.ChecksumDetectsOneChangedByte : Prop :=
  (∀ (xs ys : Bytes) (a b : Byte), a ≠ b → cksum (xs ++ a :: ys) ≠ cksum (xs ++ b :: ys)) ∧
  (∀ xs ys : Bytes, xs.Perm ys → cksum xs = cksum ys) ∧
  ∀ (s : Bytes) (c : Byte), c = cksum s ↔ sum8 s + c = 0xFF

/-- `TX_ENCODE` appends the encoded frame whole and changes nothing else, or is refused: `E_FID` is tested before `E_TXLEN`,
nothing is emitted, and only the one status bit changes. -/
def Obligations.EncodeEmitsOrRefuses : Prop :=
  ∀ (s : State) (dest : Addr) (fid : Byte) (payload : Bytes),
    let f := encodeFrame s.params dest fid payload
    let refused (bit : Byte) (c : Cause) : State :=
      { s with codecStatus := s.codecStatus ||| bit, raised := s.raised ++ [c], result := .refused (some c) }
    (126 < fid.toNat → exec (.txEncode dest fid payload) s = .next (refused 0x20 .eFid)) ∧
    (fid.toNat ≤ 126 → s.params.txPayloadMax < payload.length →
      exec (.txEncode dest fid payload) s = .next (refused 0x08 .eTxlen)) ∧
    (fid.toNat ≤ 126 → payload.length ≤ s.params.txPayloadMax →
      exec (.txEncode dest fid payload) s = .next { s with txOut := s.txOut ++ f, result := .emitted f })

/-- `TX_SEND` sends to the pinned peer with the next frame id and advances it, or is refused: `E_NOPEER` is tested before
`E_TXLEN`, nothing is emitted, the frame id does not advance. -/
def Obligations.SendEmitsOrRefuses : Prop :=
  ∀ (s : State) (payload : Bytes),
    let f := encodeFrame s.params s.peerAddr (BitVec.ofNat 8 s.txFid.toNat) payload
    let refused (bit : Byte) (c : Cause) : State :=
      { s with codecStatus := s.codecStatus ||| bit, raised := s.raised ++ [c], result := .refused (some c) }
    (s.peerValid = false → exec (.txSend payload) s = .next (refused 0x10 .eNopeer)) ∧
    (s.peerValid = true → s.params.txPayloadMax < payload.length →
      exec (.txSend payload) s = .next (refused 0x08 .eTxlen)) ∧
    (s.peerValid = true → payload.length ≤ s.params.txPayloadMax →
      exec (.txSend payload) s =
        .next { s with txOut := s.txOut ++ f, txFid := BitVec.ofNat 7 ((s.txFid.toNat + 1) % 127), result := .emitted f })

/-- A transmit frame as an instruction is emitted as the encoder does it, an outgoing payload as an instruction is sent to
the peer, each refused with the cause the encoder's operation raises, in the order of its tests: the model's reading of the
format rows (assumption log 16, log 13; any digital bytes: log 26). -/
def Obligations.TransmitFormatsAreEmitted : Prop :=
  ∀ s : State,
    let refused (bit : Byte) (c : Cause) : State :=
      { s with codecStatus := s.codecStatus ||| bit, raised := s.raised ++ [c], result := .refused (some c) }
    (∀ (dest : Addr) (fid : Byte) (payload : Bytes),
      (126 < fid.toNat → exec (.txFrame dest fid payload) s = .next (refused 0x20 .eFid)) ∧
      (fid.toNat ≤ 126 → s.params.txPayloadMax < payload.length →
        exec (.txFrame dest fid payload) s = .next (refused 0x08 .eTxlen))) ∧
    (∀ analog digital : Bytes,
      (s.peerValid = false → exec (.payloadOut analog digital) s = .next (refused 0x10 .eNopeer)) ∧
      (s.peerValid = true → s.params.txPayloadMax < 1 + analog.length + digital.length →
        exec (.payloadOut analog digital) s = .next (refused 0x08 .eTxlen))) ∧
    (∀ (dest : Addr) (fid : Byte) (payload : Bytes), fid.toNat ≤ 126 → payload.length ≤ s.params.txPayloadMax →
      exec (.txFrame dest fid payload) s =
        .next { s with
          txOut := s.txOut ++ encodeFrame s.params dest fid payload
          result := .emitted (encodeFrame s.params dest fid payload) }) ∧
    ∀ analog digital : Bytes, s.peerValid = true → 1 + analog.length + digital.length ≤ s.params.txPayloadMax →
      let f := encodeFrame s.params s.peerAddr (BitVec.ofNat 8 s.txFid.toNat) (s.params.identOut :: (analog ++ digital))
      exec (.payloadOut analog digital) s =
        .next { s with txOut := s.txOut ++ f, txFid := BitVec.ofNat 7 ((s.txFid.toNat + 1) % 127), result := .emitted f }

/-- The frame ids of successive successful sends count modulo 127: from id `f`, the `k`-th frame carries
`(f + k) mod 127`, the frames stand in `tx_out` whole and in order, and the next id is `(f + number) mod 127`. -/
def Obligations.FrameIdsCountModulo127 : Prop :=
  ∀ (s : State) (ps : List Bytes), s.peerValid = true → s.txFid.toNat ≤ 126 →
    (∀ p ∈ ps, p.length ≤ s.params.txPayloadMax) →
    ∃ t : State, runInstrs (ps.map .txSend) s = some t ∧
      t.txFid.toNat = (s.txFid.toNat + ps.length) % 127 ∧
      t.txOut = s.txOut ++ (ps.zipIdx.flatMap fun (p, k) =>
        encodeFrame s.params s.peerAddr (BitVec.ofNat 8 ((s.txFid.toNat + k) % 127)) p)

/-! ## The bus arbiter -/

/-- `BUS_REQUEST` fills the requester's own registers and makes it pending, and nothing else changes; a request that breaks
a limit, names no requester, or comes from a pending one changes no state. -/
def Obligations.RequestIsRegisteredOrRefused : Prop :=
  ∀ (s : State) (r : Nat) (batch : List Bytes) (tmo : Nat) (cfg : DeviceConfig), ReqFile.wf s.reqs →
    tmo < 2 ^ s.params.timeoutW → cfg.devAddr < 2 ^ s.params.devAddrW → cfg.clkRate < 2 ^ s.params.clkRateW →
    (r < s.params.nReq → (s.req r).pending = false → batch.length ≤ s.params.batchMax →
      (∀ w ∈ batch, 1 ≤ w.length ∧ w.length ≤ s.params.txnMaxBytes) →
      ∃ t : State, exec (.busRequest r batch tmo cfg) s = .next t ∧ t = { s with reqs := t.reqs, result := .none } ∧
        (∀ j, j ≠ r → t.req j = s.req j) ∧
        t.req r = { s.req r with batch := batch, timeoutMs := tmo, cfg := cfg, done := false, pending := true }) ∧
    ((s.params.batchMax < batch.length ∨ (∃ w ∈ batch, w.length = 0 ∨ s.params.txnMaxBytes < w.length) ∨
        s.params.nReq ≤ r ∨ (s.req r).pending = true) →
      exec (.busRequest r batch tmo cfg) s = .next { s with result := .refused none })

/-- `BUS_GRANT`: any pending requester may win a free bus; the window opens with its configuration, and no other grant is
enabled while it is open. -/
def Obligations.GrantOpensTheWindow : Prop :=
  ∀ (s : State) (r : Nat), s.busBusy = false → (s.req r).pending = true →
    ∃ t : State, exec (.busGrant r) s = .next t ∧
      t = { s with
        busBusy := true
        busOwner := r
        busIdx := 0
        busFail := false
        busCfg := (s.req r).cfg
        busCfgValid := true
        windows := s.windows ++ [⟨r, (s.req r).batch, (s.req r).cfg⟩]
        result := .none } ∧
      ∀ j, t.grantEnabled j = false

/-- `BUS_XFER` issues transaction `bus_idx` unchanged under the window's configuration; `ack` advances, `fail` stops the
batch. -/
def Obligations.TransferIssuesTheTransaction : Prop :=
  ∀ (s : State) (o : XferOutcome) (w : Bytes), s.busBusy = true → s.busFail = false →
    (s.req s.busOwner).batch[s.busIdx]? = some w →
    exec (.busXfer o) s =
      .next { s with
        busOut := s.busOut ++ [⟨s.busCfg.devAddr, s.busCfg.clkRate, w, o⟩]
        busIdx := if o = .ack then s.busIdx + 1 else s.busIdx
        busFail := decide (o = .fail)
        result := .xfer o }

/-- The motor transactions: where the window's next transaction is the motor command, its three bytes reach the addressed
device in order, with the device's answer a free value (assumption log 8). -/
def Obligations.MotorCommandsReachTheDevice : Prop :=
  ∀ (s : State) (g : Byte), s.busBusy = true → s.busFail = false →
    let issued (w : Bytes) : State :=
      { s with
        busOut := s.busOut ++ [⟨s.busCfg.devAddr, s.busCfg.clkRate, w, deviceAnswer s.draws⟩]
        busIdx := if deviceAnswer s.draws = .ack then s.busIdx + 1 else s.busIdx
        busFail := decide (deviceAnswer s.draws = .fail)
        draws := s.draws + 1
        result := .xfer (deviceAnswer s.draws) }
    ((s.req s.busOwner).batch[s.busIdx]? = some [0x01, 0x00, g] →
      exec (.motorRev g) s = .next (issued [0x01, 0x00, g])) ∧
    ((s.req s.busOwner).batch[s.busIdx]? = some [0x01, 0x01, g] →
      exec (.motorFwd g) s = .next (issued [0x01, 0x01, g])) ∧
    ((s.req s.busOwner).batch[s.busIdx]? = some [0x01, 0x02, g] →
      exec (.motorBrk g) s = .next (issued [0x01, 0x02, g]))

/-- `BUS_COMPLETE` gives the owner its result, raises `E_BUS` for a failed batch, and frees the bus. -/
def Obligations.CompleteReportsAndReleases : Prop :=
  ∀ s : State, ReqFile.wf s.reqs → s.busBusy = true →
    (s.busFail = true ∨ s.busIdx = (s.req s.busOwner).batch.length) →
    ∃ t : State, exec .busComplete s = .next t ∧
      t = { s with
        reqs := t.reqs
        busStatus := if s.busFail then s.busStatus ||| 0x01 else s.busStatus
        raised := if s.busFail then s.raised ++ [.eBus] else s.raised
        busBusy := false
        result := .complete s.busOwner (!s.busFail) s.busIdx } ∧
      (∀ j, j ≠ s.busOwner → t.req j = s.req j) ∧
      t.req s.busOwner =
        { s.req s.busOwner with ok := !s.busFail, nDone := s.busIdx, done := true, pending := false }

/-- Steps that are not enabled are no steps: a handler row that the pushed byte does not select in this state, a grant while
a window is open (the window is exclusive) or to a requester with nothing pending, a transfer or a completion out of
turn, a motor transaction that is not the one the open window issues next. Only `result` says so (the model's choice,
assumption log 6). -/
def Obligations.StepsNotEnabledChangeNothing : Prop :=
  (∀ (s : State) (row : Instr) (b : Byte), encode s.params row = ⟨.line, [b]⟩ → decodeLine s.ctx b ≠ row →
    exec row s = .next { s with result := .notEnabled }) ∧
  (∀ (s : State) (g : Byte) (m : Byte) (row : Instr),
    (row = .motorRev g ∧ m = 0x00 ∨ row = .motorFwd g ∧ m = 0x01 ∨ row = .motorBrk g ∧ m = 0x02) →
    (s.busBusy = false ∨ s.busFail = true ∨ (s.req s.busOwner).batch[s.busIdx]? ≠ some [0x01, m, g]) →
    exec row s = .next { s with result := .notEnabled }) ∧
  ∀ (s : State) (r : Nat) (o : XferOutcome),
    (s.busBusy = true ∨ (s.req r).pending = false → exec (.busGrant r) s = .next { s with result := .notEnabled }) ∧
    (s.busBusy = false ∨ s.busFail = true ∨ (s.req s.busOwner).batch.length ≤ s.busIdx →
      exec (.busXfer o) s = .next { s with result := .notEnabled }) ∧
    (s.busBusy = false ∨ (s.busFail = false ∧ s.busIdx ≠ (s.req s.busOwner).batch.length) →
      exec .busComplete s = .next { s with result := .notEnabled })

/-- Progress: in every state that has the invariants, an open window has exactly one of `BUS_XFER` and `BUS_COMPLETE`
enabled, so no device behaviour can hold the critical section for ever. -/
def Obligations.OpenWindowMakesProgress : Prop :=
  ∀ s : State, s.BusInv → s.busBusy = true → s.xferEnabled = !s.completeEnabled

/-- `BUS_EXECUTE` on a free bus with no other requester pending: the whole window at once. The batch's records up to the
first failure appear under its configuration, and the caller gets `(ok, n_done)` (the spec's own inference,
`42_bus_arbiter.md` section 2; when it applies is assumption log 7). -/
def Obligations.ExecuteRunsTheWholeWindow : Prop :=
  ∀ (s : State) (r : Nat) (batch : List Bytes) (tmo : Nat) (cfg : DeviceConfig), ReqFile.wf s.reqs →
    s.requestOk r batch = true → s.busBusy = false → s.othersPending r = false →
    tmo < 2 ^ s.params.timeoutW → cfg.devAddr < 2 ^ s.params.devAddrW → cfg.clkRate < 2 ^ s.params.clkRateW →
    ∃ (t : State) (n : Nat) (ok : Bool), exec (.busExecute r batch tmo cfg) s = .next t ∧
      t.result = .complete r ok n ∧ n ≤ batch.length ∧ (ok = true ↔ n = batch.length) ∧
      (∀ j, j < n → deviceAnswer (s.draws + j) = .ack) ∧ (ok = false → deviceAnswer (s.draws + n) = .fail) ∧
      t.busOut = s.busOut ++ windowRecords ⟨r, batch, cfg⟩ n (!ok) ∧
      t.req r = { pending := false, batch := batch, timeoutMs := tmo, cfg := cfg, done := true, ok := ok, nDone := n } ∧
      (∀ j, j ≠ r → t.req j = s.req j) ∧ t.busBusy = false ∧
      t.busStatus = s.busStatus ||| (if ok then 0x00 else 0x01)

/-- `BUS_EXECUTE` while a window is open or another requester is pending only registers the request: the caller is blocked
until the arbiter's later steps; a request that breaks the limits is refused (assumption log 7). -/
def Obligations.ExecuteBlocksUnderContention : Prop :=
  ∀ (s t : State) (r : Nat) (batch : List Bytes) (tmo : Nat) (cfg : DeviceConfig),
    exec (.busRequest r batch tmo cfg) s = .next t →
    (s.requestOk r batch = true → (s.busBusy = true ∨ s.othersPending r = true) →
      exec (.busExecute r batch tmo cfg) s = .next { t with result := .blocked }) ∧
    (s.requestOk r batch = false → exec (.busExecute r batch tmo cfg) s = .next t)

/-- An empty batch is legal: granted, completed at once with `ok` = 1 and `n_done` = 0, nothing on the bus. -/
def Obligations.EmptyBatchSucceedsAtOnce : Prop :=
  ∀ (s t : State) (r : Nat), s.busBusy = false → (s.req r).pending = true → (s.req r).batch = [] →
    exec (.busGrant r) s = .next t →
    batchOk s.params [] = true ∧ t.xferEnabled = false ∧
    ∃ u : State, exec .busComplete t = .next u ∧ u.result = .complete r true 0 ∧ u.busOut = s.busOut ∧
      u.busCfg = (s.req r).cfg

/-! ## Reset and status -/

/-- `RESET` gives every piece of state of the block the value of R56's table; what the table leaves unspecified is left
open here, and so is what is no state of the block (the host's records and the model's own fields). -/
def Obligations.ResetGivesTheTable : Prop :=
  ∀ s : State, ∃ t : State, exec .reset s = .next t ∧
    t = { s with
      rxState := .idle, rxLen := 0, rxCnt := 0, rxPlen := 0, rxSum := 0x00, rxType := 0x00, rxQuality := 0x00,
      rxOptions := 0x00, rxCk := 0x00, rxSrc := Addr.zero, peerValid := false, peerAddr := Addr.zero,
      rxBuf := t.rxBuf, frValid := false, frNew := false, frCkOk := false, frSrcIsPeer := false, frPlen := 0,
      frSrc := Addr.zero, frQuality := 0x00, frOptions := 0x00, frCk := 0x00, frPayload := t.frPayload,
      codecStatus := 0x00, txFid := 0, txOut := [], busBusy := false, busOwner := 0, busIdx := 0, busFail := false,
      busCfgValid := false, busCfg := t.busCfg, reqs := t.reqs, busStatus := 0x00, busOut := [], result := .none,
      telemetry := t.telemetry, inbox := t.inbox, draws := t.draws, raised := t.raised, windows := t.windows } ∧
    ∀ r, (t.req r).pending = false ∧ (t.req r).done = false ∧ (t.req r).ok = false ∧ (t.req r).nDone = 0

/-- `CLR_STATUS` clears the bits whose mask bits are 1 and changes nothing else. -/
def Obligations.ClearStatusClearsMaskedBits : Prop :=
  ∀ (s : State) (cmask bmask : Byte), ∃ t : State, exec (.clrStatus cmask bmask) s = .next t ∧
    t = { s with codecStatus := t.codecStatus, busStatus := t.busStatus, result := .none } ∧
    ∀ k, t.codecStatus.getLsbD k = (s.codecStatus.getLsbD k && !cmask.getLsbD k) ∧
      t.busStatus.getLsbD k = (s.busStatus.getLsbD k && !bmask.getLsbD k)

/-! ## Payload formats and the host -/

/-- Bit packing: unpacking what was packed gives the booleans back; packing what was unpacked gives the bytes back exactly
where they are just enough and the unused high bits of the last one are 0 (the spec's own inference,
`43_payload_formats.md`, "Bit-packing round trip"). -/
def Obligations.PackAndUnpackAgree : Prop :=
  (∀ d : List Bool, (pack d).length = (d.length + 7) / 8 ∧ unpack (pack d) d.length = d) ∧
  ∀ (s : Bytes) (n : Nat), pack (unpack s n) = s ↔
    s.length = (n + 7) / 8 ∧ ∀ k, n ≤ k → k < 8 * s.length → (s.getD (k / 8) 0).getLsbD (k % 8) = false

/-- An incoming payload with the expected tag and layout is parsed field by field and committed: inbound record replaced,
mirror updated, time stamped with a clock that never runs back; the block's own state is untouched. -/
def Obligations.IncomingPayloadIsCommitted : Prop :=
  ∀ (s : State) (ft fl r3 r4 : Byte) (analog digital : Bytes), analog.length = s.params.nAnalog →
    digital.length = s.params.digBytes →
    ∃ t : State, exec (.payloadIn ft fl r3 r4 analog digital) s = .next t ∧
      t = { s with telemetry := t.telemetry, draws := s.draws + 1, result := .accepted } ∧
      t.telemetry.incoming =
        { fieldTime := ft, canMove := fl.getLsbD 0, isAutonomous := fl.getLsbD 1, isBlue := fl.getLsbD 2,
          analog := analog, digital := unpack digital s.params.nDigital } ∧
      t.telemetry.outgoing = { analog := analog, digital := unpack digital s.params.nDigital } ∧
      t.telemetry.lastUpdate = t.telemetry.clock ∧ s.telemetry.clock ≤ t.telemetry.clock

/-- `ParseIncoming` rejects a short payload and one whose tag is not the expected one, the outgoing payloads among them;
extra bytes are ignored. -/
def Obligations.ParseRejectsWhatItMust : Prop :=
  ∀ (p : Params) (bs extra : Bytes), p.identIn ≠ p.identOut →
    (bs.length < 5 + p.nAnalog + p.digBytes → parseIncoming p bs = none) ∧
    (bs.head? ≠ some p.identIn → parseIncoming p bs = none) ∧
    (∀ t : Outgoing, parseIncoming p (buildOutgoing p t) = none) ∧
    (5 + p.nAnalog + p.digBytes ≤ bs.length → parseIncoming p (bs ++ extra) = parseIncoming p bs)

/-- `PollIncoming` on a chunk in which no frame is accepted is just the chunk; on an accepted frame it acknowledges it and
parses the committed payload, and on `reject` the host's records are unchanged. -/
def Obligations.PollParsesTheCommittedPayload : Prop :=
  ∀ (s t : State) (bs : Bytes), exec (.rxChunk bs) s = .next t →
    (t.result = .chunk false → pollIncoming bs s = t) ∧
    (t.result = .chunk true → parseIncoming t.params (t.frPayload.bytes t.frPlen.toNat) = none →
      pollIncoming bs s = { t with frNew := false, result := .rejected }) ∧
    (t.result = .chunk true → ∀ st, parseIncoming t.params (t.frPayload.bytes t.frPlen.toNat) = some st →
      (pollIncoming bs s).telemetry.incoming = st ∧
      (pollIncoming bs s).telemetry.outgoing = { analog := st.analog, digital := st.digital } ∧
      (pollIncoming bs s).frNew = false)

/-- Echo: after an accepted payload, what the host sends next is `IDENT_OUT`, the analog bytes as received, and the
digital values packed again: this frame is emitted on `tx_out` and is the operation's result (the spec's own inference,
`43_payload_formats.md`, "Echo"; the field `result` is assumption log 3). Where the host's records have their fixed sizes, as
in every state a run reaches, the outgoing payload has `1 + A + DB` bytes. -/
def Obligations.OutgoingTelemetryEchoes : Prop :=
  (∀ (s t : State) (ft fl r3 r4 : Byte) (analog digital : Bytes), s.peerValid = true →
    analog.length = s.params.nAnalog → digital.length = s.params.digBytes →
    1 + s.params.nAnalog + s.params.digBytes ≤ s.params.txPayloadMax →
    exec (.payloadIn ft fl r3 r4 analog digital) s = .next t →
    let frame := encodeFrame s.params s.peerAddr (BitVec.ofNat 8 s.txFid.toNat)
      (s.params.identOut :: (analog ++ pack (unpack digital s.params.nDigital)))
    (sendOutgoing t).result = .emitted frame ∧ (sendOutgoing t).txOut = s.txOut ++ frame) ∧
  ∀ s : State, s.HostInv →
    (buildOutgoing s.params s.telemetry.outgoing).length = 1 + s.params.nAnalog + s.params.digBytes

/-- The watchdog: the effective `canMove` of a tick is false once the last update is older than the window, and the field's
value while it is fresh; a tick under way keeps the value it began with. -/
def Obligations.WatchdogOverridesStaleCanMove : Prop :=
  ∀ (now : Nat) (sup : Supervisor) (s : State),
    let canMove := (supervisorTick now sup s).1.prevCanMove
    (sup.todo = [] → s.params.heartbeatTimeoutMs < now - s.telemetry.lastUpdate → canMove = false) ∧
    (sup.todo = [] → now - s.telemetry.lastUpdate ≤ s.params.heartbeatTimeoutMs →
      canMove = s.telemetry.incoming.canMove) ∧
    (sup.todo ≠ [] → canMove = sup.prevCanMove)

/-- Every tick makes one `Write()` or one `Kill()` on every actuator, by the effective `canMove`; `Revive()` is called
exactly on a false to true edge, before them. The calls a tick has made and those it still owes are together, in registry
order, exactly these, from its beginning to its end: a tick whose call is blocked waits, loses none, and does nothing until
the call returns; where its call has returned, no request is pending and the bus is free, it ends at once. -/
def Obligations.TickWritesOrKillsEveryActuator : Prop :=
  ∀ (now : Nat) (sup : Supervisor) (s : State),
    let r := supervisorTick now sup s
    let canMove := r.1.prevCanMove
    let calls := r.1.calls ++ r.1.owed
    (sup.todo = [] →
      calls = tickCalls sup.prevCanMove canMove sup.registry.length ∧
      ∀ j : Nat,
        calls.count (.write j) = (if canMove = true ∧ j < sup.registry.length then 1 else 0) ∧
        calls.count (.kill j) = (if canMove = false ∧ j < sup.registry.length then 1 else 0) ∧
        calls.count (.revive j) =
          (if sup.prevCanMove = false ∧ canMove = true ∧ j < sup.registry.length then 1 else 0)) ∧
    (sup.todo ≠ [] → calls = sup.calls ++ sup.owed) ∧
    (r.1.todo = [] → calls = r.1.calls) ∧
    (∀ a idx as, sup.todo = (a, idx) :: as →
      (if sup.waiting then (s.req a.requester).done = false else (s.req a.requester).pending = true) → r = (sup, s)) ∧
    (ReqFile.wf s.reqs → sup.todo = [] → r.1.waiting = true →
      ∃ a idx as, r.1.todo = (a, idx) :: as ∧ (r.2.req a.requester).pending = true) ∧
    (ReqFile.wf s.reqs → s.busBusy = false → (∀ j, (s.req j).pending = false) →
      (∀ a idx as, sup.todo = (a, idx) :: as → sup.waiting = true → (s.req a.requester).done = true) → r.1.todo = [])
end

