-- ==== Sys2Proof/Laws/Cells.lean ====
section
/-! SUPPORT. The laws of canonical cell lists, of the byte spaces and of the requesters' registers. -/

namespace Sys2Proof.Machine

section cells

variable {α : Type} {d v : α} {k j : Nat} {m : List (Nat × α)}

/-- An index below every listed one is not listed. -/
theorem cellGet_of_lt (h : ∀ e ∈ m, k < e.1) : cellGet d m k = d := by
  induction m with
  | nil => rfl
  | cons c m ih =>
    have hc := h c (List.mem_cons_self ..)
    rw [cellGet, if_neg (by omega)]
    exact ih fun e he => h e (List.mem_cons_of_mem _ he)

variable [DecidableEq α]

theorem cellsWf_cons {c : Nat × α} :
    cellsWf d (c :: m) ↔ (∀ e ∈ m, c.1 < e.1) ∧ c.2 ≠ d ∧ cellsWf d m := by
  simp only [cellsWf, List.pairwise_cons, List.forall_mem_cons]
  tauto

/-- A write adds no cell but the one it writes. -/
theorem mem_cellPut {e : Nat × α} (h : e ∈ cellPut d k v m) : e = (k, v) ∧ v ≠ d ∨ e ∈ m := by
  induction m with
  | nil =>
    simp only [cellPut] at h
    split at h <;> simp_all
  | cons c m ih =>
    simp only [cellPut] at h
    split at h
    · split at h <;> simp_all
    · split at h
      · split at h
        · exact .inr (List.mem_cons_of_mem _ h)
        · simp only [List.mem_cons] at h ⊢
          rcases h with h | h
          · exact .inl ⟨h, by assumption⟩
          · exact .inr (.inr h)
      · rcases List.mem_cons.mp h with h | h
        · exact .inr (by simp [h])
        · rcases ih h with h | h
          · exact .inl h
          · exact .inr (List.mem_cons_of_mem _ h)

/-- Every write keeps the canonical form. -/
theorem cellPut_wf (h : cellsWf d m) : cellsWf d (cellPut d k v m) := by
  induction m with
  | nil =>
    simp only [cellPut]
    split
    · exact h
    · exact ⟨by simp, by simpa using ‹_›⟩
  | cons c m ih =>
    obtain ⟨hlt, hc, hm⟩ := cellsWf_cons.mp h
    simp only [cellPut]
    split
    · split
      · exact h
      · refine cellsWf_cons.mpr ⟨?_, ‹_›, h⟩
        intro e he
        rcases List.mem_cons.mp he with rfl | he
        · assumption
        · exact Nat.lt_trans ‹k < c.1› (hlt e he)
    · split
      · split
        · exact hm
        · exact cellsWf_cons.mpr ⟨fun e he => by have := hlt e he; simp_all, ‹_›, hm⟩
      · refine cellsWf_cons.mpr ⟨?_, hc, ih hm⟩
        intro e he
        rcases mem_cellPut he with ⟨rfl, -⟩ | he
        · simp only; omega
        · exact hlt e he

/-- Read after write, at the written index and elsewhere. -/
theorem cellGet_cellPut (h : cellsWf d m) :
    cellGet d (cellPut d k v m) j = if j = k then v else cellGet d m j := by
  induction m with
  | nil =>
    simp only [cellPut]
    split
    · simp_all [cellGet]
    · simp only [cellGet]
      by_cases hjk : j = k
      · simp [hjk]
      · simp [hjk, Ne.symm hjk]
  | cons c m ih =>
    obtain ⟨hlt, hc, hm⟩ := cellsWf_cons.mp h
    simp only [cellPut]
    split
    · rename_i hk
      have hnot : cellGet d (c :: m) k = d := cellGet_of_lt fun e he => by
        rcases List.mem_cons.mp he with rfl | he
        · exact hk
        · exact Nat.lt_trans hk (hlt e he)
      split
      · by_cases hjk : j = k
        · simp_all
        · simp [hjk]
      · by_cases hjk : j = k
        · simp [hjk, cellGet]
        · simp [hjk, cellGet, Ne.symm hjk]
    · split
      · rename_i _ hk
        split
        · by_cases hjk : j = k
          · subst hk hjk
            simp only [if_true]
            rw [cellGet_of_lt hlt]
            simp_all
          · have : c.1 ≠ j := by omega
            simp [hjk, cellGet, this]
        · by_cases hjk : j = k
          · simp [hjk, cellGet]
          · have h1 : k ≠ j := Ne.symm hjk
            have h2 : c.1 ≠ j := by omega
            simp [hjk, cellGet, h1, h2]
      · by_cases hcj : c.1 = j
        · have hjk : j ≠ k := by omega
          simp [cellGet, hcj, hjk]
        · simp [cellGet, hcj, ih hm]

/-- A listed cell is what its index reads as. -/
theorem cellGet_of_mem {e : Nat × α} (h : cellsWf d m) (he : e ∈ m) : cellGet d m e.1 = e.2 := by
  induction m with
  | nil => cases he
  | cons c m ih =>
    obtain ⟨hlt, -, hm⟩ := cellsWf_cons.mp h
    rcases List.mem_cons.mp he with rfl | he
    · simp [cellGet]
    · have := hlt e he
      rw [cellGet, if_neg (by omega), ih hm he]

/-- Equal contents are equal data: two canonical lists that read alike are one list. -/
theorem cells_ext {m n : List (Nat × α)} (hm : cellsWf d m) (hn : cellsWf d n)
    (h : ∀ k, cellGet d m k = cellGet d n k) : m = n := by
  induction m generalizing n with
  | nil =>
    cases n with
    | nil => rfl
    | cons c n =>
      have hc := (cellsWf_cons.mp hn).2.1
      have := h c.1
      simp [cellGet] at this
      exact absurd this.symm hc
  | cons a m ih =>
    obtain ⟨hlt, ha, hm'⟩ := cellsWf_cons.mp hm
    cases n with
    | nil =>
      have := h a.1
      simp [cellGet] at this
      exact absurd this ha
    | cons c n =>
      obtain ⟨hlt', hc, hn'⟩ := cellsWf_cons.mp hn
      have hk : a.1 = c.1 := by
        rcases Nat.lt_trichotomy a.1 c.1 with hl | he | hg
        · have h1 := h a.1
          rw [cellGet_of_lt (m := c :: n) fun e he => by
            rcases List.mem_cons.mp he with rfl | he
            · exact hl
            · exact Nat.lt_trans hl (hlt' e he)] at h1
          simp [cellGet] at h1
          exact absurd h1 ha
        · exact he
        · have h1 := h c.1
          rw [cellGet_of_lt (m := a :: m) fun e he => by
            rcases List.mem_cons.mp he with rfl | he
            · exact hg
            · exact Nat.lt_trans hg (hlt e he)] at h1
          simp [cellGet] at h1
          exact absurd h1.symm hc
      have hv : a.2 = c.2 := by
        have := h a.1
        simpa [cellGet, hk] using this
      have hac : a = c := Prod.ext hk hv
      subst hac
      congr 1
      refine ih hm' hn' fun k => ?_
      by_cases hka : a.1 = k
      · rw [cellGet_of_lt fun e he => hka ▸ hlt e he, cellGet_of_lt fun e he => hka ▸ hlt' e he]
      · simpa [cellGet, hka] using h k

end cells

/-! ## The byte spaces -/

/-- `MemRead` after `MemWrite` (R16). -/
theorem Memory.read_write {m : Memory} (h : m.wf) (i j : Nat) (v : Byte) :
    (m.write i v).read j = if j = i then v else m.read j := cellGet_cellPut h

/-- A write keeps the canonical form. -/
theorem Memory.write_wf {m : Memory} (h : m.wf) (i : Nat) (v : Byte) : (m.write i v).wf := cellPut_wf h

/-- A write lists no index but the one it writes. -/
theorem Memory.mem_write {m : Memory} {i : Nat} {v : Byte} {c : Host.Cell} (h : c ∈ m.write i v) :
    c.1 = i ∨ c ∈ m := by
  rcases mem_cellPut h with ⟨rfl, -⟩ | h
  · exact .inl rfl
  · exact .inr h

/-- The copy keeps the canonical form. -/
theorem Memory.copy_wf (src : Memory) {dst : Memory} (h : dst.wf) (n : Nat) : (Memory.copy src dst n).wf := by
  induction n with
  | zero => exact h
  | succ n ih => exact Memory.write_wf ih n _

/-- What the copy of R136 leaves: the source below `n`, the destination as it was from `n` on. -/
theorem Memory.read_copy (src : Memory) {dst : Memory} (h : dst.wf) (n j : Nat) :
    (Memory.copy src dst n).read j = if j < n then src.read j else dst.read j := by
  induction n with
  | zero => simp [Memory.copy]
  | succ n ih =>
    rw [Memory.copy, Memory.read_write (Memory.copy_wf src h n), ih]
    by_cases h1 : j = n
    · simp [h1]
    · by_cases h2 : j < n
      · simp [h1, h2, Nat.lt_succ_of_lt h2]
      · have : ¬ j < n + 1 := by omega
        simp [h1, h2, this]

/-- The copy lists only indices below `n` beside the destination's. -/
theorem Memory.mem_copy (src : Memory) {dst : Memory} {n : Nat} {c : Host.Cell} (h : c ∈ Memory.copy src dst n) :
    c.1 < n ∨ c ∈ dst := by
  induction n with
  | zero => exact .inr h
  | succ n ih =>
    rcases Memory.mem_write h with h | h
    · exact .inl (by omega)
    · rcases ih h with h | h
      · exact .inl (by omega)
      · exact .inr h

@[simp] theorem Memory.length_bytes (m : Memory) (n : Nat) : (m.bytes n).length = n := by simp [Memory.bytes]

/-- The bytes of a space are a given string where every index reads that string's byte. -/
theorem Memory.bytes_eq {m : Memory} {bs : Bytes} (h : ∀ i, (hi : i < bs.length) → m.read i = bs[i]) :
    m.bytes bs.length = bs := by
  apply List.ext_getElem (by simp)
  intro i h1 h2
  simp only [Memory.bytes, List.getElem_map, List.getElem_range]
  exact h i h2

/-! ## The requesters' registers -/

/-- A register of a requester after a write. -/
theorem State.req_setReq {s : State} (h : ReqFile.wf s.reqs) (r j : Nat) (q : Req) :
    (s.setReq r q).req j = if j = r then q else s.req j := cellGet_cellPut h

/-- A write keeps the canonical form. -/
theorem State.setReq_wf {s : State} (h : ReqFile.wf s.reqs) (r : Nat) (q : Req) : ReqFile.wf (s.setReq r q).reqs :=
  cellPut_wf h

end Sys2Proof.Machine
end

