-- ==== Sys2Proof/Laws/State.lean ====
section
/-! SUPPORT. One lemma per field per named update of the state, true by `rfl`, so that no proof unfolds a record update. -/

namespace Sys2Proof.Machine

/-! ## raise -/

@[simp] theorem State.raise_params (s : State) (c : Cause) : (s.raise c).params = s.params := rfl
@[simp] theorem State.raise_rxState (s : State) (c : Cause) : (s.raise c).rxState = s.rxState := rfl
@[simp] theorem State.raise_rxLen (s : State) (c : Cause) : (s.raise c).rxLen = s.rxLen := rfl
@[simp] theorem State.raise_rxCnt (s : State) (c : Cause) : (s.raise c).rxCnt = s.rxCnt := rfl
@[simp] theorem State.raise_rxSum (s : State) (c : Cause) : (s.raise c).rxSum = s.rxSum := rfl
@[simp] theorem State.raise_rxType (s : State) (c : Cause) : (s.raise c).rxType = s.rxType := rfl
@[simp] theorem State.raise_rxPlen (s : State) (c : Cause) : (s.raise c).rxPlen = s.rxPlen := rfl
@[simp] theorem State.raise_rxSrc (s : State) (c : Cause) : (s.raise c).rxSrc = s.rxSrc := rfl
@[simp] theorem State.raise_rxQuality (s : State) (c : Cause) : (s.raise c).rxQuality = s.rxQuality := rfl
@[simp] theorem State.raise_rxOptions (s : State) (c : Cause) : (s.raise c).rxOptions = s.rxOptions := rfl
@[simp] theorem State.raise_rxCk (s : State) (c : Cause) : (s.raise c).rxCk = s.rxCk := rfl
@[simp] theorem State.raise_rxBuf (s : State) (c : Cause) : (s.raise c).rxBuf = s.rxBuf := rfl
@[simp] theorem State.raise_peerValid (s : State) (c : Cause) : (s.raise c).peerValid = s.peerValid := rfl
@[simp] theorem State.raise_peerAddr (s : State) (c : Cause) : (s.raise c).peerAddr = s.peerAddr := rfl
@[simp] theorem State.raise_frValid (s : State) (c : Cause) : (s.raise c).frValid = s.frValid := rfl
@[simp] theorem State.raise_frNew (s : State) (c : Cause) : (s.raise c).frNew = s.frNew := rfl
@[simp] theorem State.raise_frPlen (s : State) (c : Cause) : (s.raise c).frPlen = s.frPlen := rfl
@[simp] theorem State.raise_frPayload (s : State) (c : Cause) : (s.raise c).frPayload = s.frPayload := rfl
@[simp] theorem State.raise_frSrc (s : State) (c : Cause) : (s.raise c).frSrc = s.frSrc := rfl
@[simp] theorem State.raise_frQuality (s : State) (c : Cause) : (s.raise c).frQuality = s.frQuality := rfl
@[simp] theorem State.raise_frOptions (s : State) (c : Cause) : (s.raise c).frOptions = s.frOptions := rfl
@[simp] theorem State.raise_frCk (s : State) (c : Cause) : (s.raise c).frCk = s.frCk := rfl
@[simp] theorem State.raise_frCkOk (s : State) (c : Cause) : (s.raise c).frCkOk = s.frCkOk := rfl
@[simp] theorem State.raise_frSrcIsPeer (s : State) (c : Cause) : (s.raise c).frSrcIsPeer = s.frSrcIsPeer := rfl
@[simp] theorem State.raise_codecStatus (s : State) (c : Cause) : (s.raise c).codecStatus = s.codecStatus ||| codecBit c := rfl
@[simp] theorem State.raise_txFid (s : State) (c : Cause) : (s.raise c).txFid = s.txFid := rfl
@[simp] theorem State.raise_txOut (s : State) (c : Cause) : (s.raise c).txOut = s.txOut := rfl
@[simp] theorem State.raise_busBusy (s : State) (c : Cause) : (s.raise c).busBusy = s.busBusy := rfl
@[simp] theorem State.raise_busOwner (s : State) (c : Cause) : (s.raise c).busOwner = s.busOwner := rfl
@[simp] theorem State.raise_busIdx (s : State) (c : Cause) : (s.raise c).busIdx = s.busIdx := rfl
@[simp] theorem State.raise_busFail (s : State) (c : Cause) : (s.raise c).busFail = s.busFail := rfl
@[simp] theorem State.raise_busCfgValid (s : State) (c : Cause) : (s.raise c).busCfgValid = s.busCfgValid := rfl
@[simp] theorem State.raise_busCfg (s : State) (c : Cause) : (s.raise c).busCfg = s.busCfg := rfl
@[simp] theorem State.raise_reqs (s : State) (c : Cause) : (s.raise c).reqs = s.reqs := rfl
@[simp] theorem State.raise_busStatus (s : State) (c : Cause) : (s.raise c).busStatus = s.busStatus ||| busBit c := rfl
@[simp] theorem State.raise_busOut (s : State) (c : Cause) : (s.raise c).busOut = s.busOut := rfl
@[simp] theorem State.raise_telemetry (s : State) (c : Cause) : (s.raise c).telemetry = s.telemetry := rfl
@[simp] theorem State.raise_inbox (s : State) (c : Cause) : (s.raise c).inbox = s.inbox := rfl
@[simp] theorem State.raise_result (s : State) (c : Cause) : (s.raise c).result = s.result := rfl
@[simp] theorem State.raise_draws (s : State) (c : Cause) : (s.raise c).draws = s.draws := rfl
@[simp] theorem State.raise_raised (s : State) (c : Cause) : (s.raise c).raised = s.raised ++ [c] := rfl
@[simp] theorem State.raise_windows (s : State) (c : Cause) : (s.raise c).windows = s.windows := rfl

/-! ## clearStatus -/

@[simp] theorem State.clearStatus_params (s : State) (m n : Byte) : (s.clearStatus m n).params = s.params := rfl
@[simp] theorem State.clearStatus_rxState (s : State) (m n : Byte) : (s.clearStatus m n).rxState = s.rxState := rfl
@[simp] theorem State.clearStatus_rxLen (s : State) (m n : Byte) : (s.clearStatus m n).rxLen = s.rxLen := rfl
@[simp] theorem State.clearStatus_rxCnt (s : State) (m n : Byte) : (s.clearStatus m n).rxCnt = s.rxCnt := rfl
@[simp] theorem State.clearStatus_rxSum (s : State) (m n : Byte) : (s.clearStatus m n).rxSum = s.rxSum := rfl
@[simp] theorem State.clearStatus_rxType (s : State) (m n : Byte) : (s.clearStatus m n).rxType = s.rxType := rfl
@[simp] theorem State.clearStatus_rxPlen (s : State) (m n : Byte) : (s.clearStatus m n).rxPlen = s.rxPlen := rfl
@[simp] theorem State.clearStatus_rxSrc (s : State) (m n : Byte) : (s.clearStatus m n).rxSrc = s.rxSrc := rfl
@[simp] theorem State.clearStatus_rxQuality (s : State) (m n : Byte) : (s.clearStatus m n).rxQuality = s.rxQuality := rfl
@[simp] theorem State.clearStatus_rxOptions (s : State) (m n : Byte) : (s.clearStatus m n).rxOptions = s.rxOptions := rfl
@[simp] theorem State.clearStatus_rxCk (s : State) (m n : Byte) : (s.clearStatus m n).rxCk = s.rxCk := rfl
@[simp] theorem State.clearStatus_rxBuf (s : State) (m n : Byte) : (s.clearStatus m n).rxBuf = s.rxBuf := rfl
@[simp] theorem State.clearStatus_peerValid (s : State) (m n : Byte) : (s.clearStatus m n).peerValid = s.peerValid := rfl
@[simp] theorem State.clearStatus_peerAddr (s : State) (m n : Byte) : (s.clearStatus m n).peerAddr = s.peerAddr := rfl
@[simp] theorem State.clearStatus_frValid (s : State) (m n : Byte) : (s.clearStatus m n).frValid = s.frValid := rfl
@[simp] theorem State.clearStatus_frNew (s : State) (m n : Byte) : (s.clearStatus m n).frNew = s.frNew := rfl
@[simp] theorem State.clearStatus_frPlen (s : State) (m n : Byte) : (s.clearStatus m n).frPlen = s.frPlen := rfl
@[simp] theorem State.clearStatus_frPayload (s : State) (m n : Byte) : (s.clearStatus m n).frPayload = s.frPayload := rfl
@[simp] theorem State.clearStatus_frSrc (s : State) (m n : Byte) : (s.clearStatus m n).frSrc = s.frSrc := rfl
@[simp] theorem State.clearStatus_frQuality (s : State) (m n : Byte) : (s.clearStatus m n).frQuality = s.frQuality := rfl
@[simp] theorem State.clearStatus_frOptions (s : State) (m n : Byte) : (s.clearStatus m n).frOptions = s.frOptions := rfl
@[simp] theorem State.clearStatus_frCk (s : State) (m n : Byte) : (s.clearStatus m n).frCk = s.frCk := rfl
@[simp] theorem State.clearStatus_frCkOk (s : State) (m n : Byte) : (s.clearStatus m n).frCkOk = s.frCkOk := rfl
@[simp] theorem State.clearStatus_frSrcIsPeer (s : State) (m n : Byte) : (s.clearStatus m n).frSrcIsPeer = s.frSrcIsPeer := rfl
@[simp] theorem State.clearStatus_codecStatus (s : State) (m n : Byte) : (s.clearStatus m n).codecStatus = s.codecStatus &&& ~~~m := rfl
@[simp] theorem State.clearStatus_txFid (s : State) (m n : Byte) : (s.clearStatus m n).txFid = s.txFid := rfl
@[simp] theorem State.clearStatus_txOut (s : State) (m n : Byte) : (s.clearStatus m n).txOut = s.txOut := rfl
@[simp] theorem State.clearStatus_busBusy (s : State) (m n : Byte) : (s.clearStatus m n).busBusy = s.busBusy := rfl
@[simp] theorem State.clearStatus_busOwner (s : State) (m n : Byte) : (s.clearStatus m n).busOwner = s.busOwner := rfl
@[simp] theorem State.clearStatus_busIdx (s : State) (m n : Byte) : (s.clearStatus m n).busIdx = s.busIdx := rfl
@[simp] theorem State.clearStatus_busFail (s : State) (m n : Byte) : (s.clearStatus m n).busFail = s.busFail := rfl
@[simp] theorem State.clearStatus_busCfgValid (s : State) (m n : Byte) : (s.clearStatus m n).busCfgValid = s.busCfgValid := rfl
@[simp] theorem State.clearStatus_busCfg (s : State) (m n : Byte) : (s.clearStatus m n).busCfg = s.busCfg := rfl
@[simp] theorem State.clearStatus_reqs (s : State) (m n : Byte) : (s.clearStatus m n).reqs = s.reqs := rfl
@[simp] theorem State.clearStatus_busStatus (s : State) (m n : Byte) : (s.clearStatus m n).busStatus = s.busStatus &&& ~~~n := rfl
@[simp] theorem State.clearStatus_busOut (s : State) (m n : Byte) : (s.clearStatus m n).busOut = s.busOut := rfl
@[simp] theorem State.clearStatus_telemetry (s : State) (m n : Byte) : (s.clearStatus m n).telemetry = s.telemetry := rfl
@[simp] theorem State.clearStatus_inbox (s : State) (m n : Byte) : (s.clearStatus m n).inbox = s.inbox := rfl
@[simp] theorem State.clearStatus_result (s : State) (m n : Byte) : (s.clearStatus m n).result = s.result := rfl
@[simp] theorem State.clearStatus_draws (s : State) (m n : Byte) : (s.clearStatus m n).draws = s.draws := rfl
@[simp] theorem State.clearStatus_raised (s : State) (m n : Byte) : (s.clearStatus m n).raised = s.raised := rfl
@[simp] theorem State.clearStatus_windows (s : State) (m n : Byte) : (s.clearStatus m n).windows = s.windows := rfl

/-! ## answer -/

@[simp] theorem State.answer_params (s : State) (r : OpResult) : (s.answer r).params = s.params := rfl
@[simp] theorem State.answer_rxState (s : State) (r : OpResult) : (s.answer r).rxState = s.rxState := rfl
@[simp] theorem State.answer_rxLen (s : State) (r : OpResult) : (s.answer r).rxLen = s.rxLen := rfl
@[simp] theorem State.answer_rxCnt (s : State) (r : OpResult) : (s.answer r).rxCnt = s.rxCnt := rfl
@[simp] theorem State.answer_rxSum (s : State) (r : OpResult) : (s.answer r).rxSum = s.rxSum := rfl
@[simp] theorem State.answer_rxType (s : State) (r : OpResult) : (s.answer r).rxType = s.rxType := rfl
@[simp] theorem State.answer_rxPlen (s : State) (r : OpResult) : (s.answer r).rxPlen = s.rxPlen := rfl
@[simp] theorem State.answer_rxSrc (s : State) (r : OpResult) : (s.answer r).rxSrc = s.rxSrc := rfl
@[simp] theorem State.answer_rxQuality (s : State) (r : OpResult) : (s.answer r).rxQuality = s.rxQuality := rfl
@[simp] theorem State.answer_rxOptions (s : State) (r : OpResult) : (s.answer r).rxOptions = s.rxOptions := rfl
@[simp] theorem State.answer_rxCk (s : State) (r : OpResult) : (s.answer r).rxCk = s.rxCk := rfl
@[simp] theorem State.answer_rxBuf (s : State) (r : OpResult) : (s.answer r).rxBuf = s.rxBuf := rfl
@[simp] theorem State.answer_peerValid (s : State) (r : OpResult) : (s.answer r).peerValid = s.peerValid := rfl
@[simp] theorem State.answer_peerAddr (s : State) (r : OpResult) : (s.answer r).peerAddr = s.peerAddr := rfl
@[simp] theorem State.answer_frValid (s : State) (r : OpResult) : (s.answer r).frValid = s.frValid := rfl
@[simp] theorem State.answer_frNew (s : State) (r : OpResult) : (s.answer r).frNew = s.frNew := rfl
@[simp] theorem State.answer_frPlen (s : State) (r : OpResult) : (s.answer r).frPlen = s.frPlen := rfl
@[simp] theorem State.answer_frPayload (s : State) (r : OpResult) : (s.answer r).frPayload = s.frPayload := rfl
@[simp] theorem State.answer_frSrc (s : State) (r : OpResult) : (s.answer r).frSrc = s.frSrc := rfl
@[simp] theorem State.answer_frQuality (s : State) (r : OpResult) : (s.answer r).frQuality = s.frQuality := rfl
@[simp] theorem State.answer_frOptions (s : State) (r : OpResult) : (s.answer r).frOptions = s.frOptions := rfl
@[simp] theorem State.answer_frCk (s : State) (r : OpResult) : (s.answer r).frCk = s.frCk := rfl
@[simp] theorem State.answer_frCkOk (s : State) (r : OpResult) : (s.answer r).frCkOk = s.frCkOk := rfl
@[simp] theorem State.answer_frSrcIsPeer (s : State) (r : OpResult) : (s.answer r).frSrcIsPeer = s.frSrcIsPeer := rfl
@[simp] theorem State.answer_codecStatus (s : State) (r : OpResult) : (s.answer r).codecStatus = s.codecStatus := rfl
@[simp] theorem State.answer_txFid (s : State) (r : OpResult) : (s.answer r).txFid = s.txFid := rfl
@[simp] theorem State.answer_txOut (s : State) (r : OpResult) : (s.answer r).txOut = s.txOut := rfl
@[simp] theorem State.answer_busBusy (s : State) (r : OpResult) : (s.answer r).busBusy = s.busBusy := rfl
@[simp] theorem State.answer_busOwner (s : State) (r : OpResult) : (s.answer r).busOwner = s.busOwner := rfl
@[simp] theorem State.answer_busIdx (s : State) (r : OpResult) : (s.answer r).busIdx = s.busIdx := rfl
@[simp] theorem State.answer_busFail (s : State) (r : OpResult) : (s.answer r).busFail = s.busFail := rfl
@[simp] theorem State.answer_busCfgValid (s : State) (r : OpResult) : (s.answer r).busCfgValid = s.busCfgValid := rfl
@[simp] theorem State.answer_busCfg (s : State) (r : OpResult) : (s.answer r).busCfg = s.busCfg := rfl
@[simp] theorem State.answer_reqs (s : State) (r : OpResult) : (s.answer r).reqs = s.reqs := rfl
@[simp] theorem State.answer_busStatus (s : State) (r : OpResult) : (s.answer r).busStatus = s.busStatus := rfl
@[simp] theorem State.answer_busOut (s : State) (r : OpResult) : (s.answer r).busOut = s.busOut := rfl
@[simp] theorem State.answer_telemetry (s : State) (r : OpResult) : (s.answer r).telemetry = s.telemetry := rfl
@[simp] theorem State.answer_inbox (s : State) (r : OpResult) : (s.answer r).inbox = s.inbox := rfl
@[simp] theorem State.answer_result (s : State) (r : OpResult) : (s.answer r).result = r := rfl
@[simp] theorem State.answer_draws (s : State) (r : OpResult) : (s.answer r).draws = s.draws := rfl
@[simp] theorem State.answer_raised (s : State) (r : OpResult) : (s.answer r).raised = s.raised := rfl
@[simp] theorem State.answer_windows (s : State) (r : OpResult) : (s.answer r).windows = s.windows := rfl

/-! ## emitTx -/

@[simp] theorem State.emitTx_params (s : State) (f : Bytes) : (s.emitTx f).params = s.params := rfl
@[simp] theorem State.emitTx_rxState (s : State) (f : Bytes) : (s.emitTx f).rxState = s.rxState := rfl
@[simp] theorem State.emitTx_rxLen (s : State) (f : Bytes) : (s.emitTx f).rxLen = s.rxLen := rfl
@[simp] theorem State.emitTx_rxCnt (s : State) (f : Bytes) : (s.emitTx f).rxCnt = s.rxCnt := rfl
@[simp] theorem State.emitTx_rxSum (s : State) (f : Bytes) : (s.emitTx f).rxSum = s.rxSum := rfl
@[simp] theorem State.emitTx_rxType (s : State) (f : Bytes) : (s.emitTx f).rxType = s.rxType := rfl
@[simp] theorem State.emitTx_rxPlen (s : State) (f : Bytes) : (s.emitTx f).rxPlen = s.rxPlen := rfl
@[simp] theorem State.emitTx_rxSrc (s : State) (f : Bytes) : (s.emitTx f).rxSrc = s.rxSrc := rfl
@[simp] theorem State.emitTx_rxQuality (s : State) (f : Bytes) : (s.emitTx f).rxQuality = s.rxQuality := rfl
@[simp] theorem State.emitTx_rxOptions (s : State) (f : Bytes) : (s.emitTx f).rxOptions = s.rxOptions := rfl
@[simp] theorem State.emitTx_rxCk (s : State) (f : Bytes) : (s.emitTx f).rxCk = s.rxCk := rfl
@[simp] theorem State.emitTx_rxBuf (s : State) (f : Bytes) : (s.emitTx f).rxBuf = s.rxBuf := rfl
@[simp] theorem State.emitTx_peerValid (s : State) (f : Bytes) : (s.emitTx f).peerValid = s.peerValid := rfl
@[simp] theorem State.emitTx_peerAddr (s : State) (f : Bytes) : (s.emitTx f).peerAddr = s.peerAddr := rfl
@[simp] theorem State.emitTx_frValid (s : State) (f : Bytes) : (s.emitTx f).frValid = s.frValid := rfl
@[simp] theorem State.emitTx_frNew (s : State) (f : Bytes) : (s.emitTx f).frNew = s.frNew := rfl
@[simp] theorem State.emitTx_frPlen (s : State) (f : Bytes) : (s.emitTx f).frPlen = s.frPlen := rfl
@[simp] theorem State.emitTx_frPayload (s : State) (f : Bytes) : (s.emitTx f).frPayload = s.frPayload := rfl
@[simp] theorem State.emitTx_frSrc (s : State) (f : Bytes) : (s.emitTx f).frSrc = s.frSrc := rfl
@[simp] theorem State.emitTx_frQuality (s : State) (f : Bytes) : (s.emitTx f).frQuality = s.frQuality := rfl
@[simp] theorem State.emitTx_frOptions (s : State) (f : Bytes) : (s.emitTx f).frOptions = s.frOptions := rfl
@[simp] theorem State.emitTx_frCk (s : State) (f : Bytes) : (s.emitTx f).frCk = s.frCk := rfl
@[simp] theorem State.emitTx_frCkOk (s : State) (f : Bytes) : (s.emitTx f).frCkOk = s.frCkOk := rfl
@[simp] theorem State.emitTx_frSrcIsPeer (s : State) (f : Bytes) : (s.emitTx f).frSrcIsPeer = s.frSrcIsPeer := rfl
@[simp] theorem State.emitTx_codecStatus (s : State) (f : Bytes) : (s.emitTx f).codecStatus = s.codecStatus := rfl
@[simp] theorem State.emitTx_txFid (s : State) (f : Bytes) : (s.emitTx f).txFid = s.txFid := rfl
@[simp] theorem State.emitTx_txOut (s : State) (f : Bytes) : (s.emitTx f).txOut = s.txOut ++ f := rfl
@[simp] theorem State.emitTx_busBusy (s : State) (f : Bytes) : (s.emitTx f).busBusy = s.busBusy := rfl
@[simp] theorem State.emitTx_busOwner (s : State) (f : Bytes) : (s.emitTx f).busOwner = s.busOwner := rfl
@[simp] theorem State.emitTx_busIdx (s : State) (f : Bytes) : (s.emitTx f).busIdx = s.busIdx := rfl
@[simp] theorem State.emitTx_busFail (s : State) (f : Bytes) : (s.emitTx f).busFail = s.busFail := rfl
@[simp] theorem State.emitTx_busCfgValid (s : State) (f : Bytes) : (s.emitTx f).busCfgValid = s.busCfgValid := rfl
@[simp] theorem State.emitTx_busCfg (s : State) (f : Bytes) : (s.emitTx f).busCfg = s.busCfg := rfl
@[simp] theorem State.emitTx_reqs (s : State) (f : Bytes) : (s.emitTx f).reqs = s.reqs := rfl
@[simp] theorem State.emitTx_busStatus (s : State) (f : Bytes) : (s.emitTx f).busStatus = s.busStatus := rfl
@[simp] theorem State.emitTx_busOut (s : State) (f : Bytes) : (s.emitTx f).busOut = s.busOut := rfl
@[simp] theorem State.emitTx_telemetry (s : State) (f : Bytes) : (s.emitTx f).telemetry = s.telemetry := rfl
@[simp] theorem State.emitTx_inbox (s : State) (f : Bytes) : (s.emitTx f).inbox = s.inbox := rfl
@[simp] theorem State.emitTx_result (s : State) (f : Bytes) : (s.emitTx f).result = s.result := rfl
@[simp] theorem State.emitTx_draws (s : State) (f : Bytes) : (s.emitTx f).draws = s.draws := rfl
@[simp] theorem State.emitTx_raised (s : State) (f : Bytes) : (s.emitTx f).raised = s.raised := rfl
@[simp] theorem State.emitTx_windows (s : State) (f : Bytes) : (s.emitTx f).windows = s.windows := rfl

/-! ## emitBus -/

@[simp] theorem State.emitBus_params (s : State) (g : DeviceConfig) (w : Bytes) (o : XferOutcome) : (s.emitBus g w o).params = s.params := rfl
@[simp] theorem State.emitBus_rxState (s : State) (g : DeviceConfig) (w : Bytes) (o : XferOutcome) : (s.emitBus g w o).rxState = s.rxState := rfl
@[simp] theorem State.emitBus_rxLen (s : State) (g : DeviceConfig) (w : Bytes) (o : XferOutcome) : (s.emitBus g w o).rxLen = s.rxLen := rfl
@[simp] theorem State.emitBus_rxCnt (s : State) (g : DeviceConfig) (w : Bytes) (o : XferOutcome) : (s.emitBus g w o).rxCnt = s.rxCnt := rfl
@[simp] theorem State.emitBus_rxSum (s : State) (g : DeviceConfig) (w : Bytes) (o : XferOutcome) : (s.emitBus g w o).rxSum = s.rxSum := rfl
@[simp] theorem State.emitBus_rxType (s : State) (g : DeviceConfig) (w : Bytes) (o : XferOutcome) : (s.emitBus g w o).rxType = s.rxType := rfl
@[simp] theorem State.emitBus_rxPlen (s : State) (g : DeviceConfig) (w : Bytes) (o : XferOutcome) : (s.emitBus g w o).rxPlen = s.rxPlen := rfl
@[simp] theorem State.emitBus_rxSrc (s : State) (g : DeviceConfig) (w : Bytes) (o : XferOutcome) : (s.emitBus g w o).rxSrc = s.rxSrc := rfl
@[simp] theorem State.emitBus_rxQuality (s : State) (g : DeviceConfig) (w : Bytes) (o : XferOutcome) : (s.emitBus g w o).rxQuality = s.rxQuality := rfl
@[simp] theorem State.emitBus_rxOptions (s : State) (g : DeviceConfig) (w : Bytes) (o : XferOutcome) : (s.emitBus g w o).rxOptions = s.rxOptions := rfl
@[simp] theorem State.emitBus_rxCk (s : State) (g : DeviceConfig) (w : Bytes) (o : XferOutcome) : (s.emitBus g w o).rxCk = s.rxCk := rfl
@[simp] theorem State.emitBus_rxBuf (s : State) (g : DeviceConfig) (w : Bytes) (o : XferOutcome) : (s.emitBus g w o).rxBuf = s.rxBuf := rfl
@[simp] theorem State.emitBus_peerValid (s : State) (g : DeviceConfig) (w : Bytes) (o : XferOutcome) : (s.emitBus g w o).peerValid = s.peerValid := rfl
@[simp] theorem State.emitBus_peerAddr (s : State) (g : DeviceConfig) (w : Bytes) (o : XferOutcome) : (s.emitBus g w o).peerAddr = s.peerAddr := rfl
@[simp] theorem State.emitBus_frValid (s : State) (g : DeviceConfig) (w : Bytes) (o : XferOutcome) : (s.emitBus g w o).frValid = s.frValid := rfl
@[simp] theorem State.emitBus_frNew (s : State) (g : DeviceConfig) (w : Bytes) (o : XferOutcome) : (s.emitBus g w o).frNew = s.frNew := rfl
@[simp] theorem State.emitBus_frPlen (s : State) (g : DeviceConfig) (w : Bytes) (o : XferOutcome) : (s.emitBus g w o).frPlen = s.frPlen := rfl
@[simp] theorem State.emitBus_frPayload (s : State) (g : DeviceConfig) (w : Bytes) (o : XferOutcome) : (s.emitBus g w o).frPayload = s.frPayload := rfl
@[simp] theorem State.emitBus_frSrc (s : State) (g : DeviceConfig) (w : Bytes) (o : XferOutcome) : (s.emitBus g w o).frSrc = s.frSrc := rfl
@[simp] theorem State.emitBus_frQuality (s : State) (g : DeviceConfig) (w : Bytes) (o : XferOutcome) : (s.emitBus g w o).frQuality = s.frQuality := rfl
@[simp] theorem State.emitBus_frOptions (s : State) (g : DeviceConfig) (w : Bytes) (o : XferOutcome) : (s.emitBus g w o).frOptions = s.frOptions := rfl
@[simp] theorem State.emitBus_frCk (s : State) (g : DeviceConfig) (w : Bytes) (o : XferOutcome) : (s.emitBus g w o).frCk = s.frCk := rfl
@[simp] theorem State.emitBus_frCkOk (s : State) (g : DeviceConfig) (w : Bytes) (o : XferOutcome) : (s.emitBus g w o).frCkOk = s.frCkOk := rfl
@[simp] theorem State.emitBus_frSrcIsPeer (s : State) (g : DeviceConfig) (w : Bytes) (o : XferOutcome) : (s.emitBus g w o).frSrcIsPeer = s.frSrcIsPeer := rfl
@[simp] theorem State.emitBus_codecStatus (s : State) (g : DeviceConfig) (w : Bytes) (o : XferOutcome) : (s.emitBus g w o).codecStatus = s.codecStatus := rfl
@[simp] theorem State.emitBus_txFid (s : State) (g : DeviceConfig) (w : Bytes) (o : XferOutcome) : (s.emitBus g w o).txFid = s.txFid := rfl
@[simp] theorem State.emitBus_txOut (s : State) (g : DeviceConfig) (w : Bytes) (o : XferOutcome) : (s.emitBus g w o).txOut = s.txOut := rfl
@[simp] theorem State.emitBus_busBusy (s : State) (g : DeviceConfig) (w : Bytes) (o : XferOutcome) : (s.emitBus g w o).busBusy = s.busBusy := rfl
@[simp] theorem State.emitBus_busOwner (s : State) (g : DeviceConfig) (w : Bytes) (o : XferOutcome) : (s.emitBus g w o).busOwner = s.busOwner := rfl
@[simp] theorem State.emitBus_busIdx (s : State) (g : DeviceConfig) (w : Bytes) (o : XferOutcome) : (s.emitBus g w o).busIdx = s.busIdx := rfl
@[simp] theorem State.emitBus_busFail (s : State) (g : DeviceConfig) (w : Bytes) (o : XferOutcome) : (s.emitBus g w o).busFail = s.busFail := rfl
@[simp] theorem State.emitBus_busCfgValid (s : State) (g : DeviceConfig) (w : Bytes) (o : XferOutcome) : (s.emitBus g w o).busCfgValid = s.busCfgValid := rfl
@[simp] theorem State.emitBus_busCfg (s : State) (g : DeviceConfig) (w : Bytes) (o : XferOutcome) : (s.emitBus g w o).busCfg = s.busCfg := rfl
@[simp] theorem State.emitBus_reqs (s : State) (g : DeviceConfig) (w : Bytes) (o : XferOutcome) : (s.emitBus g w o).reqs = s.reqs := rfl
@[simp] theorem State.emitBus_busStatus (s : State) (g : DeviceConfig) (w : Bytes) (o : XferOutcome) : (s.emitBus g w o).busStatus = s.busStatus := rfl
@[simp] theorem State.emitBus_busOut (s : State) (g : DeviceConfig) (w : Bytes) (o : XferOutcome) : (s.emitBus g w o).busOut = s.busOut ++ [⟨g.devAddr, g.clkRate, w, o⟩] := rfl
@[simp] theorem State.emitBus_telemetry (s : State) (g : DeviceConfig) (w : Bytes) (o : XferOutcome) : (s.emitBus g w o).telemetry = s.telemetry := rfl
@[simp] theorem State.emitBus_inbox (s : State) (g : DeviceConfig) (w : Bytes) (o : XferOutcome) : (s.emitBus g w o).inbox = s.inbox := rfl
@[simp] theorem State.emitBus_result (s : State) (g : DeviceConfig) (w : Bytes) (o : XferOutcome) : (s.emitBus g w o).result = s.result := rfl
@[simp] theorem State.emitBus_draws (s : State) (g : DeviceConfig) (w : Bytes) (o : XferOutcome) : (s.emitBus g w o).draws = s.draws := rfl
@[simp] theorem State.emitBus_raised (s : State) (g : DeviceConfig) (w : Bytes) (o : XferOutcome) : (s.emitBus g w o).raised = s.raised := rfl
@[simp] theorem State.emitBus_windows (s : State) (g : DeviceConfig) (w : Bytes) (o : XferOutcome) : (s.emitBus g w o).windows = s.windows := rfl

/-! ## drew -/

@[simp] theorem State.drew_params (s : State) : (s.drew).params = s.params := rfl
@[simp] theorem State.drew_rxState (s : State) : (s.drew).rxState = s.rxState := rfl
@[simp] theorem State.drew_rxLen (s : State) : (s.drew).rxLen = s.rxLen := rfl
@[simp] theorem State.drew_rxCnt (s : State) : (s.drew).rxCnt = s.rxCnt := rfl
@[simp] theorem State.drew_rxSum (s : State) : (s.drew).rxSum = s.rxSum := rfl
@[simp] theorem State.drew_rxType (s : State) : (s.drew).rxType = s.rxType := rfl
@[simp] theorem State.drew_rxPlen (s : State) : (s.drew).rxPlen = s.rxPlen := rfl
@[simp] theorem State.drew_rxSrc (s : State) : (s.drew).rxSrc = s.rxSrc := rfl
@[simp] theorem State.drew_rxQuality (s : State) : (s.drew).rxQuality = s.rxQuality := rfl
@[simp] theorem State.drew_rxOptions (s : State) : (s.drew).rxOptions = s.rxOptions := rfl
@[simp] theorem State.drew_rxCk (s : State) : (s.drew).rxCk = s.rxCk := rfl
@[simp] theorem State.drew_rxBuf (s : State) : (s.drew).rxBuf = s.rxBuf := rfl
@[simp] theorem State.drew_peerValid (s : State) : (s.drew).peerValid = s.peerValid := rfl
@[simp] theorem State.drew_peerAddr (s : State) : (s.drew).peerAddr = s.peerAddr := rfl
@[simp] theorem State.drew_frValid (s : State) : (s.drew).frValid = s.frValid := rfl
@[simp] theorem State.drew_frNew (s : State) : (s.drew).frNew = s.frNew := rfl
@[simp] theorem State.drew_frPlen (s : State) : (s.drew).frPlen = s.frPlen := rfl
@[simp] theorem State.drew_frPayload (s : State) : (s.drew).frPayload = s.frPayload := rfl
@[simp] theorem State.drew_frSrc (s : State) : (s.drew).frSrc = s.frSrc := rfl
@[simp] theorem State.drew_frQuality (s : State) : (s.drew).frQuality = s.frQuality := rfl
@[simp] theorem State.drew_frOptions (s : State) : (s.drew).frOptions = s.frOptions := rfl
@[simp] theorem State.drew_frCk (s : State) : (s.drew).frCk = s.frCk := rfl
@[simp] theorem State.drew_frCkOk (s : State) : (s.drew).frCkOk = s.frCkOk := rfl
@[simp] theorem State.drew_frSrcIsPeer (s : State) : (s.drew).frSrcIsPeer = s.frSrcIsPeer := rfl
@[simp] theorem State.drew_codecStatus (s : State) : (s.drew).codecStatus = s.codecStatus := rfl
@[simp] theorem State.drew_txFid (s : State) : (s.drew).txFid = s.txFid := rfl
@[simp] theorem State.drew_txOut (s : State) : (s.drew).txOut = s.txOut := rfl
@[simp] theorem State.drew_busBusy (s : State) : (s.drew).busBusy = s.busBusy := rfl
@[simp] theorem State.drew_busOwner (s : State) : (s.drew).busOwner = s.busOwner := rfl
@[simp] theorem State.drew_busIdx (s : State) : (s.drew).busIdx = s.busIdx := rfl
@[simp] theorem State.drew_busFail (s : State) : (s.drew).busFail = s.busFail := rfl
@[simp] theorem State.drew_busCfgValid (s : State) : (s.drew).busCfgValid = s.busCfgValid := rfl
@[simp] theorem State.drew_busCfg (s : State) : (s.drew).busCfg = s.busCfg := rfl
@[simp] theorem State.drew_reqs (s : State) : (s.drew).reqs = s.reqs := rfl
@[simp] theorem State.drew_busStatus (s : State) : (s.drew).busStatus = s.busStatus := rfl
@[simp] theorem State.drew_busOut (s : State) : (s.drew).busOut = s.busOut := rfl
@[simp] theorem State.drew_telemetry (s : State) : (s.drew).telemetry = s.telemetry := rfl
@[simp] theorem State.drew_inbox (s : State) : (s.drew).inbox = s.inbox := rfl
@[simp] theorem State.drew_result (s : State) : (s.drew).result = s.result := rfl
@[simp] theorem State.drew_draws (s : State) : (s.drew).draws = s.draws + 1 := rfl
@[simp] theorem State.drew_raised (s : State) : (s.drew).raised = s.raised := rfl
@[simp] theorem State.drew_windows (s : State) : (s.drew).windows = s.windows := rfl

/-! ## setReq -/

@[simp] theorem State.setReq_params (s : State) (r : Nat) (q : Req) : (s.setReq r q).params = s.params := rfl
@[simp] theorem State.setReq_rxState (s : State) (r : Nat) (q : Req) : (s.setReq r q).rxState = s.rxState := rfl
@[simp] theorem State.setReq_rxLen (s : State) (r : Nat) (q : Req) : (s.setReq r q).rxLen = s.rxLen := rfl
@[simp] theorem State.setReq_rxCnt (s : State) (r : Nat) (q : Req) : (s.setReq r q).rxCnt = s.rxCnt := rfl
@[simp] theorem State.setReq_rxSum (s : State) (r : Nat) (q : Req) : (s.setReq r q).rxSum = s.rxSum := rfl
@[simp] theorem State.setReq_rxType (s : State) (r : Nat) (q : Req) : (s.setReq r q).rxType = s.rxType := rfl
@[simp] theorem State.setReq_rxPlen (s : State) (r : Nat) (q : Req) : (s.setReq r q).rxPlen = s.rxPlen := rfl
@[simp] theorem State.setReq_rxSrc (s : State) (r : Nat) (q : Req) : (s.setReq r q).rxSrc = s.rxSrc := rfl
@[simp] theorem State.setReq_rxQuality (s : State) (r : Nat) (q : Req) : (s.setReq r q).rxQuality = s.rxQuality := rfl
@[simp] theorem State.setReq_rxOptions (s : State) (r : Nat) (q : Req) : (s.setReq r q).rxOptions = s.rxOptions := rfl
@[simp] theorem State.setReq_rxCk (s : State) (r : Nat) (q : Req) : (s.setReq r q).rxCk = s.rxCk := rfl
@[simp] theorem State.setReq_rxBuf (s : State) (r : Nat) (q : Req) : (s.setReq r q).rxBuf = s.rxBuf := rfl
@[simp] theorem State.setReq_peerValid (s : State) (r : Nat) (q : Req) : (s.setReq r q).peerValid = s.peerValid := rfl
@[simp] theorem State.setReq_peerAddr (s : State) (r : Nat) (q : Req) : (s.setReq r q).peerAddr = s.peerAddr := rfl
@[simp] theorem State.setReq_frValid (s : State) (r : Nat) (q : Req) : (s.setReq r q).frValid = s.frValid := rfl
@[simp] theorem State.setReq_frNew (s : State) (r : Nat) (q : Req) : (s.setReq r q).frNew = s.frNew := rfl
@[simp] theorem State.setReq_frPlen (s : State) (r : Nat) (q : Req) : (s.setReq r q).frPlen = s.frPlen := rfl
@[simp] theorem State.setReq_frPayload (s : State) (r : Nat) (q : Req) : (s.setReq r q).frPayload = s.frPayload := rfl
@[simp] theorem State.setReq_frSrc (s : State) (r : Nat) (q : Req) : (s.setReq r q).frSrc = s.frSrc := rfl
@[simp] theorem State.setReq_frQuality (s : State) (r : Nat) (q : Req) : (s.setReq r q).frQuality = s.frQuality := rfl
@[simp] theorem State.setReq_frOptions (s : State) (r : Nat) (q : Req) : (s.setReq r q).frOptions = s.frOptions := rfl
@[simp] theorem State.setReq_frCk (s : State) (r : Nat) (q : Req) : (s.setReq r q).frCk = s.frCk := rfl
@[simp] theorem State.setReq_frCkOk (s : State) (r : Nat) (q : Req) : (s.setReq r q).frCkOk = s.frCkOk := rfl
@[simp] theorem State.setReq_frSrcIsPeer (s : State) (r : Nat) (q : Req) : (s.setReq r q).frSrcIsPeer = s.frSrcIsPeer := rfl
@[simp] theorem State.setReq_codecStatus (s : State) (r : Nat) (q : Req) : (s.setReq r q).codecStatus = s.codecStatus := rfl
@[simp] theorem State.setReq_txFid (s : State) (r : Nat) (q : Req) : (s.setReq r q).txFid = s.txFid := rfl
@[simp] theorem State.setReq_txOut (s : State) (r : Nat) (q : Req) : (s.setReq r q).txOut = s.txOut := rfl
@[simp] theorem State.setReq_busBusy (s : State) (r : Nat) (q : Req) : (s.setReq r q).busBusy = s.busBusy := rfl
@[simp] theorem State.setReq_busOwner (s : State) (r : Nat) (q : Req) : (s.setReq r q).busOwner = s.busOwner := rfl
@[simp] theorem State.setReq_busIdx (s : State) (r : Nat) (q : Req) : (s.setReq r q).busIdx = s.busIdx := rfl
@[simp] theorem State.setReq_busFail (s : State) (r : Nat) (q : Req) : (s.setReq r q).busFail = s.busFail := rfl
@[simp] theorem State.setReq_busCfgValid (s : State) (r : Nat) (q : Req) : (s.setReq r q).busCfgValid = s.busCfgValid := rfl
@[simp] theorem State.setReq_busCfg (s : State) (r : Nat) (q : Req) : (s.setReq r q).busCfg = s.busCfg := rfl
@[simp] theorem State.setReq_reqs (s : State) (r : Nat) (q : Req) : (s.setReq r q).reqs = cellPut Req.init r q s.reqs := rfl
@[simp] theorem State.setReq_busStatus (s : State) (r : Nat) (q : Req) : (s.setReq r q).busStatus = s.busStatus := rfl
@[simp] theorem State.setReq_busOut (s : State) (r : Nat) (q : Req) : (s.setReq r q).busOut = s.busOut := rfl
@[simp] theorem State.setReq_telemetry (s : State) (r : Nat) (q : Req) : (s.setReq r q).telemetry = s.telemetry := rfl
@[simp] theorem State.setReq_inbox (s : State) (r : Nat) (q : Req) : (s.setReq r q).inbox = s.inbox := rfl
@[simp] theorem State.setReq_result (s : State) (r : Nat) (q : Req) : (s.setReq r q).result = s.result := rfl
@[simp] theorem State.setReq_draws (s : State) (r : Nat) (q : Req) : (s.setReq r q).draws = s.draws := rfl
@[simp] theorem State.setReq_raised (s : State) (r : Nat) (q : Req) : (s.setReq r q).raised = s.raised := rfl
@[simp] theorem State.setReq_windows (s : State) (r : Nat) (q : Req) : (s.setReq r q).windows = s.windows := rfl

/-! ## popInbox -/

@[simp] theorem State.popInbox_params (s : State) : (s.popInbox).params = s.params := rfl
@[simp] theorem State.popInbox_rxState (s : State) : (s.popInbox).rxState = s.rxState := rfl
@[simp] theorem State.popInbox_rxLen (s : State) : (s.popInbox).rxLen = s.rxLen := rfl
@[simp] theorem State.popInbox_rxCnt (s : State) : (s.popInbox).rxCnt = s.rxCnt := rfl
@[simp] theorem State.popInbox_rxSum (s : State) : (s.popInbox).rxSum = s.rxSum := rfl
@[simp] theorem State.popInbox_rxType (s : State) : (s.popInbox).rxType = s.rxType := rfl
@[simp] theorem State.popInbox_rxPlen (s : State) : (s.popInbox).rxPlen = s.rxPlen := rfl
@[simp] theorem State.popInbox_rxSrc (s : State) : (s.popInbox).rxSrc = s.rxSrc := rfl
@[simp] theorem State.popInbox_rxQuality (s : State) : (s.popInbox).rxQuality = s.rxQuality := rfl
@[simp] theorem State.popInbox_rxOptions (s : State) : (s.popInbox).rxOptions = s.rxOptions := rfl
@[simp] theorem State.popInbox_rxCk (s : State) : (s.popInbox).rxCk = s.rxCk := rfl
@[simp] theorem State.popInbox_rxBuf (s : State) : (s.popInbox).rxBuf = s.rxBuf := rfl
@[simp] theorem State.popInbox_peerValid (s : State) : (s.popInbox).peerValid = s.peerValid := rfl
@[simp] theorem State.popInbox_peerAddr (s : State) : (s.popInbox).peerAddr = s.peerAddr := rfl
@[simp] theorem State.popInbox_frValid (s : State) : (s.popInbox).frValid = s.frValid := rfl
@[simp] theorem State.popInbox_frNew (s : State) : (s.popInbox).frNew = s.frNew := rfl
@[simp] theorem State.popInbox_frPlen (s : State) : (s.popInbox).frPlen = s.frPlen := rfl
@[simp] theorem State.popInbox_frPayload (s : State) : (s.popInbox).frPayload = s.frPayload := rfl
@[simp] theorem State.popInbox_frSrc (s : State) : (s.popInbox).frSrc = s.frSrc := rfl
@[simp] theorem State.popInbox_frQuality (s : State) : (s.popInbox).frQuality = s.frQuality := rfl
@[simp] theorem State.popInbox_frOptions (s : State) : (s.popInbox).frOptions = s.frOptions := rfl
@[simp] theorem State.popInbox_frCk (s : State) : (s.popInbox).frCk = s.frCk := rfl
@[simp] theorem State.popInbox_frCkOk (s : State) : (s.popInbox).frCkOk = s.frCkOk := rfl
@[simp] theorem State.popInbox_frSrcIsPeer (s : State) : (s.popInbox).frSrcIsPeer = s.frSrcIsPeer := rfl
@[simp] theorem State.popInbox_codecStatus (s : State) : (s.popInbox).codecStatus = s.codecStatus := rfl
@[simp] theorem State.popInbox_txFid (s : State) : (s.popInbox).txFid = s.txFid := rfl
@[simp] theorem State.popInbox_txOut (s : State) : (s.popInbox).txOut = s.txOut := rfl
@[simp] theorem State.popInbox_busBusy (s : State) : (s.popInbox).busBusy = s.busBusy := rfl
@[simp] theorem State.popInbox_busOwner (s : State) : (s.popInbox).busOwner = s.busOwner := rfl
@[simp] theorem State.popInbox_busIdx (s : State) : (s.popInbox).busIdx = s.busIdx := rfl
@[simp] theorem State.popInbox_busFail (s : State) : (s.popInbox).busFail = s.busFail := rfl
@[simp] theorem State.popInbox_busCfgValid (s : State) : (s.popInbox).busCfgValid = s.busCfgValid := rfl
@[simp] theorem State.popInbox_busCfg (s : State) : (s.popInbox).busCfg = s.busCfg := rfl
@[simp] theorem State.popInbox_reqs (s : State) : (s.popInbox).reqs = s.reqs := rfl
@[simp] theorem State.popInbox_busStatus (s : State) : (s.popInbox).busStatus = s.busStatus := rfl
@[simp] theorem State.popInbox_busOut (s : State) : (s.popInbox).busOut = s.busOut := rfl
@[simp] theorem State.popInbox_telemetry (s : State) : (s.popInbox).telemetry = s.telemetry := rfl
@[simp] theorem State.popInbox_inbox (s : State) : (s.popInbox).inbox = s.inbox.tail := rfl
@[simp] theorem State.popInbox_result (s : State) : (s.popInbox).result = s.result := rfl
@[simp] theorem State.popInbox_draws (s : State) : (s.popInbox).draws = s.draws := rfl
@[simp] theorem State.popInbox_raised (s : State) : (s.popInbox).raised = s.raised := rfl
@[simp] theorem State.popInbox_windows (s : State) : (s.popInbox).windows = s.windows := rfl

/-! ## raiseIf: a raise under a condition -/

@[simp] theorem State.raiseIf_params (s : State) (b : Bool) (c : Cause) : (s.raiseIf b c).params = s.params := by cases b <;> rfl
@[simp] theorem State.raiseIf_rxState (s : State) (b : Bool) (c : Cause) : (s.raiseIf b c).rxState = s.rxState := by cases b <;> rfl
@[simp] theorem State.raiseIf_rxLen (s : State) (b : Bool) (c : Cause) : (s.raiseIf b c).rxLen = s.rxLen := by cases b <;> rfl
@[simp] theorem State.raiseIf_rxCnt (s : State) (b : Bool) (c : Cause) : (s.raiseIf b c).rxCnt = s.rxCnt := by cases b <;> rfl
@[simp] theorem State.raiseIf_rxSum (s : State) (b : Bool) (c : Cause) : (s.raiseIf b c).rxSum = s.rxSum := by cases b <;> rfl
@[simp] theorem State.raiseIf_rxType (s : State) (b : Bool) (c : Cause) : (s.raiseIf b c).rxType = s.rxType := by cases b <;> rfl
@[simp] theorem State.raiseIf_rxPlen (s : State) (b : Bool) (c : Cause) : (s.raiseIf b c).rxPlen = s.rxPlen := by cases b <;> rfl
@[simp] theorem State.raiseIf_rxSrc (s : State) (b : Bool) (c : Cause) : (s.raiseIf b c).rxSrc = s.rxSrc := by cases b <;> rfl
@[simp] theorem State.raiseIf_rxQuality (s : State) (b : Bool) (c : Cause) : (s.raiseIf b c).rxQuality = s.rxQuality := by cases b <;> rfl
@[simp] theorem State.raiseIf_rxOptions (s : State) (b : Bool) (c : Cause) : (s.raiseIf b c).rxOptions = s.rxOptions := by cases b <;> rfl
@[simp] theorem State.raiseIf_rxCk (s : State) (b : Bool) (c : Cause) : (s.raiseIf b c).rxCk = s.rxCk := by cases b <;> rfl
@[simp] theorem State.raiseIf_rxBuf (s : State) (b : Bool) (c : Cause) : (s.raiseIf b c).rxBuf = s.rxBuf := by cases b <;> rfl
@[simp] theorem State.raiseIf_peerValid (s : State) (b : Bool) (c : Cause) : (s.raiseIf b c).peerValid = s.peerValid := by cases b <;> rfl
@[simp] theorem State.raiseIf_peerAddr (s : State) (b : Bool) (c : Cause) : (s.raiseIf b c).peerAddr = s.peerAddr := by cases b <;> rfl
@[simp] theorem State.raiseIf_frValid (s : State) (b : Bool) (c : Cause) : (s.raiseIf b c).frValid = s.frValid := by cases b <;> rfl
@[simp] theorem State.raiseIf_frNew (s : State) (b : Bool) (c : Cause) : (s.raiseIf b c).frNew = s.frNew := by cases b <;> rfl
@[simp] theorem State.raiseIf_frPlen (s : State) (b : Bool) (c : Cause) : (s.raiseIf b c).frPlen = s.frPlen := by cases b <;> rfl
@[simp] theorem State.raiseIf_frPayload (s : State) (b : Bool) (c : Cause) : (s.raiseIf b c).frPayload = s.frPayload := by cases b <;> rfl
@[simp] theorem State.raiseIf_frSrc (s : State) (b : Bool) (c : Cause) : (s.raiseIf b c).frSrc = s.frSrc := by cases b <;> rfl
@[simp] theorem State.raiseIf_frQuality (s : State) (b : Bool) (c : Cause) : (s.raiseIf b c).frQuality = s.frQuality := by cases b <;> rfl
@[simp] theorem State.raiseIf_frOptions (s : State) (b : Bool) (c : Cause) : (s.raiseIf b c).frOptions = s.frOptions := by cases b <;> rfl
@[simp] theorem State.raiseIf_frCk (s : State) (b : Bool) (c : Cause) : (s.raiseIf b c).frCk = s.frCk := by cases b <;> rfl
@[simp] theorem State.raiseIf_frCkOk (s : State) (b : Bool) (c : Cause) : (s.raiseIf b c).frCkOk = s.frCkOk := by cases b <;> rfl
@[simp] theorem State.raiseIf_frSrcIsPeer (s : State) (b : Bool) (c : Cause) : (s.raiseIf b c).frSrcIsPeer = s.frSrcIsPeer := by cases b <;> rfl
@[simp] theorem State.raiseIf_txFid (s : State) (b : Bool) (c : Cause) : (s.raiseIf b c).txFid = s.txFid := by cases b <;> rfl
@[simp] theorem State.raiseIf_txOut (s : State) (b : Bool) (c : Cause) : (s.raiseIf b c).txOut = s.txOut := by cases b <;> rfl
@[simp] theorem State.raiseIf_busBusy (s : State) (b : Bool) (c : Cause) : (s.raiseIf b c).busBusy = s.busBusy := by cases b <;> rfl
@[simp] theorem State.raiseIf_busOwner (s : State) (b : Bool) (c : Cause) : (s.raiseIf b c).busOwner = s.busOwner := by cases b <;> rfl
@[simp] theorem State.raiseIf_busIdx (s : State) (b : Bool) (c : Cause) : (s.raiseIf b c).busIdx = s.busIdx := by cases b <;> rfl
@[simp] theorem State.raiseIf_busFail (s : State) (b : Bool) (c : Cause) : (s.raiseIf b c).busFail = s.busFail := by cases b <;> rfl
@[simp] theorem State.raiseIf_busCfgValid (s : State) (b : Bool) (c : Cause) : (s.raiseIf b c).busCfgValid = s.busCfgValid := by cases b <;> rfl
@[simp] theorem State.raiseIf_busCfg (s : State) (b : Bool) (c : Cause) : (s.raiseIf b c).busCfg = s.busCfg := by cases b <;> rfl
@[simp] theorem State.raiseIf_reqs (s : State) (b : Bool) (c : Cause) : (s.raiseIf b c).reqs = s.reqs := by cases b <;> rfl
@[simp] theorem State.raiseIf_busOut (s : State) (b : Bool) (c : Cause) : (s.raiseIf b c).busOut = s.busOut := by cases b <;> rfl
@[simp] theorem State.raiseIf_telemetry (s : State) (b : Bool) (c : Cause) : (s.raiseIf b c).telemetry = s.telemetry := by cases b <;> rfl
@[simp] theorem State.raiseIf_inbox (s : State) (b : Bool) (c : Cause) : (s.raiseIf b c).inbox = s.inbox := by cases b <;> rfl
@[simp] theorem State.raiseIf_result (s : State) (b : Bool) (c : Cause) : (s.raiseIf b c).result = s.result := by cases b <;> rfl
@[simp] theorem State.raiseIf_draws (s : State) (b : Bool) (c : Cause) : (s.raiseIf b c).draws = s.draws := by cases b <;> rfl
@[simp] theorem State.raiseIf_windows (s : State) (b : Bool) (c : Cause) : (s.raiseIf b c).windows = s.windows := by cases b <;> rfl

@[simp] theorem State.raiseIf_true (s : State) (c : Cause) : s.raiseIf true c = s.raise c := rfl
@[simp] theorem State.raiseIf_false (s : State) (c : Cause) : s.raiseIf false c = s := rfl

/-! ## The refusals are answers -/

theorem State.refuse_eq (s : State) (c : Cause) : s.refuse c = (s.raise c).answer (.refused (some c)) := rfl
theorem State.reject_eq (s : State) : s.reject = s.answer (.refused none) := rfl
theorem State.skip_eq (s : State) : s.skip = s.answer .notEnabled := rfl

@[simp] theorem State.answer_answer (s : State) (r q : OpResult) : (s.answer r).answer q = s.answer q := rfl

end Sys2Proof.Machine
end

