-- ==== Sys2Proof/Laws/Bus.lean ====
section
/-! SUPPORT. All that the arbiter's steps can do (`42_bus_arbiter.md`). -/

namespace Sys2Proof.Machine

/-- Only the arbiter's registers, its output and the model's own fields differ (R78). -/
def BusFrame (s t : State) : Prop := t = { s with
        busBusy := t.busBusy, busOwner := t.busOwner, busIdx := t.busIdx, busFail := t.busFail,
        busCfgValid := t.busCfgValid, busCfg := t.busCfg, reqs := t.reqs, busStatus := t.busStatus,
        busOut := t.busOut, draws := t.draws, raised := t.raised, result := t.result, windows := t.windows }

theorem BusFrame.trans {s t u : State} (h : BusFrame s t) (g : BusFrame t u) : BusFrame s u := by
  unfold BusFrame at *; rw [h] at g; exact g

theorem busFrame_transfer (o s) : BusFrame s (transfer o s) := rfl

theorem busFrame_openWindow (r s) : BusFrame s (openWindow r s) := rfl

theorem busFrame_placeRequest (r b t c s) : BusFrame s (placeRequest r b t c s) := rfl

theorem busFrame_answer (r s) : BusFrame s (State.answer s r) := rfl

theorem busFrame_drew (s) : BusFrame s (State.drew s) := rfl

theorem busFrame_closeWindow (s) : BusFrame s (closeWindow s) := by
  unfold closeWindow; cases s.busFail <;> simp [BusFrame, State.raiseIf, State.raise, codecBit, State.setReq]

theorem busFrame_transferAll (a n s) : BusFrame s (transferAll a n s) := by
  induction n generalizing s with
  | zero => rfl
  | succ n ih =>
    simp only [transferAll]
    split
    · exact (busFrame_drew s).trans ((busFrame_transfer _ _).trans (ih _))
    · rfl

theorem busFrame_runWindow (a r s) : BusFrame s (runWindow a r s) := (busFrame_openWindow r s).trans
    ((busFrame_transferAll _ _ _).trans ((busFrame_closeWindow _).trans (busFrame_answer _ _)))

theorem busFrame_executeBatch (a r b t c s) : BusFrame s (executeBatch a r b t c s) := by
  unfold executeBatch; split
  · split
    · exact (busFrame_placeRequest ..).trans (busFrame_answer _ _)
    · exact (busFrame_placeRequest ..).trans (busFrame_runWindow _ _ _)
  · rfl

theorem req_transfer (o s j) : (transfer o s).req j = s.req j := rfl

theorem req_transferAll (a n s j) : (transferAll a n s).req j = s.req j := by
  induction n generalizing s with
  | zero => rfl
  | succ n ih => simp only [transferAll]; split; exact ih _; rfl

theorem reqs_transferAll (a n s) : (transferAll a n s).reqs = s.reqs := by
  induction n generalizing s with
  | zero => rfl
  | succ n ih => simp only [transferAll]; split; exact ih _; rfl

theorem busOwner_transferAll (a n s) : (transferAll a n s).busOwner = s.busOwner := by
  induction n generalizing s with
  | zero => rfl
  | succ n ih => simp only [transferAll]; split; exact ih _; rfl

/-- The completion writes the owner's result registers and no other requester's (R180). -/
theorem req_closeWindow {s : State} (hw : ReqFile.wf s.reqs) (j : Nat) : (closeWindow s).req j =
    if j = s.busOwner then
      { s.req s.busOwner with ok := !s.busFail, nDone := s.busIdx, done := true, pending := false }
    else s.req j := by
  rw [← State.req_setReq hw]
  unfold closeWindow; cases s.busFail <;> rfl

theorem busStatus_transferAll (a n s) : (transferAll a n s).busStatus = s.busStatus := by
  induction n generalizing s with
  | zero => rfl
  | succ n ih => simp only [transferAll]; split; exact ih _; rfl

theorem busStatus_closeWindow (s : State) : ∃ m, (closeWindow s).busStatus = s.busStatus ||| m := by
  unfold closeWindow; cases s.busFail
  · exact ⟨0, by simp [State.raiseIf, State.setReq]⟩
  · exact ⟨_, rfl⟩

theorem busOut_transferAll (a n s) : ∃ r, (transferAll a n s).busOut = s.busOut ++ r := by
  induction n generalizing s with
  | zero => exact ⟨[], by simp [transferAll]⟩
  | succ n ih =>
    simp only [transferAll]; split
    · obtain ⟨r, h⟩ := ih (transfer (a s.draws) s.drew)
      rw [h]; exact ⟨_, by rw [show (transfer (a s.draws) s.drew).busOut = s.busOut ++ [_] from rfl,
          List.append_assoc]⟩
    · exact ⟨[], by simp⟩

theorem busOut_closeWindow (s : State) : (closeWindow s).busOut = s.busOut := by
  unfold closeWindow; cases s.busFail <;> rfl

theorem executeBatch_outputs (a r b t c s) : (∃ m, (executeBatch a r b t c s).busStatus = s.busStatus ||| m) ∧
    ∃ rs, (executeBatch a r b t c s).busOut = s.busOut ++ rs := by
  unfold executeBatch
  split
  · split
    · exact ⟨⟨0, by simp [placeRequest, State.setReq]⟩, [], by simp [placeRequest, State.setReq]⟩
    · unfold runWindow
      constructor
      · obtain ⟨m, h⟩ := busStatus_closeWindow (transferAll a ((placeRequest r b t c s).req r).batch.length
            (openWindow r (placeRequest r b t c s)))
        rw [busStatus_transferAll] at h; exact ⟨m, h⟩
      · obtain ⟨rs, h⟩ := busOut_transferAll a ((placeRequest r b t c s).req r).batch.length (openWindow r
            (placeRequest r b t c s))
        exact ⟨rs, (busOut_closeWindow _).trans h⟩
  · exact ⟨⟨0, by simp [State.reject]⟩, [], by simp [State.reject]⟩

theorem windowRecords_ack (w : Window) (n : Nat) (h : n < w.batch.length) : windowRecords w
    (n + 1) false = windowRecords w n false ++ [⟨w.cfg.devAddr, w.cfg.clkRate, w.batch.getD n [], .ack⟩] := by
  simp only [windowRecords, Bool.false_eq_true, if_false, List.append_nil]
  rw [List.take_add_one, List.map_append, List.getElem?_eq_getElem h]
  simp only [Option.toList, List.map_cons, List.map_nil, List.getD, List.getElem?_eq_getElem h, Option.getD_some]

theorem windowRecords_fail (w : Window) (n : Nat)
    (h : n < w.batch.length) : windowRecords w n true = windowRecords w n false ++ [⟨w.cfg.devAddr, w.cfg.clkRate,
    w.batch.getD n [], .fail⟩] := by
  simp only [windowRecords, if_true, Bool.false_eq_true, if_false, List.append_nil]
  rw [List.drop_eq_getElem_cons h, List.take_succ_cons, List.take_zero]
  simp [List.getD, h]

/-- All that the transfers of an open window can do: the answers up to the first failure, the counter, the records
(R179, R191). -/
theorem transferAll_spec (a : Nat → XferOutcome) (n : Nat) (s : State) (hb : s.busBusy = true)
    (hf : s.busFail = false) (hn : s.ownerBatch.length = s.busIdx + n) :
    ∃ k ok, k ≤ n ∧ (ok = true ↔ k = n) ∧ (∀ j, j < k → a (s.draws + j) = .ack) ∧ (ok = false → a
        (s.draws + k) = .fail) ∧
      (transferAll a n s).busIdx = s.busIdx + k ∧ (transferAll a n s).busFail = !ok ∧
      ∀ w : Window, w.batch = s.ownerBatch → w.cfg = s.busCfg → ∀ pre, s.busOut = pre ++
          windowRecords w s.busIdx false → (transferAll a n s).busOut = pre ++ windowRecords w (s.busIdx + k)
          (!ok) := by
  induction n generalizing s with
  | zero => exact ⟨0, true, Nat.le_refl _, by simp, by simp, by simp, rfl, hf, fun w _ _ pre h => h⟩
  | succ n ih =>
    have hx : s.xferEnabled = true := by simp [State.xferEnabled, hb, hf, hn]
    simp only [transferAll, hx, if_true]
    have hlt : s.busIdx < s.ownerBatch.length := by omega
    cases ho : a s.draws
    · have hn' : (transfer .ack s.drew).ownerBatch.length = (transfer .ack s.drew).busIdx + n := by
        show s.ownerBatch.length = (s.busIdx + 1) + n
        omega
      obtain ⟨k, ok, h1, h2, h3, h4, h5, h6, h7⟩ := ih (transfer .ack s.drew) hb hf hn'
      refine ⟨k + 1, ok, by omega, by rw [h2]; omega, ?_, ?_, ?_, h6, ?_⟩
      · intro j hj
        cases j with
        | zero => exact ho
        | succ j =>
          have := h3 j (by omega)
          rw [show (transfer .ack s.drew).draws = s.draws + 1 from rfl] at this
          rw [← this]; congr 1; omega
      · intro h; have := h4 h
        rw [show (transfer .ack s.drew).draws = s.draws + 1 from rfl] at this
        rw [← this]; congr 1; omega
      · rw [h5]; show s.busIdx + 1 + k = _; omega
      · intro w hw hc pre hpre
        have := h7 w hw hc pre (by
          show s.busOut ++ [_] = pre ++ windowRecords w (s.busIdx + 1) false
          rw [hpre, windowRecords_ack w _ (by rw [hw]; exact hlt), List.append_assoc, hw, hc]; rfl)
        rw [this]; congr 2; show s.busIdx + 1 + k = _; omega
    · have hz : (transfer .fail s.drew).xferEnabled = false := by simp [State.xferEnabled, transfer]
      have e : transferAll a n (transfer .fail s.drew) = transfer .fail s.drew := by
        cases n
        · rfl
        · simp only [transferAll, hz]; rfl
      rw [e]
      refine ⟨0, false, by omega, by simp, by simp, fun _ => ho, rfl, rfl, ?_⟩
      intro w hw hc pre hpre
      show s.busOut ++ [_] = pre ++ windowRecords w s.busIdx true
      rw [hpre, windowRecords_fail w _ (by rw [hw]; exact hlt), List.append_assoc, hw, hc]; rfl

/-! ## `BUS_EXECUTE` -/

/-- All that `BUS_EXECUTE` can do: it is refused, or its caller is blocked, or the whole window runs (R181). -/
theorem executeBatch_cases (a r b t c) (s : State) :
    (s.requestOk r b = false ∧ executeBatch a r b t c s = s.reject) ∨
    (s.requestOk r b = true ∧ (s.busBusy || s.othersPending r) = true ∧
      executeBatch a r b t c s = (placeRequest r b t c s).answer .blocked) ∨
    (s.requestOk r b = true ∧ (s.busBusy || s.othersPending r) = false ∧
      executeBatch a r b t c s = runWindow a r (placeRequest r b t c s)) := by
  unfold executeBatch
  cases s.requestOk r b <;> cases s.busBusy || s.othersPending r <;> simp

/-- Where nobody has a request pending, no other requester has one. -/
theorem othersPending_of_none {s : State} (hw : ReqFile.wf s.reqs) (h : ∀ j, (s.req j).pending = false) (r : Nat) :
    s.othersPending r = false := by
  simp only [State.othersPending, List.any_eq_false]
  intro e he
  have := h e.1
  rw [State.req, cellGet_of_mem hw he] at this
  simp [this]

/-- The registers of the requesters after a whole window: its owner has its result, the others are as before (R180, R181). -/
theorem req_runWindow {s : State} (hw : ReqFile.wf s.reqs) (a r) : ReqFile.wf (runWindow a r s).reqs ∧
    (∀ j, j ≠ r → (runWindow a r s).req j = s.req j) ∧ ((runWindow a r s).req r).pending = false ∧
    (runWindow a r s).busBusy = false := by
  have hr := reqs_transferAll a (s.req r).batch.length (openWindow r s)
  have ho : (transferAll a (s.req r).batch.length (openWindow r s)).busOwner = r :=
    busOwner_transferAll a (s.req r).batch.length (openWindow r s)
  have hq := req_transferAll a (s.req r).batch.length (openWindow r s)
  simp only [runWindow]
  generalize transferAll a (s.req r).batch.length (openWindow r s) = t at *
  have hwt : ReqFile.wf t.reqs := by rw [hr]; exact hw
  have hc := req_closeWindow hwt
  refine ⟨?_, fun j hj => ?_, ?_, rfl⟩
  · have : (closeWindow t).reqs = (t.setReq t.busOwner
        { t.req t.busOwner with ok := !t.busFail, nDone := t.busIdx, done := true, pending := false }).reqs := by
      unfold closeWindow; cases t.busFail <;> rfl
    show ReqFile.wf (closeWindow t).reqs
    rw [this]
    exact State.setReq_wf hwt _ _
  · exact (hc j).trans (by rw [ho, if_neg hj]; exact hq j)
  · exact congrArg Req.pending ((hc r).trans (by rw [ho, if_pos rfl]))

end Sys2Proof.Machine
end

