-- ==== Sys2Proof/Laws/Bytes.lean ====
section
/-! SUPPORT. The laws of byte strings: byte order there and back, the checksum, addresses. -/

namespace Sys2Proof.Machine

/-! ## Byte order -/

theorem unBE16_lt (h l : Byte) : unBE16 h l < 65536 := by
  have := h.isLt
  have := l.isLt
  simp only [unBE16]
  omega

/-- The two bytes of a 16-bit number give it back (R17, R62). -/
theorem unBE16_be16 {v : Nat} (hv : v < 65536) : unBE16 (BitVec.ofNat 8 (v / 256)) (BitVec.ofNat 8 v) = v := by
  simp only [unBE16, BitVec.toNat_ofNat]
  omega

/-- Two bytes are the two bytes of the number they stand for. -/
theorem be16_unBE16 (h l : Byte) : be16 (unBE16 h l) = [h, l] := by
  have := h.isLt
  have := l.isLt
  simp only [be16, unBE16, List.cons.injEq, and_true]
  constructor <;> apply BitVec.eq_of_toNat_eq <;> simp only [BitVec.toNat_ofNat] <;> omega

@[simp] theorem length_be16 (v : Nat) : (be16 v).length = 2 := rfl

@[simp] theorem length_beBytes (n v : Nat) : (beBytes n v).length = n := by
  induction n with
  | zero => rfl
  | succ n ih => simp [beBytes, ih]

/-! ## The checksum -/

theorem sum8_append (xs ys : Bytes) : sum8 (xs ++ ys) = sum8 xs + sum8 ys := by
  induction xs with
  | nil => simp [sum8]
  | cons x xs ih => rw [List.cons_append, sum8, ih, sum8, BitVec.add_assoc]

theorem sum8_perm {xs ys : Bytes} (h : xs.Perm ys) : sum8 xs = sum8 ys := by
  induction h with
  | nil => rfl
  | cons x _ ih => simp only [sum8, ih]
  | swap x y l =>
    simp only [sum8]
    rw [← BitVec.add_assoc, ← BitVec.add_assoc, BitVec.add_comm y x]
  | trans _ _ ih₁ ih₂ => exact ih₁.trans ih₂

/-- A string with its checksum sums to `0xFF` (R92). -/
theorem sum8_add_cksum (s : Bytes) : sum8 s + cksum s = 0xFF := by
  simp only [cksum, Config.ckBase]
  rw [BitVec.add_comm, BitVec.sub_add_cancel]

/-! ## Addresses -/

@[simp] theorem length_addrBytes (a : Addr) : (addrBytes a).length = 8 := rfl

@[simp] theorem takeAddr_addrBytes_append (a : Addr) (rest : Bytes) : takeAddr (addrBytes a ++ rest) = some (a, rest) :=
  rfl

/-- Eight bytes and more are an address and the rest. -/
theorem takeAddr_some {bs rest : Bytes} {a : Addr} (h : takeAddr bs = some (a, rest)) : bs = addrBytes a ++ rest := by
  unfold takeAddr at h
  split at h
  · cases h; rfl
  · cases h

/-- Fewer than eight bytes are no address. -/
theorem takeAddr_none {bs : Bytes} (h : takeAddr bs = none) : bs.length < 8 := by
  unfold takeAddr at h
  split at h
  · cases h
  · rename_i hn
    by_contra hc
    rcases bs with _ | ⟨a, _ | ⟨b, _ | ⟨c, _ | ⟨d, _ | ⟨e, _ | ⟨f, _ | ⟨g, _ | ⟨i, bs⟩⟩⟩⟩⟩⟩⟩⟩ <;>
      first
        | exact hn _ _ _ _ _ _ _ _ _ rfl
        | simp at hc

theorem addrGet_addrSet (a : Addr) (i j : Nat) (b : Byte) (hi : i < 8) :
    addrGet (addrSet a i b) j = if j = i then b else addrGet a j := by
  have : i = 0 ∨ i = 1 ∨ i = 2 ∨ i = 3 ∨ i = 4 ∨ i = 5 ∨ i = 6 ∨ i = 7 := by omega
  rcases this with rfl | rfl | rfl | rfl | rfl | rfl | rfl | rfl <;>
    rcases j with _ | _ | _ | _ | _ | _ | _ | _ | j <;> simp [addrGet, addrSet, addrBytes]

/-- Setting the eight bytes in order leaves exactly them. -/
theorem addrSet_all (a b : Addr) :
    addrSet (addrSet (addrSet (addrSet (addrSet (addrSet (addrSet (addrSet a 0 b.b0) 1 b.b1) 2 b.b2) 3 b.b3) 4 b.b4)
      5 b.b5) 6 b.b6) 7 b.b7 = b := by
  cases a
  cases b
  rfl

end Sys2Proof.Machine
end

