-- ==== Sys2Proof/Laws/Decode.lean ====
section
/-! SUPPORT. The parts of the decoder and of the encoder undo each other. -/

namespace Sys2Proof.Machine

/-- A payload followed by its checksum is taken apart again. -/
theorem splitTail_append (p : Params) (head payload : Bytes) :
    splitTail p (payload.length + 11) head (payload ++ [cksum (covered p (head ++ payload))]) = .ok payload := by
  simp [splitTail, splitTail.cksumOf, Config.hdrLen]

/-- All that an accepted tail can be (R89, R91). -/
theorem splitTail_eq_ok {p : Params} {len : Nat} {head tail payload : Bytes}
    (h : splitTail p len head tail = .ok payload) :
    tail = payload ++ [cksum (covered p (head ++ payload))] ∧ len = payload.length + 11 := by
  unfold splitTail at h
  split at h
  · cases h
  · split at h
    · cases h
    · split at h
      · cases h
      · rename_i h1 h2 h3
        cases h
        simp only [Classical.not_not, splitTail.cksumOf] at h2 h3
        exact ⟨by rw [List.getLast?_eq_some_getLast h1] at h3; injection h3 with h3; rw [← h3,
            List.dropLast_concat_getLast], h2⟩

theorem be16_cons (n : Nat) : be16 n = [BitVec.ofNat 8 (n / 256), BitVec.ofNat 8 n] := rfl

/-- The receive data frame, byte by byte (R86). -/
theorem rxDataFrame_eq (p : Params) (src : Addr) (q o : Byte) (payload : Bytes) :
    rxDataFrame p src q o payload = Config.delim :: BitVec.ofNat 8 ((payload.length + 11) / 256) :: BitVec.ofNat 8
        (payload.length + 11) :: p.typeRx64 :: (addrBytes src ++ q :: o :: (payload ++ [cksum (covered p
        ([BitVec.ofNat 8 ((payload.length + 11) / 256), BitVec.ofNat 8 (payload.length + 11), p.typeRx64] ++
        addrBytes src ++ [q, o] ++ payload))])) := by
  simp [rxDataFrame, frameOf, rxBody, be16, Config.hdrLen]

/-- The transmit frame, byte by byte (R87). -/
theorem encodeFrame_eq (p : Params) (dest : Addr) (fid : Byte) (payload : Bytes) :
    encodeFrame p dest fid payload = Config.delim :: BitVec.ofNat 8 ((payload.length + 11) / 256) ::
        BitVec.ofNat 8 (payload.length + 11) :: p.txRsvdA :: fid :: (addrBytes dest ++ p.txRsvdB :: (payload ++
        [cksum (covered p ([BitVec.ofNat 8 ((payload.length + 11) / 256), BitVec.ofNat 8 (payload.length + 11),
        p.txRsvdA, fid] ++ addrBytes dest ++ [p.txRsvdB] ++ payload))])) := by
  simp [encodeFrame, frameOf, txBody, be16, Config.hdrLen]

/-! ## Number operands -/

theorem takeNum_numDigits (fuel v : Nat) (h : v ≤ fuel) (rest : Bytes) :
    takeNum (numDigits fuel v ++ rest) = some (v, rest) := by
  induction fuel generalizing v with
  | zero =>
    obtain rfl : v = 0 := by omega
    rfl
  | succ fuel ih =>
    simp only [numDigits]
    split
    · rename_i hv
      simp only [List.cons_append, List.nil_append, takeNum, BitVec.toNat_ofNat]
      rw [if_pos (by omega), Nat.mod_eq_of_lt (by omega)]
    · rename_i hv
      have hb : (BitVec.ofNat 8 (128 + v % 128)).toNat = 128 + v % 128 := by
        simp only [BitVec.toNat_ofNat]
        omega
      simp only [List.cons_append, takeNum, hb]
      rw [if_neg (by omega), ih _ (by omega), Option.bind_some]
      simp only
      rw [if_neg (by omega)]
      have e : 128 + v % 128 - 128 + 128 * (v / 128) = v := by omega
      rw [e]

/-- A number written as an operand is read back, whatever its size. -/
theorem takeNum_numBytes (v : Nat) (rest : Bytes) : takeNum (numBytes v ++ rest) = some (v, rest) :=
  takeNum_numDigits v v (Nat.le_refl v) rest

/-- More fuel than digits changes nothing. -/
theorem numDigits_fuel (fuel v : Nat) (h : v ≤ fuel) : numDigits fuel v = numBytes v := by
  suffices e : ∀ a b, v ≤ a → v ≤ b → numDigits a v = numDigits b v from e _ _ h (Nat.le_refl v)
  clear h fuel
  induction v using Nat.strongRecOn with
  | _ v ih =>
    intro a b ha hb
    rcases a with _ | a <;> rcases b with _ | b
    · rfl
    · obtain rfl : v = 0 := by omega
      rfl
    · obtain rfl : v = 0 := by omega
      rfl
    · simp only [numDigits]
      split
      · rfl
      · rw [ih (v / 128) (by omega) a b (by omega) (by omega)]

/-- Each number has one form. -/
theorem takeNum_eq_some {bs rest : Bytes} {v : Nat} (h : takeNum bs = some (v, rest)) : bs = numBytes v ++ rest := by
  induction bs generalizing v with
  | nil => cases h
  | cons b bs ih =>
    have hb := b.isLt
    simp only [takeNum] at h
    split at h
    · rename_i hlt
      cases h
      have : numBytes b.toNat = [b] := by
        rw [← numDigits_fuel (b.toNat + 1) _ (Nat.le_succ _), numDigits, if_pos hlt, BitVec.ofNat_toNat]
        rfl
      rw [this]
      rfl
    · rename_i hge
      rw [Option.bind_eq_some_iff] at h
      obtain ⟨⟨hi, r⟩, h1, h2⟩ := h
      simp only at h2
      split at h2
      · cases h2
      · rename_i hne
        simp only [Option.some.injEq, Prod.mk.injEq] at h2
        obtain ⟨rfl, rfl⟩ := h2
        have em : (b.toNat - 128 + 128 * hi) % 128 = b.toNat - 128 := by omega
        have ed : (b.toNat - 128 + 128 * hi) / 128 = hi := by omega
        rw [ih h1, ← numDigits_fuel (b.toNat - 128 + 128 * hi + 1) _ (Nat.le_succ _), numDigits,
          if_neg (by omega), em, ed, numDigits_fuel _ _ (by omega)]
        have eb : BitVec.ofNat 8 (128 + (b.toNat - 128)) = b := by
          apply BitVec.eq_of_toNat_eq
          rw [BitVec.toNat_ofNat]
          omega
        rw [eb]
        rfl

theorem numBytes_ne_nil (v : Nat) : numBytes v ≠ [] := by
  intro h
  have := takeNum_numBytes v []
  rw [h] at this
  cases this

/-! ## Requests -/

theorem takeBatch_encode (batch : List Bytes) (fuel : Nat) (hf : (batch.flatMap encodeTxn).length ≤ fuel) :
    takeBatch fuel (batch.flatMap encodeTxn) = some batch := by
  induction batch generalizing fuel with
  | nil => cases fuel <;> rfl
  | cons w ws ih =>
    have hpos : 0 < (numBytes w.length).length := List.length_pos_iff.mpr (numBytes_ne_nil _)
    rw [List.flatMap_cons, encodeTxn, List.append_assoc] at hf ⊢
    simp only [List.length_append] at hf
    cases fuel with
    | zero => omega
    | succ fuel =>
      have e := ih fuel (by omega)
      obtain ⟨x, xs, hx⟩ := List.exists_cons_of_ne_nil (numBytes_ne_nil w.length)
      have hn : takeNum (x :: (xs ++ (w ++ ws.flatMap encodeTxn))) = some (w.length, w ++ ws.flatMap encodeTxn) := by
        rw [← takeNum_numBytes w.length, hx, List.cons_append]
      rw [hx, List.cons_append]
      simp only [takeBatch, hn, Option.bind_some]
      rw [if_neg (by simp), List.drop_left, List.take_left, e]
      rfl

theorem takeBatch_eq_some (fuel : Nat) (bs : Bytes) (batch : List Bytes) (h : takeBatch fuel bs = some batch) :
    bs = batch.flatMap encodeTxn := by
  induction fuel generalizing bs batch with
  | zero =>
    cases bs with
    | nil => simp only [takeBatch, Option.some.injEq] at h; subst h; rfl
    | cons => simp [takeBatch] at h
  | succ fuel ih =>
    rcases bs with _ | ⟨b, bs⟩
    · simp only [takeBatch, Option.some.injEq] at h; subst h; rfl
    · simp only [takeBatch, Option.bind_eq_some_iff, Prod.exists] at h
      obtain ⟨n, rest, h1, h2⟩ := h
      split at h2
      · cases h2
      · rename_i hl
        rw [Option.map_eq_some_iff] at h2
        obtain ⟨ws, h3, rfl⟩ := h2
        have hlen : (rest.take n).length = n := by rw [List.length_take]; omega
        rw [List.flatMap_cons, ← ih _ _ h3, encodeTxn, hlen, List.append_assoc, List.take_append_drop,
          takeNum_eq_some h1]

/-- The operands of a request are read back, whatever their sizes. -/
theorem takeRequest_encode (r batch tmo cfg) : takeRequest (encodeRequest r batch tmo cfg) = some (r, batch, tmo, cfg) := by
  simp only [takeRequest, encodeRequest, List.append_assoc, takeNum_numBytes, Option.bind_eq_bind, Option.bind_some,
    takeBatch_encode _ _ (Nat.le_refl _)]
  rfl

theorem takeRequest_eq_some {bs : Bytes} {r batch tmo cfg} (h : takeRequest bs = some (r, batch, tmo, cfg)) :
    encodeRequest r batch tmo cfg = bs := by
  unfold takeRequest at h
  simp only [Option.bind_eq_bind, Option.bind_eq_some_iff, Prod.exists, Option.pure_def, Option.some.injEq,
      Prod.mk.injEq] at h
  obtain ⟨r', b1, h1, t', b2, h2, d', b3, h3, c', b4, h4, ba, h5, rfl, rfl, rfl, rfl⟩ := h
  rw [takeNum_eq_some h1, takeNum_eq_some h2, takeNum_eq_some h3, takeNum_eq_some h4, takeBatch_eq_some _ _ _ h5]
  simp only [encodeRequest, List.append_assoc]

/-! ## Register names -/

theorem readNameOf_readNameCode (n : ReadName) (h : n.wellFormed = true) : readNameOf (readNameCode n) = n := by
  cases n <;> try rfl
  rename_i c
  simp only [ReadName.wellFormed, decide_eq_true_eq] at h
  simp only [readNameCode]
  unfold readNameOf
  split <;> first | omega | rfl

theorem readNameCode_readNameOf (b : Byte) : readNameCode (readNameOf b) = b ∧ (readNameOf b).wellFormed = true := by
  revert b; decide

end Sys2Proof.Machine
end

