-- ==== Sys2Proof/Laws/Payload.lean ====
section
/-! SUPPORT. Bit packing and the incoming layout (`43_payload_formats.md`). -/

namespace Sys2Proof.Machine

theorem bitsToNat_lt (n : Nat) (d : List Bool) : bitsToNat n d < 2 ^ n := by
  induction n generalizing d with
  | zero => simp [bitsToNat]
  | succ n ih =>
    cases d with
    | nil => simp [bitsToNat]
    | cons b d => simp only [bitsToNat]; have := ih d; cases b <;> simp <;> omega

theorem testBit_bitsToNat (n i : Nat) (d : List Bool) (hi : i < n) : (bitsToNat n d).testBit i = d.getD i false := by
  induction n generalizing d i with
  | zero => omega
  | succ n ih =>
    cases d with
    | nil => simp [bitsToNat]
    | cons b d =>
      cases i with
      | zero => simp only [bitsToNat]; cases b <;> simp [Nat.testBit_zero]
      | succ i =>
        simp only [bitsToNat, List.getD_cons_succ, ← ih i d (by omega)]
        rw [Nat.testBit_succ]; congr 1; cases b <;> simp; omega

theorem length_pack (d : List Bool) : (pack d).length = (d.length + 7) / 8 := by simp [pack]

/-- Bit `i` of byte `k` of a packed list (R212). -/
theorem pack_getD (d : List Bool) (k : Nat) (i : Nat) (hk : k < (d.length + 7) / 8) (hi : i < 8) :
    ((pack d).getD k 0).getLsbD i = d.getD (8 * k + i) false := by
  simp [pack, List.getD, hk]
  rw [BitVec.getLsbD_ofNat]
  simp [hi, testBit_bitsToNat 8 i _ hi, List.getD]

/-- What parsing gives of a payload with these fields (R208). -/
theorem parseIncoming_payloadInBytes (p : Params) (ft fl r3 r4 : Byte) (an dg : Bytes)
    (h1 : an.length = p.nAnalog) (h2 : dg.length = p.digBytes) :
    parseIncoming p (payloadInBytes p ft fl r3 r4 an dg) = some (Incoming.mk ft (fl.getLsbD 0) (fl.getLsbD 1)
        (fl.getLsbD 2) an (unpack dg p.nDigital)) := by
  have hl : ¬ (payloadInBytes p ft fl r3 r4 an dg).length < payloadInLen p := by
    simp [payloadInBytes, payloadInLen]
    omega
  unfold parseIncoming
  rw [if_neg hl]
  simp [payloadInBytes, h1, ← h2]
  simp [← h1]
  rw [Nat.add_comm 5, ← List.drop_drop]; simp

end Sys2Proof.Machine
end

