-- ==== Sys2Proof/Laws/Receive.lean ====
section
/-! SUPPORT. What the receive operations can do: their frames, and how a run of pushes is cut and joined. -/

namespace Sys2Proof.Machine

/-! ## The handlers ignore the result register -/

theorem rxStep_answer (b : Byte) (s : State) (r : OpResult) : rxStep b (s.answer r) = (rxStep b s).answer r := by
  cases hs : s.rxState <;> simp only [rxStep, State.answer_rxState, hs]
  · by_cases h : b = Config.delim <;> simp only [takeIdle, h, if_true, if_false] <;> rfl
  · by_cases h : s.rxCnt = 0 <;> simp only [takeLength, State.answer_rxCnt, h, if_true, if_false] <;> rfl
  · have h1 : (s.answer r).admitsData b = s.admitsData b := rfl
    have h2 : (s.answer r).tooShort b = s.tooShort b := rfl
    have h3 : ∀ c : Bool, ((s.answer r).raiseIf c .eShort).tooLong b = s.tooLong b := fun c => by cases c <;> rfl
    simp only [takeType, h1, h2]
    cases s.admitsData b
    · have h4 : (s.answer r).tooLong b = s.tooLong b := rfl
      simp only [h4]
      cases s.tooShort b <;> cases s.tooLong b <;> rfl
    · rfl
  · by_cases h : s.rxCnt = 7 <;> simp only [takeSource, pinPeer, State.answer_rxCnt, h, if_true, if_false]
    · cases hp : s.peerValid <;> simp [State.answer, State.sumWith, hp]
    · rfl
  · rfl
  · rfl
  · rfl
  · have h1 : (s.answer r).cksumOk b = s.cksumOk b := rfl
    have h2 : ∀ c, (s.answer r).policy c = s.policy c := fun c => rfl
    simp only [takeChecksum, h1, h2]
    cases hp : s.policy (s.cksumOk b) <;> cases s.cksumOk b <;> cases hn : s.frNew <;>
      simp [commit, State.raiseIf, State.raise, State.answer, State.srcIsPeer, hn]
  · by_cases h : s.rxCnt = 1 <;> simp only [takeIgnored, State.answer_rxCnt, h, if_true, if_false] <;> rfl

theorem pushDone_answer (s : State) (r : OpResult) : (s.answer r).pushDone = s.pushDone := rfl

theorem pushAccept_answer (s : State) (r : OpResult) (b : Byte) : (s.answer r).pushAccept b = s.pushAccept b := rfl

theorem rxRun_answer (bs : Bytes) (s : State) (r : OpResult) : rxRun bs (s.answer r) = (rxRun bs s).answer r := by
  induction bs generalizing s with
  | nil => rfl
  | cons b bs ih => simp only [rxRun, rxStep_answer, ih]

theorem rxRunAccepts_answer (bs : Bytes) (s : State) (r : OpResult) :
    rxRunAccepts bs (s.answer r) = rxRunAccepts bs s := by
  induction bs generalizing s with
  | nil => rfl
  | cons b bs ih => simp only [rxRunAccepts, rxStep_answer, ih, pushAccept_answer]

/-! ## Cutting and joining -/

theorem rxRun_append (xs ys : Bytes) (s : State) : rxRun (xs ++ ys) s = rxRun ys (rxRun xs s) := by
  induction xs generalizing s with
  | nil => rfl
  | cons b xs ih => simp only [List.cons_append, rxRun, ih]

theorem rxRunAccepts_append (xs ys : Bytes) (s : State) :
    rxRunAccepts (xs ++ ys) s = (rxRunAccepts xs s || rxRunAccepts ys (rxRun xs s)) := by
  induction xs generalizing s with
  | nil => simp [rxRunAccepts, rxRun]
  | cons b xs ih => simp only [List.cons_append, rxRunAccepts, rxRun, ih, Bool.or_assoc]

/-! ## Frames -/

/-- `t` differs from `s` at most in what the receive line writes (`20_memory.md` R78). -/
def RxFrame (s t : State) : Prop :=
  t = { s with
    rxState := t.rxState, rxLen := t.rxLen, rxCnt := t.rxCnt, rxSum := t.rxSum, rxType := t.rxType,
    rxPlen := t.rxPlen, rxSrc := t.rxSrc, rxQuality := t.rxQuality, rxOptions := t.rxOptions, rxCk := t.rxCk,
    rxBuf := t.rxBuf, peerValid := t.peerValid, peerAddr := t.peerAddr, frValid := t.frValid, frNew := t.frNew,
    frPlen := t.frPlen, frPayload := t.frPayload, frSrc := t.frSrc, frQuality := t.frQuality,
    frOptions := t.frOptions, frCk := t.frCk, frCkOk := t.frCkOk, frSrcIsPeer := t.frSrcIsPeer,
    codecStatus := t.codecStatus, raised := t.raised }

theorem RxFrame.refl (s : State) : RxFrame s s := rfl

theorem RxFrame.trans {s t u : State} (h : RxFrame s t) (g : RxFrame t u) : RxFrame s u := by
  unfold RxFrame at *
  rw [h] at g
  exact g

theorem rxStep_frame (b : Byte) (s : State) : RxFrame s (rxStep b s) := by
  cases hs : s.rxState <;> simp only [rxStep, hs]
  · simp only [takeIdle]; split <;> rfl
  · simp only [takeLength]; split <;> rfl
  · simp only [takeType]
    split
    · rfl
    · cases s.tooShort b <;> cases s.tooLong b <;> simp [RxFrame, skipFrame, State.raiseIf, State.raise, busBit]
  · simp only [takeSource, pinPeer]
    split
    · cases hp : s.peerValid <;> simp [RxFrame]
    · rfl
  · rfl
  · rfl
  · rfl
  · simp only [takeChecksum]
    generalize s.cksumOk b = x
    cases x <;> cases s.policy false <;> cases s.policy true <;> cases hn : s.frNew <;>
      simp [RxFrame, commit, State.raiseIf, State.raise, busBit, hn]
  · simp only [takeIgnored]; split <;> rfl

theorem rxRun_frame (bs : Bytes) (s : State) : RxFrame s (rxRun bs s) := by
  induction bs generalizing s with
  | nil => exact RxFrame.refl s
  | cons b bs ih => exact (rxStep_frame b s).trans (ih _)

/-- Without a byte taken in `Checksum` nothing is accepted. -/
theorem pushAccept_of_ne {s : State} (h : s.rxState ≠ .checksum) (b : Byte) : s.pushAccept b = false := by
  simp [State.pushAccept, State.pushDone, h]

/-! ## The handler rows -/

theorem rowStep_of_selected {row : Instr} {b : Byte} {t s : State} (h : decodeLine s.ctx b = row) :
    rowStep row b t s = t.answer (.push s.pushDone (s.pushAccept b)) := if_pos h

theorem rowStep_of_unselected {row : Instr} {b : Byte} {t s : State} (h : decodeLine s.ctx b ≠ row) :
    rowStep row b t s = s.answer .notEnabled := if_neg h

end Sys2Proof.Machine
end

