-- ==== Sys2Proof/Laws/Runs.lean ====
section
/-! SUPPORT. What pushing the parts of a frame does (`40_decoder.md` R126 to R137), and what no push can do. -/

namespace Sys2Proof.Machine

theorem rxRun_cons (b : Byte) (bs : Bytes) (s : State) : rxRun (b :: bs) s = rxRun bs (rxStep b s) := rfl

/-- Delimiter and length field (R126, R127). -/
theorem rxRun_length {s : State} (hs : s.rxState = .idle) (h l : Byte) :
    rxRun [Config.delim, h, l] s =
      { s with
        rxState := .type
        rxCnt := 0
        rxLen := BitVec.ofNat 16 (unBE16 h l)
        rxSum := if s.params.cksumCoversLength then h + l else 0 } := by
  simp only [rxRun, rxStep, hs, takeIdle, openFrame, takeLength, takeLengthHigh, takeLengthLow,
      State.sumWithLength, if_true]
  cases hc : s.params.cksumCoversLength
  · simp [unBE16]
    simp [BitVec.ofNat_add]
  · simp [unBE16]
    simp [BitVec.ofNat_add]

/-- The type byte of an admitted data frame (R128). -/
theorem rxStep_type {s : State} (hs : s.rxState = .type) (h1 : 11 ≤ s.rxLen.toNat)
    (h2 : s.rxLen.toNat - 11 ≤ s.params.rxPayloadMax) :
    rxStep s.params.typeRx64 s = { s with
        rxSum := s.rxSum + s.params.typeRx64
        rxType := s.params.typeRx64
        rxPlen := BitVec.ofNat 16 (s.rxLen.toNat - 11)
        rxCnt := 0
        rxState := .sourceAddr } := by
  have : s.admitsData s.params.typeRx64 = true := by simp [State.admitsData, Config.hdrLen, h1, h2]
  simp only [rxStep, hs, takeType, this, if_true, admitFrame, State.sumWith, Config.hdrLen]

/-- The eight address bytes, with the pin (R130, R131). -/
theorem rxRun_source {s : State} (hs : s.rxState = .sourceAddr) (hc : s.rxCnt = 0) (a : Addr) :
    rxRun (addrBytes a) s = { s with
        rxSum := s.rxSum + sum8 (addrBytes a)
        rxSrc := a
        peerAddr := if s.peerValid then s.peerAddr else a
        peerValid := true
        rxCnt := 0
        rxState := .quality } := by
  have e : s.rxSum + sum8 (addrBytes a) = s.rxSum + a.b0 + a.b1 + a.b2 + a.b3 + a.b4 + a.b5 + a.b6 + a.b7 := by
    simp [addrBytes, sum8, BitVec.add_assoc]
  rw [e]
  cases hp : s.peerValid <;>
  simp [addrBytes, rxRun, rxStep, hs, takeSource, hc, pinPeer, hp, State.sumWith] <;>
  simp [addrSet]

/-- Payload bytes: stored in order, the rest of the space unchanged (R134). -/
theorem rxRun_payload {s : State} (hs : s.rxState = .payload) (bs : Bytes) (hc : s.rxCnt.toNat < s.rxPlen.toNat)
    (hl : s.rxCnt.toNat + bs.length ≤ s.rxPlen.toNat) :
    ∃ m : Memory, rxRun bs s = { s with
        rxSum := s.rxSum + sum8 bs
        rxBuf := m
        rxCnt := if s.rxCnt.toNat + bs.length = s.rxPlen.toNat then 0 else s.rxCnt + BitVec.ofNat 16 bs.length
        rxState := if s.rxCnt.toNat + bs.length = s.rxPlen.toNat then .checksum else .payload } ∧
      (s.rxBuf.wf → m.wf ∧ ∀ j, m.read j = if h : s.rxCnt.toNat ≤ j ∧ j - s.rxCnt.toNat < bs.length
          then bs[j - s.rxCnt.toNat] else s.rxBuf.read j) := by
  induction bs generalizing s with
  | nil =>
    refine ⟨s.rxBuf, ?_, fun h => ⟨h, fun j => by simp⟩⟩
    have : ¬ s.rxCnt.toNat = s.rxPlen.toNat := by omega
    simp [rxRun, sum8, this, ← hs]
  | cons b bs ih =>
    rw [List.length_cons] at hl
    by_cases hlast : s.rxCnt.toNat + 1 = s.rxPlen.toNat
    · obtain rfl : bs = [] := by rw [List.eq_nil_iff_length_eq_zero]; omega
      refine ⟨s.rxBuf.write s.rxCnt.toNat b, ?_, fun h => ⟨Memory.write_wf h _ _, fun j => ?_⟩⟩
      · simp [rxRun, rxStep, hs, takePayload, hlast, State.sumWith, sum8]
      · rw [Memory.read_write h]
        by_cases hj : j = s.rxCnt.toNat
        · subst hj; simp
        · rw [if_neg hj, dif_neg]; simp; omega
    · have hlt := s.rxPlen.isLt
      have h1 : (s.rxCnt + 1).toNat = s.rxCnt.toNat + 1 := by
        rw [BitVec.toNat_add]; simp; omega
      have e : rxStep b s =
          { s with rxSum := s.rxSum + b, rxBuf := s.rxBuf.write s.rxCnt.toNat b, rxCnt := s.rxCnt + 1 } := by
        simp [rxStep, hs, takePayload, hlast, State.sumWith]
      obtain ⟨m, hm, hr⟩ := ih (s := rxStep b s) (by rw [e]; exact hs) (by rw [e]; simp only [h1]; omega)
          (by rw [e]; simp only [h1]; omega)
      refine ⟨m, ?_, ?_⟩
      · rw [rxRun, hm, e]
        simp only [h1, List.length_cons, sum8]
        have hiff : s.rxCnt.toNat + 1 + bs.length = s.rxCnt.toNat + (bs.length + 1) := by omega
        rw [hiff, BitVec.add_assoc, BitVec.add_assoc]
        congr 2
        rw [BitVec.add_comm 1, BitVec.ofNat_add]
        rfl
      · intro hw
        rw [e] at hr
        obtain ⟨hmw, hmr⟩ := hr (Memory.write_wf hw _ _)
        refine ⟨hmw, fun j => ?_⟩
        rw [hmr j]
        simp only [h1, Memory.read_write hw]
        by_cases hj : j = s.rxCnt.toNat
        · subst hj
          rw [dif_neg (by omega), if_pos rfl, dif_pos (by simp)]; simp
        · by_cases hj2 : s.rxCnt.toNat + 1 ≤ j ∧ j - (s.rxCnt.toNat + 1) < bs.length
          · rw [dif_pos hj2, dif_pos (by simp; omega)]
            have : j - s.rxCnt.toNat = (j - (s.rxCnt.toNat + 1)) + 1 := by omega
            simp only [this, List.getElem_cons_succ]
          · rw [dif_neg hj2, if_neg hj, dif_neg (by simp; omega)]

/-- Skipped bytes (R137). -/
theorem rxRun_ignore {s : State} (bs : Bytes) (hs : s.rxState = .ignoreUnknown) (hl : bs.length ≤ s.rxCnt.toNat)
    (h1 : 1 ≤ s.rxCnt.toNat) :
    rxRun bs s = { s with
        rxCnt := BitVec.ofNat 16 (s.rxCnt.toNat - bs.length)
        rxState := if s.rxCnt.toNat = bs.length then .idle else .ignoreUnknown } := by
  induction bs generalizing s with
  | nil =>
    have : ¬ s.rxCnt.toNat = 0 := by omega
    simp [rxRun, this, ← hs]
  | cons b bs ih =>
    rw [List.length_cons] at hl
    rw [rxRun]
    by_cases h : s.rxCnt = 1#16
    · have hc : s.rxCnt.toNat = 1 := by rw [h]; rfl
      obtain rfl : bs = [] := by rw [List.eq_nil_iff_length_eq_zero]; omega
      simp [rxRun, rxStep, hs, takeIgnored, h]
    · have h2 : s.rxCnt.toNat ≠ 1 := fun e => h (by apply BitVec.eq_of_toNat_eq; rw [e]; rfl)
      have e : rxStep b s = { s with rxCnt := s.rxCnt - 1 } := by simp [rxStep, hs, takeIgnored, h]
      have hlt := s.rxCnt.isLt
      have e2 : (s.rxCnt - 1).toNat = s.rxCnt.toNat - 1 := by rw [BitVec.toNat_sub]; simp; omega
      rw [e, ih (s := { s with rxCnt := s.rxCnt - 1 }) hs (by simp only [e2]; omega) (by simp only [e2]; omega)]
      simp only [e2, List.length_cons]
      have a1 : s.rxCnt.toNat - 1 - bs.length = s.rxCnt.toNat - (bs.length + 1) := by omega
      have a2 : (s.rxCnt.toNat - 1 = bs.length) ↔ (s.rxCnt.toNat = bs.length + 1) := by omega
      simp only [a1, a2]

theorem or_and_self_left (x m : Byte) : (x ||| m) &&& x = x := by
  ext i; simp; intro h; exact .inl h

theorem and_of_or_masked {x m k : Byte} (h : m &&& k = 0) : (x ||| m) &&& k = x &&& k := by
  rw [BitVec.and_comm, BitVec.and_or_distrib_left, BitVec.and_comm k m, h, BitVec.and_comm]; simp

theorem or_masked_trans {a x y z : Byte} {mk : Byte} (h : ∃ m : Byte, y = x ||| m ∧ m &&& mk = 0) (g : ∃ m : Byte,
    z = y ||| m ∧ m &&& mk = 0) : ∃ m : Byte, z = x ||| m ∧ m &&& mk = 0 := by
  obtain ⟨m, rfl, h⟩ := h
  obtain ⟨n, rfl, g⟩ := g
  refine ⟨m ||| n, BitVec.or_assoc .., ?_⟩
  rw [BitVec.and_comm, BitVec.and_or_distrib_left] <;> simp [BitVec.and_comm mk, h, g]

/-- A push only sets bits of `codec_status`, and only those of the receive causes (R266, R269 to R271, R275). -/
theorem rxStep_codecStatus (b : Byte) (s : State) : ∃ m : Byte, (rxStep b s).codecStatus = s.codecStatus ||| m ∧
    m &&& ~~~0x47 = 0 := by
  have z : ∀ t : State, t.codecStatus = s.codecStatus → ∃ m : Byte, t.codecStatus = s.codecStatus ||| m ∧
      m &&& ~~~0x47 = 0 := by
    intro t h; exact ⟨0, by simp [h], by decide⟩
  cases hs : s.rxState <;> simp only [rxStep, hs]
  · apply z; simp only [takeIdle]; split <;> rfl
  · apply z; simp only [takeLength]; split <;> rfl
  · simp only [takeType]
    split
    · exact z _ rfl
    · cases s.tooShort b <;> cases s.tooLong b
      · exact z _ rfl
      · exact ⟨0x04, rfl, by decide⟩
      · exact ⟨0x02, rfl, by decide⟩
      · exact ⟨0x06, by simp [skipFrame, State.raiseIf, codecBit, BitVec.or_assoc], by decide⟩
  · apply z; simp only [takeSource, pinPeer]
    split
    · cases hp : s.peerValid <;> simp
    · rfl
  · exact z _ rfl
  · exact z _ rfl
  · exact z _ rfl
  · simp only [takeChecksum]
    cases s.policy (s.cksumOk b) <;> cases s.cksumOk b <;> cases hn : s.frNew <;> simp [commit, State.raiseIf, hn,
        codecBit]
    · exact ⟨1, rfl, by decide⟩
    · exact ⟨1, rfl, by decide⟩
    · exact z s rfl
    · exact z s rfl
    · exact ⟨1, rfl, by decide⟩
    · exact ⟨0x41, by simp [BitVec.or_assoc], by decide⟩
    · exact z s rfl
    · exact ⟨0x40, rfl, by decide⟩
  · apply z; simp only [takeIgnored]; split <;> rfl

theorem rxRun_codecStatus (bs : Bytes) (s : State) : ∃ m : Byte, (rxRun bs s).codecStatus = s.codecStatus ||| m ∧
    m &&& ~~~0x47 = 0 := by
  induction bs generalizing s with
  | nil => exact ⟨0, by simp [rxRun], by decide⟩
  | cons b bs ih => exact or_masked_trans (a := 0) (rxStep_codecStatus b s) (ih _)

/-- A pinned peer stays pinned (R131). -/
theorem rxStep_peer (b : Byte) (s : State) (h : s.peerValid = true) : (rxStep b s).peerValid = true ∧
    (rxStep b s).peerAddr = s.peerAddr := by
  cases hs : s.rxState <;> simp only [rxStep, hs]
  · simp only [takeIdle]; split <;> exact ⟨h, rfl⟩
  · simp only [takeLength]; split <;> exact ⟨h, rfl⟩
  · simp only [takeType]
    split
    · exact ⟨h, rfl⟩
    · cases s.tooShort b <;> cases s.tooLong b <;> exact ⟨h, rfl⟩
  · simp only [takeSource, pinPeer]
    split <;> simp [h]
  · exact ⟨h, rfl⟩
  · exact ⟨h, rfl⟩
  · exact ⟨h, rfl⟩
  · simp only [takeChecksum]
    cases s.policy (s.cksumOk b) <;> cases s.cksumOk b <;> cases hn : s.frNew <;> simp [commit, State.raiseIf, hn, h]
  · simp only [takeIgnored]; split <;> exact ⟨h, rfl⟩

theorem rxRun_peer (bs : Bytes) (s : State) (h : s.peerValid = true) : (rxRun bs s).peerValid = true ∧
    (rxRun bs s).peerAddr = s.peerAddr := by
  induction bs generalizing s with
  | nil => exact ⟨h, rfl⟩
  | cons b bs ih =>
    obtain ⟨h1, h2⟩ := rxStep_peer b s h
    obtain ⟨h3, h4⟩ := ih _ h1
    exact ⟨h3, h4.trans h2⟩

end Sys2Proof.Machine
end

