-- ==== Sys2Proof/Laws/Step.lean ====
section
/-! SUPPORT. All that a step can do. -/

namespace Sys2Proof.Machine

/-- A step that goes on changes nothing, or runs one instruction on the state without its first event (with one free
value drawn before, for a transaction no motor row matches), or rejects a payload. -/
theorem step_next_cases {s t : State} (h : step s = .next t) :
    (s.inbox = [] ∧ t = s) ∨ (∃ i, exec i s.popInbox = .next t) ∨ (∃ i, exec i s.popInbox.drew = .next t) ∨
      t = s.popInbox.answer .rejected := by
  unfold step runNext at h
  split at h
  · left
    exact ⟨by assumption, (Host.Outcome.next.inj h).symm⟩
  · right
    unfold runCode at h
    split at h
    · exact .inl ⟨_, h⟩
    · unfold runUnmatched at h
      split at h
      · exact .inl ⟨_, h⟩
      · exact .inr (.inl ⟨_, h⟩)
      · exact .inr (.inr (Host.Outcome.next.inj h).symm)
      all_goals cases h

/-- With nothing waiting a run stays where it is. -/
theorem run_of_inbox_nil {s : State} (h : s.inbox = []) (n : Nat) : Sys2Proof.core.run n s = .next s := by
  have e : Sys2Proof.core.step s = .next s := by
    show runNext s = .next s
    unfold runNext
    rw [h]
  induction n with
  | zero => rfl
  | succ n ih => simp only [Host.Core.run, e]; exact ih

end Sys2Proof.Machine
end

