-- ==== Sys2Proof/Laws/Telemetry.lean ====
section
/-! SUPPORT. All that a read and the host's actions on a payload can do (`40_decoder.md` R140, `44_host_environment.md` R227). -/

namespace Sys2Proof.Machine

/-- A read changes no register of the block, and draws at most one free value (R71, R140). -/
theorem readInto_frame (a : ReadAnswer) (s : State) :
    ∃ d r, readInto a s = { s with draws := d, result := r } ∧ s.draws ≤ d ∧ d ≤ s.draws + 1 := by
  cases a
  case known v => exact ⟨s.draws, .value v, rfl, Nat.le_refl _, Nat.le_succ _⟩
  case anyByte => exact ⟨s.draws + 1, _, rfl, Nat.le_succ _, Nat.le_refl _⟩
  case anyLen => exact ⟨s.draws + 1, _, rfl, Nat.le_succ _, Nat.le_refl _⟩
  case noSuch => exact ⟨s.draws, .refused none, rfl, Nat.le_refl _, Nat.le_succ _⟩

/-- The host takes a payload: it is accepted and its records are replaced, or rejected and nothing changes (R208, R227). -/
theorem takeIncoming_cases (bs : Bytes) (s : State) :
    (∃ st, parseIncoming s.params bs = some st ∧ takeIncoming bs s = (acceptIncoming st s).answer .accepted) ∨
      parseIncoming s.params bs = none ∧ takeIncoming bs s = s.answer .rejected := by
  unfold takeIncoming
  cases h : parseIncoming s.params bs
  · exact .inr ⟨rfl, rfl⟩
  · exact .inl ⟨_, rfl, rfl⟩

theorem takeIncoming_of_some {bs : Bytes} {st : Incoming} {s : State} (h : parseIncoming s.params bs = some st) :
    takeIncoming bs s = (acceptIncoming st s).answer .accepted := by simp only [takeIncoming, h]

/-- What an acceptance writes: the inbound record, its mirror, the time stamp and the clock (R215, R227). -/
theorem acceptIncoming_frame (st : Incoming) (s : State) :
    acceptIncoming st s = { s with telemetry := (acceptIncoming st s).telemetry, draws := s.draws + 1 } := rfl

/-- The records after an acceptance, in full (R227). -/
@[simp] theorem acceptIncoming_telemetry (st : Incoming) (s : State) :
    (acceptIncoming st s).telemetry =
      { incoming := st
        outgoing := { analog := st.analog, digital := st.digital }
        lastUpdate := s.telemetry.clock + Config.clockStep s.draws
        clock := s.telemetry.clock + Config.clockStep s.draws } := rfl

end Sys2Proof.Machine
end

