-- ==== Sys2Proof/Laws/Transmit.lean ====
section
/-! SUPPORT. All that the encoder operations can do (`41_encoder.md` R156, R157). -/

namespace Sys2Proof.Machine

theorem encodeTo_cases (d f p s) : (∃ c, encodeTo d f p s = s.refuse c ∧ (c = .eFid ∨ c = .eTxlen)) ∨
    encodeTo d f p s = sendFrame (encodeFrame s.params d f p) s := by
  unfold encodeTo; split
  · exact .inl ⟨_, rfl, .inl rfl⟩
  split
  · exact .inl ⟨_, rfl, .inr rfl⟩
  · exact .inr rfl

theorem sendToPeer_cases (p s) : (∃ c, sendToPeer p s = s.refuse c ∧ (c = .eNopeer ∨ c = .eTxlen)) ∨
    sendToPeer p s = { sendFrame (encodeFrame s.params s.peerAddr
    (s.txFid.setWidth 8) p) s with txFid := nextFid s.txFid } := by
  unfold sendToPeer; split
  · exact .inl ⟨_, rfl, .inl rfl⟩
  split
  · exact .inl ⟨_, rfl, .inr rfl⟩
  · exact .inr rfl

theorem fid_setWidth (f : Fid) : f.setWidth 8 = BitVec.ofNat 8 f.toNat := by
  apply BitVec.eq_of_toNat_eq; simp

end Sys2Proof.Machine
end

