-- ==== Sys2Proof/Laws/Host.lean ====
section
/-! SUPPORT. All that a tick of the Supervisor and a move of a thread can do, and what the host's duties of
`44_host_environment.md` R249 give. -/

namespace Sys2Proof.Machine

/-! ## The calls of a tick -/

@[simp] theorem Supervisor.called_prevCanMove (i : Nat) (sup : Supervisor) :
    (sup.called i).prevCanMove = sup.prevCanMove := rfl
@[simp] theorem Supervisor.called_calls (i : Nat) (sup : Supervisor) :
    (sup.called i).calls = sup.calls ++ [levelCall sup.prevCanMove i] := rfl
@[simp] theorem Supervisor.called_waiting (i : Nat) (sup : Supervisor) : (sup.called i).waiting = sup.waiting := rfl
@[simp] theorem Supervisor.called_todo (i : Nat) (sup : Supervisor) : (sup.called i).todo = sup.todo := rfl

/-- One level-driven call: all that `issueCalls` can do with its first actuator (R234, R249 (e), R312). -/
theorem issueCalls_cons (a : BusPort) (i : Nat) (as : List (BusPort × Nat)) (sup : Supervisor) (s : State) :
    ((s.req a.requester).pending = true ∧
      issueCalls ((a, i) :: as) sup s = ({ sup with todo := (a, i) :: as, waiting := false }, s)) ∨
    ((s.req a.requester).pending = false ∧ (actuate a s).result = .blocked ∧
      issueCalls ((a, i) :: as) sup s = ({ sup.called i with todo := (a, i) :: as, waiting := true }, actuate a s)) ∨
    ((s.req a.requester).pending = false ∧ (actuate a s).result ≠ .blocked ∧
      issueCalls ((a, i) :: as) sup s = issueCalls as (sup.called i) (actuate a s)) := by
  rw [issueCalls]
  cases (s.req a.requester).pending
  · by_cases h : (actuate a s).result = .blocked
    · exact .inr (.inl ⟨rfl, h, by rw [if_neg (by simp), if_pos h]⟩)
    · exact .inr (.inr ⟨rfl, h, by rw [if_neg (by simp), if_neg h]⟩)
  · exact .inl ⟨rfl, by rw [if_pos rfl]⟩

/-- The calls made and the calls owed stay the same list; the effective `canMove` is kept. -/
theorem issueCalls_calls (as : List (BusPort × Nat)) (sup : Supervisor) (s : State) :
    (issueCalls as sup s).1.prevCanMove = sup.prevCanMove ∧
    (issueCalls as sup s).1.calls ++ (issueCalls as sup s).1.owed =
      sup.calls ++ as.map fun a => levelCall sup.prevCanMove a.2 := by
  induction as generalizing sup s with
  | nil => exact ⟨rfl, by simp [issueCalls, Supervisor.owed]⟩
  | cons a as ih =>
    obtain ⟨a, i⟩ := a
    rcases issueCalls_cons a i as sup s with ⟨-, e⟩ | ⟨-, -, e⟩ | ⟨-, -, e⟩ <;> rw [e]
    · exact ⟨rfl, rfl⟩
    · exact ⟨rfl, by simp [Supervisor.owed]⟩
    · obtain ⟨h1, h2⟩ := ih (sup.called i) (actuate a s)
      exact ⟨h1, by rw [h2]; simp⟩

/-- A tick that waits has a request pending on the port it waits for. -/
theorem actuate_blocked {a : BusPort} {s : State} (hw : ReqFile.wf s.reqs) (h : (actuate a s).result = .blocked) :
    ((actuate a s).req a.requester).pending = true := by
  unfold actuate at *
  rcases executeBatch_cases deviceAnswer a.requester [actuatorBytes s.draws] a.timeoutMs a.cfg s.drew with
    ⟨-, e⟩ | ⟨-, -, e⟩ | ⟨-, -, e⟩ <;> rw [e] at h ⊢
  · cases h
  · show ((placeRequest a.requester _ _ _ s.drew).req a.requester).pending = true
    unfold placeRequest
    rw [State.req_setReq (by exact hw), if_pos rfl]
  · cases h

theorem actuate_wf {a : BusPort} {s : State} (hw : ReqFile.wf s.reqs) : ReqFile.wf (actuate a s).reqs := by
  unfold actuate
  rcases executeBatch_cases deviceAnswer a.requester [actuatorBytes s.draws] a.timeoutMs a.cfg s.drew with
    ⟨-, e⟩ | ⟨-, -, e⟩ | ⟨-, -, e⟩ <;> rw [e]
  · exact hw
  · exact State.setReq_wf (s := s.drew) hw _ _
  · exact (req_runWindow (State.setReq_wf (s := s.drew) hw _ _) _ _).1

/-- On a free bus with no request pending a call returns at once, and leaves the bus free and nothing pending (R181). -/
theorem actuate_free {a : BusPort} {s : State} (hw : ReqFile.wf s.reqs) (hb : s.busBusy = false)
    (hp : ∀ j, (s.req j).pending = false) :
    (actuate a s).result ≠ .blocked ∧ (actuate a s).busBusy = false ∧ ∀ j, ((actuate a s).req j).pending = false := by
  have ho : s.drew.othersPending a.requester = false := othersPending_of_none (s := s.drew) hw hp _
  unfold actuate
  rcases executeBatch_cases deviceAnswer a.requester [actuatorBytes s.draws] a.timeoutMs a.cfg s.drew with
    ⟨-, e⟩ | ⟨-, hc, -⟩ | ⟨-, -, e⟩
  · rw [e]
    exact ⟨by simp [State.reject, State.answer], hb, hp⟩
  · rw [ho] at hc
    simp [State.drew, hb] at hc
  · rw [e]
    obtain ⟨-, h2, h3, h4⟩ := req_runWindow (State.setReq_wf (s := s.drew) hw a.requester
      { s.drew.req a.requester with
        batch := [actuatorBytes s.draws], timeoutMs := fitTimeout s.params a.timeoutMs, cfg := fitCfg s.params a.cfg,
        done := false, pending := true }) deviceAnswer a.requester
    refine ⟨by simp [runWindow, State.answer, closeResult], h4, fun j => ?_⟩
    by_cases hj : j = a.requester
    · subst hj; exact h3
    · refine (congrArg Req.pending (h2 j hj)).trans ?_
      rw [State.req_setReq (by exact hw), if_neg hj]
      exact hp j

theorem issueCalls_waiting (as : List (BusPort × Nat)) (sup : Supervisor) (s : State) (hw : ReqFile.wf s.reqs)
    (h : (issueCalls as sup s).1.waiting = true) :
    ∃ a i bs, (issueCalls as sup s).1.todo = (a, i) :: bs ∧ ((issueCalls as sup s).2.req a.requester).pending = true := by
  induction as generalizing sup s with
  | nil => cases h
  | cons a as ih =>
    obtain ⟨a, i⟩ := a
    rcases issueCalls_cons a i as sup s with ⟨-, e⟩ | ⟨-, hr, e⟩ | ⟨-, -, e⟩ <;> rw [e] at h ⊢
    · cases h
    · exact ⟨a, i, as, rfl, actuate_blocked hw hr⟩
    · exact ih _ _ (actuate_wf hw) h

/-- On a free bus with no request pending all calls are made at once. -/
theorem issueCalls_free (as : List (BusPort × Nat)) (sup : Supervisor) (s : State) (hw : ReqFile.wf s.reqs)
    (hb : s.busBusy = false) (hp : ∀ j, (s.req j).pending = false) : (issueCalls as sup s).1.todo = [] := by
  induction as generalizing sup s with
  | nil => rfl
  | cons a as ih =>
    obtain ⟨a, i⟩ := a
    obtain ⟨h1, h2, h3⟩ := actuate_free (a := a) hw hb hp
    rcases issueCalls_cons a i as sup s with ⟨h, -⟩ | ⟨-, h, -⟩ | ⟨-, -, e⟩
    · rw [hp] at h; cases h
    · exact absurd h h1
    · rw [e]; exact ih _ _ (actuate_wf hw) h2 h3

/-- A tick touches the arbiter's registers, its output and the model's own fields, and nothing else (R78, R241). -/
theorem issueCalls_frame (as : List (BusPort × Nat)) (sup : Supervisor) (s : State) :
    BusFrame s (issueCalls as sup s).2 := by
  induction as generalizing sup s with
  | nil => rfl
  | cons a as ih =>
    obtain ⟨a, i⟩ := a
    have f : BusFrame s (actuate a s) := (busFrame_drew s).trans (busFrame_executeBatch ..)
    rcases issueCalls_cons a i as sup s with ⟨-, e⟩ | ⟨-, -, e⟩ | ⟨-, -, e⟩ <;> rw [e]
    · rfl
    · exact f
    · exact f.trans (ih _ _)

/-- `continueTick` waits, or makes the calls that are left. -/
theorem continueTick_cases (sup : Supervisor) (s : State) :
    (∃ a i as, sup.waiting = true ∧ sup.todo = (a, i) :: as ∧ (s.req a.requester).done = false ∧
      continueTick sup s = (sup, s)) ∨
    continueTick sup s = issueCalls (if sup.waiting then sup.todo.tail else sup.todo) sup s := by
  unfold continueTick
  split
  · rename_i a i as hw ht
    cases hd : (s.req a.requester).done
    · exact .inl ⟨a, i, as, hw, ht, hd, by simp⟩
    · exact .inr (by simp [hw, ht])
  · rename_i todo hn
    right
    cases hw : sup.waiting
    · simp
    · cases ht : sup.todo with
      | nil => simp
      | cons a as => exact absurd ht (hn a.1 a.2 as hw)

/-! ## Moves of the threads -/

theorem perform_of_next {i : Instr} {s t : State} (h : exec i s = .next t) : perform i s = t := by
  unfold perform
  rw [h]

/-- The calls a tick makes when nothing stops it (R234, R237, R238). -/
theorem decideTick_calls (p : Params) (now : Nat) (snap : Incoming × Nat) (sup : Supervisor) :
    (decideTick p now snap sup).calls ++ (decideTick p now snap sup).owed =
      tickCalls sup.prevCanMove (effectiveCanMove p now snap) sup.registry.length := by
  have e : ((sup.registry.map Actuator.port).zipIdx.map fun a => levelCall (effectiveCanMove p now snap) a.2) =
      (List.range sup.registry.length).map (levelCall (effectiveCanMove p now snap)) := by
    rw [show (fun a : BusPort × Nat => levelCall (effectiveCanMove p now snap) a.2) =
      levelCall (effectiveCanMove p now snap) ∘ Prod.snd from rfl, ← List.map_map, List.zipIdx_map_snd]
    simp [List.range_eq_range']
  simp only [decideTick, Supervisor.owed, tickCalls, Bool.false_eq_true, if_false, e]

/-- All that a move of a tick's calls can do: wait, return, hold the call back, request, or have the request refused. -/
theorem moveCall_cases {sup : Supervisor} {a : BusPort} {i : Nat} {as : List (BusPort × Nat)}
    (ht : sup.todo = (a, i) :: as) (s : State) :
    (sup.waiting = true ∧ (s.req a.requester).done = false ∧ moveCall sup s = (sup, s)) ∨
    (sup.waiting = true ∧ (s.req a.requester).done = true ∧
      moveCall sup s = ({ sup with todo := as, waiting := false }, s)) ∨
    (sup.waiting = false ∧ (s.req a.requester).pending = true ∧ moveCall sup s = (sup, s)) ∨
    (sup.waiting = false ∧ (s.req a.requester).pending = false ∧ s.requestOk a.requester [actuatorBytes s.draws] = true ∧
      moveCall sup s = ({ sup.called i with waiting := true },
        (placeRequest a.requester [actuatorBytes s.draws] a.timeoutMs a.cfg s.drew).answer .none)) ∨
    (sup.waiting = false ∧ (s.req a.requester).pending = false ∧ s.requestOk a.requester [actuatorBytes s.draws] = false ∧
      moveCall sup s = ({ sup.called i with todo := as }, s.drew.reject)) := by
  have ok : s.drew.requestOk a.requester [actuatorBytes s.draws] = s.requestOk a.requester [actuatorBytes s.draws] := rfl
  unfold moveCall
  rw [ht]
  cases hw : sup.waiting <;> cases hd : (s.req a.requester).done <;> cases hp : (s.req a.requester).pending <;>
    cases ho : s.requestOk a.requester [actuatorBytes s.draws] <;> simp_all [perform, exec, execBusRequest]

/-- A move of the calls keeps the list of calls made and owed, and the effective `canMove`. -/
theorem moveCall_calls (sup : Supervisor) (s : State) :
    (moveCall sup s).1.prevCanMove = sup.prevCanMove ∧
    (moveCall sup s).1.calls ++ (moveCall sup s).1.owed = sup.calls ++ sup.owed := by
  cases ht : sup.todo with
  | nil => rw [show moveCall sup s = (sup, s) by unfold moveCall; rw [ht]]; exact ⟨rfl, rfl⟩
  | cons a as =>
    obtain ⟨a, i⟩ := a
    rcases moveCall_cases ht s with ⟨hw, -, e⟩ | ⟨hw, -, e⟩ | ⟨hw, -, e⟩ | ⟨hw, -, -, e⟩ | ⟨hw, -, -, e⟩ <;>
      rw [e] <;>
      simp [Supervisor.owed, hw, ht]

/-- While calls are owed, no move of any thread changes what a tick has made and still owes: a commit, a send or an
arbiter's step between two calls changes no call of the tick under way (R233, R234). -/
theorem hostMove_calls {h : HostSystem} (ht : h.sup.todo ≠ []) (m : HostMove) :
    (hostMove m h).sup.prevCanMove = h.sup.prevCanMove ∧
    (hostMove m h).sup.calls ++ (hostMove m h).sup.owed = h.sup.calls ++ h.sup.owed := by
  have other {k : HostSystem} (e : k.sup = h.sup) :
      k.sup.prevCanMove = h.sup.prevCanMove ∧ k.sup.calls ++ k.sup.owed = h.sup.calls ++ h.sup.owed := by
    rw [e]; exact ⟨rfl, rfl⟩
  cases m with
  | block i => exact other (by simp only [hostMove]; split <;> rfl)
  | task t avail =>
    cases t with
    | operator => exact other (by show h.moveOperator.sup = h.sup; unfold HostSystem.moveOperator; split <;> rfl)
    | autonomous => exact other (by show h.moveAutonomous.sup = h.sup; unfold HostSystem.moveAutonomous; split <;> rfl)
    | poll => exact other (by show (h.movePoll avail).sup = h.sup; unfold HostSystem.movePoll; split <;> rfl)
    | telemetry => exact other (by show h.moveTelemetry.sup = h.sup; unfold HostSystem.moveTelemetry; split <;> rfl)
    | supervisor =>
      rw [show hostMove (.task .supervisor avail) h = h.moveSupervisor from rfl]
      unfold HostSystem.moveSupervisor
      split
      · rename_i hs _; exact absurd hs ht
      · rename_i hs _; exact absurd hs ht
      · exact moveCall_calls h.sup h.machine

/-- `t` differs from `s` at most in what agents other than PollTask write without a `RESET`: TelemetryTask's transmit side,
the arbiter's and the requesters' registers, the status registers, the host's clock and the model's own fields (R78). -/
def HostFrame (s t : State) : Prop :=
  t = { s with
    telemetry := { s.telemetry with clock := t.telemetry.clock }
    txFid := t.txFid, txOut := t.txOut, codecStatus := t.codecStatus
    busBusy := t.busBusy, busOwner := t.busOwner, busIdx := t.busIdx, busFail := t.busFail
    busCfgValid := t.busCfgValid, busCfg := t.busCfg, reqs := t.reqs, busStatus := t.busStatus
    busOut := t.busOut, draws := t.draws, raised := t.raised, result := t.result, windows := t.windows }

theorem BusFrame.hostFrame {s t : State} (h : BusFrame s t) : HostFrame s t := by
  unfold BusFrame at h
  unfold HostFrame
  rw [h]

/-- What another agent than the five tasks does, `RESET` apart. -/
theorem admits_frame {h : HostSystem} {i : Instr} (ha : h.admits i = true) (hr : i ≠ .reset) (s : State) :
    HostFrame s (perform i s) := by
  have motor (m : MotorMode) (g : Byte) : BusFrame s (issueMotor m g s) := by
    unfold issueMotor
    split
    · exact (busFrame_drew s).trans ((busFrame_transfer _ _).trans (busFrame_answer _ _))
    · rfl
  cases i <;> simp only [HostSystem.admits, Bool.false_eq_true] at ha
  case motorRev g => exact (motor .reverse g).hostFrame
  case motorFwd g => exact (motor .forward g).hostFrame
  case motorBrk g => exact (motor .brake g).hostFrame
  case reset => exact absurd rfl hr
  case rxRead n j =>
    obtain ⟨d, r, e, -⟩ := readInto_frame (s.readAnswer j n) s
    rw [perform_of_next (i := .rxRead n j) rfl, e]
    rfl
  case busRequest r b t c =>
    rw [perform_of_next (i := .busRequest r b t c) rfl]
    split
    · exact ((busFrame_placeRequest ..).trans (busFrame_answer _ _)).hostFrame
    · rfl
  case busGrant r =>
    rw [perform_of_next (i := .busGrant r) rfl]
    split
    · exact ((busFrame_openWindow ..).trans (busFrame_answer _ _)).hostFrame
    · rfl
  case busXfer o =>
    rw [perform_of_next (i := .busXfer o) rfl]
    split
    · exact ((busFrame_transfer ..).trans (busFrame_answer _ _)).hostFrame
    · rfl
  case busComplete =>
    rw [perform_of_next (i := .busComplete) rfl]
    split
    · exact ((busFrame_closeWindow _).trans (busFrame_answer _ _)).hostFrame
    · rfl
  case busExecute r b t c => exact (busFrame_executeBatch ..).hostFrame
  case clrStatus m n => rfl

theorem sendToPeer_frame (payload : Bytes) (s : State) : HostFrame s (sendToPeer payload s) := by
  rcases sendToPeer_cases payload s with ⟨c, e, rfl | rfl⟩ | e <;> rw [e]
  · simp [HostFrame, State.refuse, State.raise, State.answer, codecBit, busBit]
  · simp [HostFrame, State.refuse, State.raise, State.answer, codecBit, busBit]
  · rfl

theorem moveCall_frame (sup : Supervisor) (s : State) : HostFrame s (moveCall sup s).2 := by
  cases ht : sup.todo with
  | nil => rw [show moveCall sup s = (sup, s) by unfold moveCall; rw [ht]]; rfl
  | cons a as =>
    obtain ⟨a, i⟩ := a
    rcases moveCall_cases ht s with ⟨-, -, e⟩ | ⟨-, -, e⟩ | ⟨-, -, e⟩ | ⟨-, -, -, e⟩ | ⟨-, -, -, e⟩ <;> rw [e]
    case inr.inr.inr.inl =>
      exact ((busFrame_drew s).trans ((busFrame_placeRequest ..).trans (busFrame_answer _ _))).hostFrame
    all_goals rfl

/-- All that a move of any thread but PollTask's can do to the machine. -/
theorem hostMove_frame {m : HostMove} (hm : ∀ avail, m ≠ .task .poll avail) (h : HostSystem) :
    HostFrame h.machine (hostMove m h).machine ∨
    m = .block .reset ∧ h.admits .reset = true ∧ (hostMove m h).machine = resetBlock h.machine := by
  cases m with
  | block i =>
    simp only [hostMove]
    cases ha : h.admits i
    · exact .inl rfl
    · by_cases hr : i = .reset
      · subst hr; exact .inr ⟨rfl, ha, rfl⟩
      · exact .inl (admits_frame ha hr h.machine)
  | task t avail =>
    left
    cases t with
    | operator =>
      show HostFrame h.machine h.moveOperator.machine
      unfold HostSystem.moveOperator; split <;> rfl
    | autonomous =>
      show HostFrame h.machine h.moveAutonomous.machine
      unfold HostSystem.moveAutonomous; split <;> rfl
    | poll => exact absurd rfl (hm avail)
    | telemetry =>
      show HostFrame h.machine h.moveTelemetry.machine
      unfold HostSystem.moveTelemetry
      split
      · rfl
      · exact sendToPeer_frame _ _
    | supervisor =>
      show HostFrame h.machine h.moveSupervisor.machine
      unfold HostSystem.moveSupervisor
      split
      · rfl
      · rfl
      · exact moveCall_frame _ _

/-- Sole writer of TelemetryChannel's committed state: PollTask (R230). A move of any other agent, a `RESET` included, keeps
the inbound record, the mirror and the time stamp. -/
theorem hostMove_committed {m : HostMove} (hm : ∀ avail, m ≠ .task .poll avail) (h : HostSystem) :
    (hostMove m h).machine.telemetry = { h.machine.telemetry with clock := (hostMove m h).machine.telemetry.clock } := by
  rcases hostMove_frame hm h with e | ⟨-, -, e⟩
  · rw [show _ = _ from e]
  · rw [e]; rfl

/-- While PollTask is inside its `RX_CHUNK` no other agent's move touches the receive side: at most one chunk is in progress
(R232, R249 (b)). -/
theorem hostMove_inChunk {m : HostMove} (hm : ∀ avail, m ≠ .task .poll avail) {h : HostSystem}
    (hc : h.threads.poll.inChunk = true) :
    HostFrame h.machine (hostMove m h).machine ∧ (hostMove m h).threads.poll = h.threads.poll := by
  constructor
  · rcases hostMove_frame hm h with e | ⟨-, ha, -⟩
    · exact e
    · simp [HostSystem.admits, hc] at ha
  · cases m with
    | block i => simp only [hostMove]; split <;> rfl
    | task t avail =>
      cases t with
      | operator =>
        show h.moveOperator.threads.poll = _
        unfold HostSystem.moveOperator; split <;> rfl
      | autonomous =>
        show h.moveAutonomous.threads.poll = _
        unfold HostSystem.moveAutonomous; split <;> rfl
      | poll => exact absurd rfl (hm avail)
      | telemetry =>
        show h.moveTelemetry.threads.poll = _
        unfold HostSystem.moveTelemetry; split <;> rfl
      | supervisor =>
        show h.moveSupervisor.threads.poll = _
        unfold HostSystem.moveSupervisor; split <;> rfl

/-- An uncut iteration of TelemetryTask is its two moves (R228). -/
theorem moveTelemetry_uncut {h : HostSystem} (hn : h.threads.telemetry = none) :
    h.moveTelemetry.moveTelemetry = runTask [] .telemetry h := by
  obtain ⟨m, sup, cb, ⟨o, a, p, t, sv⟩⟩ := h
  cases hn
  rfl

/-- The pushes of an uncut iteration of PollTask are `RX_CHUNK`, up to the result of the last push (R138, R227). -/
theorem movePoll_pushes (avail bs : Bytes) (accepted : Bool) (h : HostSystem)
    (hp : h.threads.poll = .pushing bs accepted) :
    ∃ r, (HostSystem.movePoll avail)^[bs.length] h =
      { h with
        machine := (rxRun bs h.machine).answer r
        threads := { h.threads with poll := .pushing [] (accepted || rxRunAccepts bs h.machine) } } := by
  obtain ⟨m, sup, cb, ⟨o, a, p, t, sv⟩⟩ := h
  cases hp
  induction bs generalizing m accepted with
  | nil => exact ⟨m.result, by simp [rxRun, rxRunAccepts, State.answer]⟩
  | cons b bs ih =>
    obtain ⟨r, e⟩ := ih (accepted || m.pushAccept b) ((rxStep b m).answer (.push m.pushDone (m.pushAccept b)))
    refine ⟨r, e.trans ?_⟩
    rw [rxRun_answer, rxRunAccepts_answer]
    simp [rxRunAccepts, rxRun, State.answer, Bool.or_assoc]

/-- An uncut iteration of PollTask in which a frame is accepted is its moves (R227). -/
theorem movePoll_uncut {h : HostSystem} (hp : h.threads.poll = .idle) {avail : Bytes}
    (ha : rxRunAccepts avail h.machine = true) :
    (HostSystem.movePoll avail)^[3 + (avail.length + 1)] h = runTask avail .poll h := by
  obtain ⟨m, sup, cb, ⟨o, a, p, t, sv⟩⟩ := h
  cases hp
  obtain ⟨r, e⟩ := movePoll_pushes avail avail false
    (HostSystem.movePoll avail ⟨m, sup, cb, ⟨o, a, .idle, t, sv⟩⟩) rfl
  rw [Function.iterate_add_apply, Function.iterate_succ_apply _ avail.length, e]
  have ht (bs : Bytes) (s : State) : takeIncoming bs ((ackFrame (s.answer r)).answer .none) = takeIncoming bs (ackFrame s) := by
    unfold takeIncoming
    simp only [ackFrame, State.answer]
    cases parseIncoming s.params bs <;> rfl
  simp only [show rxRunAccepts avail m = true from ha, Threads.between, beq_self_eq_true, Bool.true_and, Function.iterate_succ, Function.iterate_zero, Function.comp, id,
    HostSystem.movePoll, Bool.false_or, runTask, taskGuard, taskAction, if_true, pollIncoming]
  rw [show perform .rxAck ((rxRun avail m).answer r) = (ackFrame ((rxRun avail m).answer r)).answer .none from rfl, ht]
  rfl

/-! ## Runs that issue instructions -/

/-- A step moves on to the run from the next state. -/
theorem stepRuns_succ {s s' : State} (h : step s = .next s') {n : Nat} {t : State} {i : Instr} :
    StepRuns s (n + 1) t i ↔ StepRuns s' n t i := by
  have : Sys2Proof.core.run (n + 1) s = Sys2Proof.core.run n s' := by
    simp only [Host.Core.run, show Sys2Proof.core.step s = .next s' from h]
  simp only [StepRuns, this]

/-- The first step runs the instruction of the first waiting event. -/
theorem stepRuns_zero {s : State} {e : Event} {rest : List Event} (h : s.inbox = e :: rest) {t : State} {i : Instr} :
    StepRuns s 0 t i ↔ t = s ∧ eventInstr s e = some i := by
  constructor
  · rintro ⟨hr, e', rest', hi, he⟩
    cases hr
    rw [h] at hi
    cases hi
    exact ⟨rfl, he⟩
  · rintro ⟨rfl, he⟩
    exact ⟨rfl, e, rest, h, he⟩

/-- With nothing waiting no step runs an instruction. -/
theorem not_stepRuns {s : State} (h : s.inbox = []) {n : Nat} {t : State} {i : Instr} : ¬ StepRuns s n t i := by
  rintro ⟨hr, e, rest, hi, -⟩
  rw [run_of_inbox_nil h] at hr
  cases hr
  rw [h] at hi
  cases hi

/-! ## The sizes of the host's records -/

theorem parseIncoming_sizes {p : Params} {bs : Bytes} {st : Incoming} (h : parseIncoming p bs = some st) :
    st.analog.length = p.nAnalog ∧ st.digital.length = p.nDigital := by
  unfold parseIncoming at h
  split at h
  · cases h
  · rename_i hl
    split at h
    · cases h
    · cases h
      refine ⟨?_, by simp [unpack]⟩
      simp only [payloadInLen] at hl
      simp only [List.length_take, List.length_drop]
      omega

theorem init_hostInv (p : Params) : (State.init p).HostInv := by
  constructor <;> simp [State.init, Telemetry.init]

/-- What keeps the records and the parameters keeps their facts. -/
theorem State.HostInv.congr {s t : State} (h : s.HostInv) (ht : t.telemetry = s.telemetry) (hp : t.params = s.params) :
    t.HostInv := by
  obtain ⟨a, b, c, d, e⟩ := h
  constructor <;> rw [ht] <;> (try rw [hp]) <;> assumption

theorem takeIncoming_hostInv {s : State} (h : s.HostInv) (bs : Bytes) : (takeIncoming bs s).HostInv := by
  rcases takeIncoming_cases bs s with ⟨st, hst, e⟩ | ⟨-, e⟩ <;> rw [e]
  · obtain ⟨ha, hd⟩ := parseIncoming_sizes hst
    exact ⟨ha, hd, ha, hd, Nat.le_refl _⟩
  · exact h.congr rfl rfl

/-- The host may change the mirror as it likes, within its sizes (R215, R226). -/
theorem setMirror_hostInv {s : State} (h : s.HostInv) {t : Outgoing} (ha : t.analog.length = s.params.nAnalog)
    (hd : t.digital.length = s.params.nDigital) : (setMirror t s).HostInv :=
  ⟨h.incomingAnalog, h.incomingDigital, ha, hd, h.stamp⟩

/-- An outgoing payload has one size (R210, R211). -/
theorem length_buildOutgoing {s : State} (h : s.HostInv) :
    (buildOutgoing s.params s.telemetry.outgoing).length = 1 + s.params.nAnalog + s.params.digBytes := by
  simp only [buildOutgoing, payloadOutBytes, List.length_cons, List.length_append, length_pack, h.outgoingAnalog,
    h.outgoingDigital, Params.digBytes]
  omega

/-! ## The host's duties -/

/-- Under R249 (e) and (f) a request by an existing requester is not refused (R176, R193). -/
theorem State.KeepsDuties.requestOk {s : State} {wants : State → List (ReadName × Nat)} {i : Instr}
    (h : s.KeepsDuties wants i) {r : Nat} {batch : List Bytes}
    (hi : requestedBatch i = some (r, batch)) (hr : r < s.params.nReq) :
    s.requestOk r batch = true := by
  simp [State.requestOk, hr, h.oneRequest r batch hi, h.batchFits r batch hi]

/-- Under R249 (f) `TX_SEND` is refused for want of a peer only (R157). -/
theorem State.KeepsDuties.sends {s : State} {wants : State → List (ReadName × Nat)} {payload : Bytes}
    (h : s.KeepsDuties wants (.txSend payload))
    (hp : s.peerValid = true) :
    ∃ t : State, exec (.txSend payload) s = .next t ∧
      t.result = .emitted (encodeFrame s.params s.peerAddr (s.txFid.setWidth 8) payload) := by
  have := h.payloadFits payload rfl
  refine ⟨_, rfl, ?_⟩
  simp only [sendToPeer, hp, Bool.not_true, Bool.false_eq_true, if_false, if_neg (Nat.not_lt.mpr this)]
  rfl

/-- Under R249 (c) a byte never overruns a frame the host wants: `E_OVERRUN` is raised only while `fr_new` = 1 (R136). -/
theorem rxStep_no_overrun {s : State} (hn : s.frNew = false) (b : Byte) :
    (rxStep b s).codecStatus &&& 0x40 = s.codecStatus &&& 0x40 := by
  have keep (m : Byte) (hm : m &&& 64#8 = 0) (x : Byte) : (x ||| m) &&& 64#8 = x &&& 64#8 := and_of_or_masked hm
  cases hs : s.rxState <;> simp only [rxStep, hs]
  · simp only [takeIdle]; split <;> rfl
  · simp only [takeLength]; split <;> rfl
  · simp only [takeType]
    split
    · rfl
    · cases s.tooShort b <;> cases s.tooLong b <;>
        simp [skipFrame, State.raiseIf, codecBit, keep 2#8 (by decide), keep 4#8 (by decide)]
  · simp only [takeSource, pinPeer]
    split
    · cases hp : s.peerValid <;> simp
    · rfl
  · rfl
  · rfl
  · rfl
  · simp only [takeChecksum]
    cases s.policy (s.cksumOk b) <;> cases s.cksumOk b <;> simp [commit, State.raiseIf, hn, codecBit,
      keep 1#8 (by decide)]
  · simp only [takeIgnored]; split <;> rfl

end Sys2Proof.Machine
end

