-- ==== Sys2Proof/Laws/PerInstr.lean ====
section
/-! SUPPORT. What the table says of every row's shape, one lemma per constructor of `Instr`. -/

namespace Sys2Proof.Laws

/-- The `format` column of `spec/opcode_table.json`. -/
def RowShape.channel : Instr → Channel
  | .rxIdleDelim => .line
  | .rxIdleOther _ => .line
  | .rxLenHi _ => .line
  | .rxLenLo _ => .line
  | .rxTypeData64 _ => .line
  | .rxTypeData64Short _ => .line
  | .rxTypeData64Oversize _ => .line
  | .rxTypeOther _ => .line
  | .rxSrc _ => .line
  | .rxQual _ => .line
  | .rxOpt _ => .line
  | .rxPayload _ => .line
  | .rxCksum _ => .line
  | .rxIgnore _ => .line
  | .rxFrameData64 _ _ _ _ => .rxStream
  | .rxFrameOther _ _ => .rxStream
  | .txFrame _ _ _ => .txStream
  | .motorRev _ => .bus
  | .motorFwd _ => .bus
  | .motorBrk _ => .bus
  | .payloadIn _ _ _ _ _ _ => .payload
  | .payloadOut _ _ => .payload
  | .reset => .op
  | .rxPush _ => .op
  | .rxChunk _ => .op
  | .rxAck => .op
  | .rxRead _ _ => .op
  | .txEncode _ _ _ => .op
  | .txSend _ => .op
  | .busRequest _ _ _ _ => .op
  | .busGrant _ => .op
  | .busXfer _ => .op
  | .busComplete => .op
  | .busExecute _ _ _ _ => .op
  | .clrStatus _ _ => .op

/-- The `width` column, in bytes; an operation has no width in the table. -/
def RowShape.width (p : Params) : Instr → Option Nat
  | .rxIdleDelim => some 1
  | .rxIdleOther _ => some 1
  | .rxLenHi _ => some 1
  | .rxLenLo _ => some 1
  | .rxTypeData64 _ => some 1
  | .rxTypeData64Short _ => some 1
  | .rxTypeData64Oversize _ => some 1
  | .rxTypeOther _ => some 1
  | .rxSrc _ => some 1
  | .rxQual _ => some 1
  | .rxOpt _ => some 1
  | .rxPayload _ => some 1
  | .rxCksum _ => some 1
  | .rxIgnore _ => some 1
  | .rxFrameData64 _ _ _ payload => some (payload.length + 15)
  | .rxFrameOther _ xs => some (xs.length + 4)
  | .txFrame _ _ payload => some (payload.length + 15)
  | .motorRev _ => some 3
  | .motorFwd _ => some 3
  | .motorBrk _ => some 3
  | .payloadIn _ _ _ _ _ _ => some (5 + p.nAnalog + p.digBytes)
  | .payloadOut _ _ => some (1 + p.nAnalog + p.digBytes)
  | .reset => none
  | .rxPush _ => none
  | .rxChunk _ => none
  | .rxAck => none
  | .rxRead _ _ => none
  | .txEncode _ _ _ => none
  | .txSend _ => none
  | .busRequest _ _ _ _ => none
  | .busGrant _ => none
  | .busXfer _ => none
  | .busComplete => none
  | .busExecute _ _ _ _ => none
  | .clrStatus _ _ => none

/-- The `opnum` column of the operations (R110). -/
def RowShape.opnum : Instr → Option Byte
  | .rxIdleDelim => none
  | .rxIdleOther _ => none
  | .rxLenHi _ => none
  | .rxLenLo _ => none
  | .rxTypeData64 _ => none
  | .rxTypeData64Short _ => none
  | .rxTypeData64Oversize _ => none
  | .rxTypeOther _ => none
  | .rxSrc _ => none
  | .rxQual _ => none
  | .rxOpt _ => none
  | .rxPayload _ => none
  | .rxCksum _ => none
  | .rxIgnore _ => none
  | .rxFrameData64 _ _ _ _ => none
  | .rxFrameOther _ _ => none
  | .txFrame _ _ _ => none
  | .motorRev _ => none
  | .motorFwd _ => none
  | .motorBrk _ => none
  | .payloadIn _ _ _ _ _ _ => none
  | .payloadOut _ _ => none
  | .reset => some 0
  | .rxPush _ => some 1
  | .rxChunk _ => some 2
  | .rxAck => some 3
  | .rxRead _ _ => some 4
  | .txEncode _ _ _ => some 5
  | .txSend _ => some 6
  | .busRequest _ _ _ _ => some 7
  | .busGrant _ => some 8
  | .busXfer _ => some 9
  | .busComplete => some 10
  | .busExecute _ _ _ _ => some 11
  | .clrStatus _ _ => some 12

/-- The encoding of a well-formed instruction stands on the channel of its row's format, has the row's width, and, for an
operation, starts with the operation's number (R110). -/
def RowShape.Statement (i : Instr) : Prop :=
  ∀ p : Params, wellFormed p i = true → (encode p i).chan = RowShape.channel i ∧
    (∀ n, RowShape.width p i = some n → (encode p i).bytes.length = n) ∧
    ∀ n, RowShape.opnum i = some n → (encode p i).bytes.head? = some n

theorem RowShape.rxIdleDelim : RowShape.Statement .rxIdleDelim := by
  intro p h
  refine ⟨rfl, fun n hn => ?_, fun n hn => ?_⟩ <;> cases hn
  rfl

theorem RowShape.rxIdleOther (b : Byte) : RowShape.Statement (.rxIdleOther b) := by
  intro p h
  refine ⟨rfl, fun n hn => ?_, fun n hn => ?_⟩ <;> cases hn
  rfl

theorem RowShape.rxLenHi (h : Byte) : RowShape.Statement (.rxLenHi h) := by
  intro p h
  refine ⟨rfl, fun n hn => ?_, fun n hn => ?_⟩ <;> cases hn
  rfl

theorem RowShape.rxLenLo (l : Byte) : RowShape.Statement (.rxLenLo l) := by
  intro p h
  refine ⟨rfl, fun n hn => ?_, fun n hn => ?_⟩ <;> cases hn
  rfl

theorem RowShape.rxTypeData64 (t : Byte) : RowShape.Statement (.rxTypeData64 t) := by
  intro p h
  refine ⟨rfl, fun n hn => ?_, fun n hn => ?_⟩ <;> cases hn
  rfl

theorem RowShape.rxTypeData64Short (t : Byte) : RowShape.Statement (.rxTypeData64Short t) := by
  intro p h
  refine ⟨rfl, fun n hn => ?_, fun n hn => ?_⟩ <;> cases hn
  rfl

theorem RowShape.rxTypeData64Oversize (t : Byte) : RowShape.Statement (.rxTypeData64Oversize t) := by
  intro p h
  refine ⟨rfl, fun n hn => ?_, fun n hn => ?_⟩ <;> cases hn
  rfl

theorem RowShape.rxTypeOther (t : Byte) : RowShape.Statement (.rxTypeOther t) := by
  intro p h
  refine ⟨rfl, fun n hn => ?_, fun n hn => ?_⟩ <;> cases hn
  rfl

theorem RowShape.rxSrc (a : Byte) : RowShape.Statement (.rxSrc a) := by
  intro p h
  refine ⟨rfl, fun n hn => ?_, fun n hn => ?_⟩ <;> cases hn
  rfl

theorem RowShape.rxQual (q : Byte) : RowShape.Statement (.rxQual q) := by
  intro p h
  refine ⟨rfl, fun n hn => ?_, fun n hn => ?_⟩ <;> cases hn
  rfl

theorem RowShape.rxOpt (o : Byte) : RowShape.Statement (.rxOpt o) := by
  intro p h
  refine ⟨rfl, fun n hn => ?_, fun n hn => ?_⟩ <;> cases hn
  rfl

theorem RowShape.rxPayload (d : Byte) : RowShape.Statement (.rxPayload d) := by
  intro p h
  refine ⟨rfl, fun n hn => ?_, fun n hn => ?_⟩ <;> cases hn
  rfl

theorem RowShape.rxCksum (c : Byte) : RowShape.Statement (.rxCksum c) := by
  intro p h
  refine ⟨rfl, fun n hn => ?_, fun n hn => ?_⟩ <;> cases hn
  rfl

theorem RowShape.rxIgnore (x : Byte) : RowShape.Statement (.rxIgnore x) := by
  intro p h
  refine ⟨rfl, fun n hn => ?_, fun n hn => ?_⟩ <;> cases hn
  rfl

theorem RowShape.rxFrameData64 (src : Addr) (q o : Byte) (payload : Bytes) :
    RowShape.Statement (.rxFrameData64 src q o payload) := by
  intro p h
  refine ⟨rfl, fun n hn => ?_, fun n hn => ?_⟩ <;> cases hn
  simp [encode, Machine.rxDataFrame_eq]
  omega

theorem RowShape.rxFrameOther (t : Byte) (xs : Bytes) : RowShape.Statement (.rxFrameOther t xs) := by
  intro p h
  refine ⟨rfl, fun n hn => ?_, fun n hn => ?_⟩ <;> cases hn
  simp [encode, Machine.rxOtherFrame]
  omega

theorem RowShape.txFrame (dest : Addr) (fid : Byte) (payload : Bytes) :
    RowShape.Statement (.txFrame dest fid payload) := by
  intro p h
  refine ⟨rfl, fun n hn => ?_, fun n hn => ?_⟩ <;> cases hn
  simp [encode, Machine.encodeFrame_eq]
  omega

theorem RowShape.motorRev (g : Byte) : RowShape.Statement (.motorRev g) := by
  intro p h
  refine ⟨rfl, fun n hn => ?_, fun n hn => ?_⟩ <;> cases hn
  rfl

theorem RowShape.motorFwd (g : Byte) : RowShape.Statement (.motorFwd g) := by
  intro p h
  refine ⟨rfl, fun n hn => ?_, fun n hn => ?_⟩ <;> cases hn
  rfl

theorem RowShape.motorBrk (g : Byte) : RowShape.Statement (.motorBrk g) := by
  intro p h
  refine ⟨rfl, fun n hn => ?_, fun n hn => ?_⟩ <;> cases hn
  rfl

theorem RowShape.payloadIn (ft fl r3 r4 : Byte) (analog digital : Bytes) :
    RowShape.Statement (.payloadIn ft fl r3 r4 analog digital) := by
  intro p h
  refine ⟨rfl, fun n hn => ?_, fun n hn => ?_⟩ <;> cases hn
  simp only [wellFormed, Bool.and_eq_true, decide_eq_true_eq] at h
  simp only [encode, Machine.payloadInBytes, List.length_append, h.1, h.2]
  simp

theorem RowShape.payloadOut (analog digital : Bytes) : RowShape.Statement (.payloadOut analog digital) := by
  intro p h
  refine ⟨rfl, fun n hn => ?_, fun n hn => ?_⟩ <;> cases hn
  simp only [wellFormed, Bool.and_eq_true, decide_eq_true_eq] at h
  simp only [encode, Machine.payloadOutBytes, List.length_append, List.length_cons, h.1, h.2]
  omega

theorem RowShape.reset : RowShape.Statement .reset := by
  intro p h
  refine ⟨rfl, fun n hn => ?_, fun n hn => ?_⟩ <;> cases hn
  rfl

theorem RowShape.rxPush (b : Byte) : RowShape.Statement (.rxPush b) := by
  intro p h
  refine ⟨rfl, fun n hn => ?_, fun n hn => ?_⟩ <;> cases hn
  rfl

theorem RowShape.rxChunk (bs : Bytes) : RowShape.Statement (.rxChunk bs) := by
  intro p h
  refine ⟨rfl, fun n hn => ?_, fun n hn => ?_⟩ <;> cases hn
  rfl

theorem RowShape.rxAck : RowShape.Statement .rxAck := by
  intro p h
  refine ⟨rfl, fun n hn => ?_, fun n hn => ?_⟩ <;> cases hn
  rfl

theorem RowShape.rxRead (name : ReadName) (idx : Nat) : RowShape.Statement (.rxRead name idx) := by
  intro p h
  refine ⟨rfl, fun n hn => ?_, fun n hn => ?_⟩ <;> cases hn
  rfl

theorem RowShape.txEncode (dest : Addr) (fid : Byte) (payload : Bytes) :
    RowShape.Statement (.txEncode dest fid payload) := by
  intro p h
  refine ⟨rfl, fun n hn => ?_, fun n hn => ?_⟩ <;> cases hn
  rfl

theorem RowShape.txSend (payload : Bytes) : RowShape.Statement (.txSend payload) := by
  intro p h
  refine ⟨rfl, fun n hn => ?_, fun n hn => ?_⟩ <;> cases hn
  rfl

theorem RowShape.busRequest (r : Nat) (batch : List Bytes) (timeoutMs : Nat) (cfg : DeviceConfig) :
    RowShape.Statement (.busRequest r batch timeoutMs cfg) := by
  intro p h
  refine ⟨rfl, fun n hn => ?_, fun n hn => ?_⟩ <;> cases hn
  rfl

theorem RowShape.busGrant (r : Nat) : RowShape.Statement (.busGrant r) := by
  intro p h
  refine ⟨rfl, fun n hn => ?_, fun n hn => ?_⟩ <;> cases hn
  rfl

theorem RowShape.busXfer (o : XferOutcome) : RowShape.Statement (.busXfer o) := by
  intro p h
  refine ⟨rfl, fun n hn => ?_, fun n hn => ?_⟩ <;> cases hn
  rfl

theorem RowShape.busComplete : RowShape.Statement .busComplete := by
  intro p h
  refine ⟨rfl, fun n hn => ?_, fun n hn => ?_⟩ <;> cases hn
  rfl

theorem RowShape.busExecute (r : Nat) (batch : List Bytes) (timeoutMs : Nat) (cfg : DeviceConfig) :
    RowShape.Statement (.busExecute r batch timeoutMs cfg) := by
  intro p h
  refine ⟨rfl, fun n hn => ?_, fun n hn => ?_⟩ <;> cases hn
  rfl

theorem RowShape.clrStatus (cmask bmask : Byte) : RowShape.Statement (.clrStatus cmask bmask) := by
  intro p h
  refine ⟨rfl, fun n hn => ?_, fun n hn => ?_⟩ <;> cases hn
  rfl

end Sys2Proof.Laws
end

