-- ==== Sys2Proof/Machine/Trace.lean ====
section
/-! DEFINITION. The trace syntax of `30_encoding.md` R111: how an operation and its result are written on one line. It is
notation of the spec's test vectors, no step of the machine reads it. -/

namespace Sys2Proof.Machine

/-- One hexadecimal digit. -/
def hexDigit (n : Nat) : Char := if n < 10 then Char.ofNat (48 + n) else Char.ofNat (55 + n)

/-- A number in `k` hexadecimal digits. -/
def hexDigits : Nat → Nat → List Char
  | 0, _ => []
  | k + 1, n => hexDigit (n / 16 ^ k % 16) :: hexDigits k n

/-- A number of `w` bits in hexadecimal. -/
def hexNum (w n : Nat) : String := String.ofList (hexDigits ((w + 3) / 4) n)

/-- A byte in two hexadecimal digits. -/
def hexByte (b : Byte) : String := hexNum 8 b.toNat

/-- A byte string in square brackets. -/
def hexBytes (bs : Bytes) : String := "[" ++ String.intercalate " " (bs.map hexByte) ++ "]"

/-- A bit. -/
def bitText (b : Bool) : String := if b then "1" else "0"

/-- A device configuration. -/
def cfgText (p : Params) (cfg : DeviceConfig) : String :=
  "(addr=" ++ hexNum p.devAddrW cfg.devAddr ++ ",clk=" ++ hexNum p.clkRateW cfg.clkRate ++ ")"

/-- A batch. -/
def batchText (batch : List Bytes) : String := "[" ++ String.intercalate " " (batch.map hexBytes) ++ "]"

/-- The operands of `BUS_REQUEST` and `BUS_EXECUTE`. -/
def requestText (p : Params) (r : Nat) (batch : List Bytes) (timeoutMs : Nat) (cfg : DeviceConfig) : String :=
  " r=" ++ toString r ++ " cfg=" ++ cfgText p cfg ++ " timeout=" ++ toString timeoutMs ++ " batch=" ++ batchText batch

/-- A register of R140 by its name, with the index where it has one. -/
def readNameText (idx : Nat) : ReadName → String
  | .frValid => "fr_valid"
  | .frNew => "fr_new"
  | .frPlen => "fr_plen"
  | .frPayload => "fr_payload " ++ toString idx
  | .frSrc => "fr_src " ++ toString idx
  | .frQuality => "fr_quality"
  | .frOptions => "fr_options"
  | .frCk => "fr_ck"
  | .frCkOk => "fr_ck_ok"
  | .frSrcIsPeer => "fr_src_is_peer"
  | .peerValid => "peer_valid"
  | .peerAddr => "peer_addr " ++ toString idx
  | .txFid => "tx_fid"
  | .codecStatus => "codec_status"
  | .busStatus => "bus_status"
  | .reqDone => "req[" ++ toString idx ++ "].done"
  | .reqOk => "req[" ++ toString idx ++ "].ok"
  | .reqNDone => "req[" ++ toString idx ++ "].n_done"
  | .busBusy => "bus_busy"
  | .other c => "?" ++ hexByte c

/-- The value of a read: a byte or a 16-bit register in hexadecimal, a bit or a count in decimal. -/
def readValueText (v : Nat) : ReadName → String
  | .frPlen => hexNum 16 v
  | .frPayload | .frSrc | .frQuality | .frOptions | .frCk | .peerAddr | .txFid | .codecStatus | .busStatus => hexNum 8 v
  | .frValid | .frNew | .frCkOk | .frSrcIsPeer | .peerValid | .reqDone | .reqOk | .reqNDone | .busBusy | .other _ =>
    toString v

/-- The causes by their names in R268. -/
def causeText : Cause → String
  | .eCksum => "E_CKSUM"
  | .eShort => "E_SHORT"
  | .eOversize => "E_OVERSIZE"
  | .eTxlen => "E_TXLEN"
  | .eNopeer => "E_NOPEER"
  | .eFid => "E_FID"
  | .eOverrun => "E_OVERRUN"
  | .eBus => "E_BUS"

/-- An operation with its operands; the rows that are no operations of R110 have no trace line. -/
def opText (p : Params) : Instr → Option String
  | .rxIdleDelim | .rxIdleOther _ | .rxLenHi _ | .rxLenLo _ | .rxTypeData64 _ | .rxTypeData64Short _
  | .rxTypeData64Oversize _ | .rxTypeOther _ | .rxSrc _ | .rxQual _ | .rxOpt _ | .rxPayload _ | .rxCksum _
  | .rxIgnore _ | .rxFrameData64 _ _ _ _ | .rxFrameOther _ _ | .txFrame _ _ _ | .payloadIn _ _ _ _ _ _
  | .payloadOut _ _ => none
  | .motorRev g => some ("MOTOR.REV " ++ hexByte g)
  | .motorFwd g => some ("MOTOR.FWD " ++ hexByte g)
  | .motorBrk g => some ("MOTOR.BRK " ++ hexByte g)
  | .reset => some "RESET"
  | .rxPush b => some ("RX_PUSH " ++ hexByte b)
  | .rxChunk bs => some ("RX_CHUNK " ++ hexBytes bs)
  | .rxAck => some "RX_ACK"
  | .rxRead name idx => some ("RX_READ " ++ readNameText idx name)
  | .txEncode dest fid payload =>
    some ("TX_ENCODE dest=" ++ hexBytes (addrBytes dest) ++ " fid=" ++ hexByte fid ++ " payload=" ++ hexBytes payload)
  | .txSend payload => some ("TX_SEND payload=" ++ hexBytes payload)
  | .busRequest r batch timeoutMs cfg => some ("BUS_REQUEST" ++ requestText p r batch timeoutMs cfg)
  | .busGrant r => some ("BUS_GRANT r=" ++ toString r)
  | .busXfer _ => some "BUS_XFER"
  | .busComplete => some "BUS_COMPLETE"
  | .busExecute r batch timeoutMs cfg => some ("BUS_EXECUTE" ++ requestText p r batch timeoutMs cfg)
  | .clrStatus cmask bmask => some ("CLR_STATUS cmask=" ++ hexByte cmask ++ " bmask=" ++ hexByte bmask)

/-- What stands after `->`; `BUS_EXECUTE`'s caller is its own requester, so its line does not repeat `r`. -/
def resultText (i : Instr) : OpResult → Option String
  | .none => none
  | .push done accept => some ("done=" ++ bitText done ++ " accept=" ++ bitText accept)
  | .chunk accepted => some (bitText accepted)
  | .value v =>
    match i with
    | .rxRead name _ => some (readValueText v name)
    | _ => some (toString v)
  | .emitted frame => some ("tx " ++ hexBytes frame)
  | .refused (some c) => some ("refused " ++ causeText c)
  | .refused none => some "refused"
  | .xfer .ack => some "ack"
  | .xfer .fail => some "fail"
  | .complete r ok nDone =>
    match i with
    | .busExecute _ _ _ _ => some ("ok=" ++ bitText ok ++ " n_done=" ++ toString nDone)
    | _ => some ("r=" ++ toString r ++ " ok=" ++ bitText ok ++ " n_done=" ++ toString nDone)
  | .blocked => some "blocked"
  | .accepted => some "accepted"
  | .rejected => some "reject"
  | .notEnabled => some "not enabled"

/-- One line of a trace: the operation, `->`, its result (R111). -/
def traceLine (p : Params) (i : Instr) (r : OpResult) : Option String :=
  (opText p i).map fun t =>
    match resultText i r with
    | some u => t ++ " -> " ++ u
    | none => t

end Sys2Proof.Machine
end

