-- ==== Sys2Proof/Tests/Slice0.lean ====
section
/-! SUPPORT. The model's own tests: expected values from `spec/95_test_vectors.md` or by hand from the rules named. -/

namespace Sys2Proof.Tests

open Sys2Proof.Machine

/-! ## Helpers -/

/-- The parameters of the vectors (section 0). -/
abbrev vp : Params := Params.vectors

/-- The block after a reset under those parameters. -/
def s0 : State := State.init vp

/-- The state an instruction leads to. -/
def after (i : Instr) (s : State) : State :=
  match exec i s with
  | .next t => t
  | .fault _ => s
  | .refused _ => s

/-- `SRC` of the vectors. -/
def src : Addr := ⟨0x00, 0x13, 0xA2, 0x00, 0x40, 0xA1, 0xB2, 0xC3⟩
/-- `MY` of the vectors. -/
def my : Addr := ⟨0x00, 0x13, 0xA2, 0x00, 0x40, 0x11, 0x22, 0x33⟩
/-- `PIN` of the vectors. -/
def pin : Bytes := [0xC1, 0x2A, 0x05, 0x00, 0x00, 0x00, 0x40, 0x7F, 0x80, 0xBF, 0xFF, 0x10, 0xA5]
/-- `POUT` of the vectors. -/
def pout : Bytes := [0xC2, 0x00, 0x40, 0x7F, 0x80, 0xBF, 0xFF, 0x10, 0xA5]
/-- Frame `V1` of the vectors. -/
def v1 : Bytes :=
  [0x7E, 0x00, 0x18, 0x80, 0x00, 0x13, 0xA2, 0x00, 0x40, 0xA1, 0xB2, 0xC3, 0x28, 0x00] ++ pin ++ [0x92]
/-- Frame `T1` of the vectors. -/
def t1 : Bytes :=
  [0x7E, 0x00, 0x14, 0x00, 0x00, 0x00, 0x13, 0xA2, 0x00, 0x40, 0xA1, 0xB2, 0xC3, 0x00] ++ pout ++ [0x6C]
/-- `cfgL` of the vectors. -/
def cfgL : DeviceConfig := ⟨0x0A, 0x64⟩
/-- `cfgR` of the vectors. -/
def cfgR : DeviceConfig := ⟨0x0B, 0x64⟩

/-- A pinned peer. -/
def sPeer : State := { s0 with peerValid := true, peerAddr := src }
/-- A decoder state with the registers the row conditions read. -/
def rx (st : RxState) (cnt len : Half) : State := { s0 with rxState := st, rxCnt := cnt, rxLen := len }
/-- The same registers for the decoder. -/
def cx (st : RxState) (cnt len : Half) : DecodeCtx := { params := vp, rxState := st, rxCnt := cnt, rxLen := len }
/-- A small payload buffer, as in vector DV6. -/
def p16 : Params := { vp with rxPayloadMax := 16 }
/-- A window of requester 1 with the batch of vector BV3, as its grant leaves it. -/
def sWin : State := openWindow 1 (placeRequest 1 [[0x01, 0x00, 0x40], [0x01, 0x02, 0x00]] 5 cfgR s0)

/-! ## WellFormed refuses what no encoding admits -/

theorem test_wf_idle_other : wellFormed vp (.rxIdleOther 0x7E) = false ∧ wellFormed vp
    (.rxIdleOther 0x7D) = true := by
  decide
theorem test_wf_type_data : wellFormed vp (.rxTypeData64 0x81) = false ∧ wellFormed vp
    (.rxTypeData64 0x80) = true := by
  decide
theorem test_wf_type_short : wellFormed vp (.rxTypeData64Short 0x8A) = false := by decide
theorem test_wf_type_oversize : wellFormed vp (.rxTypeData64Oversize 0x00) = false := by decide
theorem test_wf_type_other : wellFormed vp (.rxTypeOther 0x80) = false ∧ wellFormed vp
    (.rxTypeOther 0x8A) = true := by
  decide
theorem test_wf_frame_payload (payload : Bytes) (h : payload.length = 65525) :
    wellFormed vp (.rxFrameData64 src 0 0 payload) = false := by
  simp [wellFormed, Config.payloadLimit, h]
theorem test_wf_frame_other : wellFormed vp (.rxFrameOther 0x80 []) = false ∧ wellFormed vp
    (.rxFrameOther 0x8A []) = true := by
  decide
theorem test_wf_frame_other_length (xs : Bytes) (h : xs.length = 65536) : wellFormed vp
    (.rxFrameOther 0x8A xs) = false := by
  simp [wellFormed, h]
theorem test_wf_tx_fid : wellFormed vp (.txFrame src 0x7F []) = false ∧ wellFormed vp
    (.txFrame src 0x7E []) = true := by
  decide
theorem test_wf_tx_payload (payload : Bytes) (h : payload.length = 65525) : wellFormed vp
    (.txFrame src 0 payload) = false := by
  simp [wellFormed, Config.payloadLimit, h]
theorem test_wf_payload_in :
    wellFormed vp (.payloadIn 0 0 0 0 [1, 2, 3, 4, 5, 6] [0]) = false ∧
    wellFormed vp (.payloadIn 0 0 0 0 [1, 2, 3, 4, 5, 6, 7] []) = false ∧
    wellFormed vp (.payloadIn 0 0 0 0 [1, 2, 3, 4, 5, 6, 7] [0]) = true := by decide
theorem test_wf_payload_out :
    wellFormed vp (.payloadOut [1, 2, 3, 4, 5, 6, 7, 8] [0]) = false ∧
    wellFormed vp (.payloadOut [1, 2, 3, 4, 5, 6, 7] [0, 0]) = false := by decide
theorem test_wf_read :
    wellFormed vp (.rxRead (.other 18) 0) = false ∧ wellFormed vp (.rxRead (.other 19) 0) = true := by decide

/-! ## Every constructor from a word of its row, written out from the spec -/

theorem test_decode_idle :
    decode (cx .idle 0 0) ⟨.line, [0b01111110]⟩ = .ok .rxIdleDelim ∧
    decode (cx .idle 0 0) ⟨.line, [0x13]⟩ = .ok (.rxIdleOther 0x13) := by decide
theorem test_decode_length :
    decode (cx .length 0 0) ⟨.line, [0x7E]⟩ = .ok (.rxLenHi 0x7E) ∧
    decode (cx .length 1 0) ⟨.line, [0x18]⟩ = .ok (.rxLenLo 0x18) := by decide
theorem test_decode_type :
    decode (cx .type 0 11) ⟨.line, [0x80]⟩ = .ok (.rxTypeData64 0x80) ∧
    decode (cx .type 0 10) ⟨.line, [0x80]⟩ = .ok (.rxTypeData64Short 0x80) ∧
    decode (cx .type 0 10) ⟨.line, [0x8A]⟩ = .ok (.rxTypeOther 0x8A) := by decide
theorem test_decode_type_oversize :
    decode { cx .type 0 28 with params := p16 } ⟨.line, [0x80]⟩ = .ok (.rxTypeData64Oversize 0x80) ∧
    decode { cx .type 0 27 with params := p16 } ⟨.line, [0x80]⟩ = .ok (.rxTypeData64 0x80) := by decide
theorem test_decode_data_bytes :
    decode (cx .sourceAddr 7 24) ⟨.line, [0xC3]⟩ = .ok (.rxSrc 0xC3) ∧
    decode (cx .quality 0 24) ⟨.line, [0x28]⟩ = .ok (.rxQual 0x28) ∧
    decode (cx .options 0 24) ⟨.line, [0x00]⟩ = .ok (.rxOpt 0x00) ∧
    decode (cx .payload 0 24) ⟨.line, [0xC1]⟩ = .ok (.rxPayload 0xC1) ∧
    decode (cx .checksum 0 24) ⟨.line, [0x92]⟩ = .ok (.rxCksum 0x92) ∧
    decode (cx .ignoreUnknown 5 5) ⟨.line, [0x7E]⟩ = .ok (.rxIgnore 0x7E) := by decide
theorem test_decode_frame_data : decode (cx .idle 0 0) ⟨.rxStream, v1⟩ = .ok (.rxFrameData64 src 0x28 0x00 pin) := by
  decide
theorem test_decode_frame_bad_checksum :
    decode (cx .idle 0 0) ⟨.rxStream, v1.dropLast ++ [0x93]⟩ = .error .badChecksum := by decide
theorem test_decode_frame_other :
    decode (cx .idle 0 0) ⟨.rxStream, [0x7E, 0x00, 0x05, 0x8A, 0x11, 0x22, 0x33, 0x44, 0x55]⟩ =
      .ok (.rxFrameOther 0x8A [0x11, 0x22, 0x33, 0x44, 0x55]) := by decide
theorem test_decode_tx_frame : decode (cx .idle 0 0) ⟨.txStream, t1⟩ = .ok (.txFrame src 0x00 pout) := by decide
theorem test_decode_motor :
    decode (cx .idle 0 0) ⟨.bus, [0b00000001, 0b00000000, 0b01000000]⟩ = .ok (.motorRev 0x40) ∧
    decode (cx .idle 0 0) ⟨.bus, [0x01, 0x01, 0x80]⟩ = .ok (.motorFwd 0x80) ∧
    decode (cx .idle 0 0) ⟨.bus, [0x01, 0x02, 0x00]⟩ = .ok (.motorBrk 0x00) ∧
    decode (cx .idle 0 0) ⟨.bus, [0x01, 0x03, 0x00]⟩ = .error .notMotor := by decide
theorem test_decode_payload :
    decode (cx .idle 0 0) ⟨.payload, pin⟩ =
      .ok (.payloadIn 0x2A 0x05 0x00 0x00 [0x00, 0x40, 0x7F, 0x80, 0xBF, 0xFF, 0x10] [0xA5]) ∧
    decode (cx .idle 0 0) ⟨.payload, pout⟩ =
      .ok (.payloadOut [0x00, 0x40, 0x7F, 0x80, 0xBF, 0xFF, 0x10] [0xA5]) := by decide
theorem test_decode_plain_operations :
    decode (cx .idle 0 0) ⟨.op, [0]⟩ = .ok .reset ∧ decode (cx .idle 0 0) ⟨.op, [1, 0x7E]⟩ = .ok (.rxPush 0x7E) ∧
    decode (cx .idle 0 0) ⟨.op, [2, 0x7E, 0x00]⟩ = .ok (.rxChunk [0x7E, 0x00]) ∧
    decode (cx .idle 0 0) ⟨.op, [3]⟩ = .ok .rxAck ∧
    decode (cx .idle 0 0) ⟨.op, [4, 3, 12]⟩ = .ok (.rxRead .frPayload 12) ∧
    decode (cx .idle 0 0) ⟨.op, [10]⟩ = .ok .busComplete ∧
    decode (cx .idle 0 0) ⟨.op, [12, 0x40, 0x00]⟩ = .ok (.clrStatus 0x40 0x00) := by decide
theorem test_decode_encoder_operations :
    decode (cx .idle 0 0) ⟨.op, [5, 0x00, 0x13, 0xA2, 0x00, 0x40, 0xA1, 0xB2, 0xC3, 0x05, 0xC2]⟩ =
      .ok (.txEncode src 0x05 [0xC2]) ∧
    decode (cx .idle 0 0) ⟨.op, [6, 0xC2]⟩ = .ok (.txSend [0xC2]) := by decide
theorem test_decode_bus_operations :
    decode (cx .idle 0 0) ⟨.op, [8, 1]⟩ = .ok (.busGrant 1) ∧
    decode (cx .idle 0 0) ⟨.op, [9, 1]⟩ = .ok (.busXfer .ack) ∧
    decode (cx .idle 0 0) ⟨.op, [9, 0]⟩ = .ok (.busXfer .fail) := by decide
/-- Requester 1, time-out 5, address 0x0B, clock 0x0064, batch of one transaction. -/
def requestArgs : Bytes := [1] ++ [5] ++ [0x0B] ++ [0x64] ++ [3, 0x01, 0x00, 0x40]
theorem test_decode_requests :
    decode (cx .idle 0 0) ⟨.op, 7 :: requestArgs⟩ = .ok (.busRequest 1 [[0x01, 0x00, 0x40]] 5 cfgR) ∧
    decode (cx .idle 0 0) ⟨.op, 11 :: requestArgs⟩ = .ok (.busExecute 1 [[0x01, 0x00, 0x40]] 5 cfgR) := by decide
/-- 1000 = 7 * 128 + 104, and a second form of 5 is none (assumption log 9). -/
theorem test_decode_number :
    decode (cx .idle 0 0) ⟨.op, [8, 0xE8, 0x07]⟩ = .ok (.busGrant 1000) ∧
    decode (cx .idle 0 0) ⟨.op, [8, 0x85, 0x00]⟩ = .error .badOperands := by decide
theorem test_decode_unknown_operation : decode (cx .idle 0 0) ⟨.op, [13]⟩ = .error .unknownOperation := by decide

/-! ## Table words and the fetch -/

theorem test_table_delimiter : decodeTableWord 8 0x7E = some .rxIdleDelim := by decide
theorem test_table_motor :
    decodeTableWord 24 0x010040 = some (.motorRev 0x40) ∧ decodeTableWord 24 0x010180 = some (.motorFwd 0x80) ∧
    decodeTableWord 24 0x010200 = some (.motorBrk 0x00) := by decide
theorem test_fetch_delimiter : ∃ t, step (State.reset.withFetchWord 8 0x7E) = .next t ∧ t.rxState = .length :=
  ⟨_, rfl, rfl⟩
theorem test_fetch_motor :
    ∃ t, step (State.reset.withFetchWord 24 0x010180) = .next t ∧ t.busOut.map BusRec.bytes = [[0x01, 0x01, 0x80]] :=
  ⟨_, rfl, rfl⟩

/-! ## The byte handlers: rows of vectors DV1, S9, DV4, DV5, DV6 -/

theorem test_rx_idle_delim : (after .rxIdleDelim { s0 with rxSum := 0x6D, rxLen := 9 }).rxSum = 0 ∧
    (after .rxIdleDelim s0).rxState = .length := by decide
theorem test_rx_idle_other : after (.rxIdleOther 0x7D) s0 = { s0 with result := .push false false } := by decide
theorem test_rx_len_hi : (after (.rxLenHi 0x7E) (rx .length 0 0)).rxLen = 0x7E00 ∧
    (after (.rxLenHi 0x7E) (rx .length 0 0)).rxCnt = 1 := by decide
theorem test_rx_len_lo : (after (.rxLenLo 0x18) (rx .length 1 0x0100)).rxLen = 0x0118 ∧
    (after (.rxLenLo 0x18) (rx .length 1 0)).rxState = .type := by decide
theorem test_rx_type_data : (after (.rxTypeData64 0x80) { rx .type 0 0x18 with rxSum := 0x18 }).rxSum = 0x98 ∧
    (after (.rxTypeData64 0x80) (rx .type 0 0x18)).rxPlen = 13 := by decide
theorem test_rx_type_short : (after (.rxTypeData64Short 0x80) (rx .type 0 10)).codecStatus = 0x02 ∧
    (after (.rxTypeData64Short 0x80) (rx .type 0 10)).rxCnt = 10 := by decide
theorem test_rx_type_short_zero : (after (.rxTypeData64Short 0x80) (rx .type 0 0)).rxState = .idle ∧
    (after (.rxTypeData64Short 0x80) (rx .type 0 0)).codecStatus = 0x02 := by decide
theorem test_rx_type_oversize :
    (after (.rxTypeData64Oversize 0x80) { rx .type 0 28 with params := p16 }).codecStatus = 0x04 ∧
    (after (.rxTypeData64Oversize 0x80) { rx .type 0 28 with params := p16 }).rxCnt = 28 := by decide
theorem test_rx_type_other : (after (.rxTypeOther 0x8A) (rx .type 0 5)).rxState = .ignoreUnknown ∧
    (after (.rxTypeOther 0x8A) (rx .type 0 0)).rxState = .idle := by decide
theorem test_rx_src : (after (.rxSrc 0xA2) { rx .sourceAddr 2 24 with rxSum := 0xAB }).rxSum = 0x4D ∧
    (after (.rxSrc 0xA2) (rx .sourceAddr 2 24)).rxSrc.b2 = 0xA2 := by decide
theorem test_rx_src_pins : (after
    (.rxSrc 0xC3) { rx .sourceAddr 7 24 with rxSrc := { src with b7 := 0 } }).peerAddr = src ∧
    (after (.rxSrc 0x33) { rx .sourceAddr 7 24 with peerValid := true, peerAddr := src }).peerAddr = src := by decide
theorem test_rx_qual : (after (.rxQual 0x28) { rx .quality 0 24 with rxSum := 0xA3 }).rxSum = 0xCB ∧
    (after (.rxQual 0x28) (rx .quality 0 24)).rxQuality = 0x28 := by decide
theorem test_rx_opt : (after (.rxOpt 0x00) { rx .options 0 24 with rxPlen := 13 }).rxState = .payload ∧
    (after (.rxOpt 0x02) (rx .options 0 11)).rxState = .checksum := by decide
theorem test_rx_payload : (after (.rxPayload 0xA5) { rx .payload 12 24 with rxPlen := 13 }).rxState = .checksum ∧
    (after (.rxPayload 0xA5) { rx .payload 12 24 with rxPlen := 13 }).rxBuf = [(12, 0xA5)] := by decide
theorem test_rx_cksum_bad : (after
    (.rxCksum 0x93) { rx .checksum 0 24 with rxSum := 0x6D }).result = .push true false ∧
    (after (.rxCksum 0x93) { rx .checksum 0 24 with rxSum := 0x6D }).codecStatus = 0x01 := by decide
theorem test_rx_cksum_overrun :
    (after (.rxCksum 0x92)
      { rx .checksum 0 24 with rxSum := 0x6D, frNew := true, frValid := true }).codecStatus = 0x40 := by
  decide
theorem test_rx_ignore : (after (.rxIgnore 0x7E) (rx .ignoreUnknown 2 5)).rxCnt = 1 ∧
    (after (.rxIgnore 0x55) (rx .ignoreUnknown 1 5)).rxState = .idle := by decide

/-! ## The receive operations and whole frames: S8, S10, DV2, DV9, DV12, P1 -/

theorem test_rx_push : (after
    (.rxPush 0x92) { rx .checksum 0 24 with rxSum := 0x6D }).result = .push true true := by decide
theorem test_rx_chunk_v1 : (after (.rxChunk v1) s0).result = .chunk true ∧
    (after (.rxChunk v1) s0).frPayload.bytes 13 = pin := by decide
theorem test_rx_chunk_not_enforced :
    (after (.rxChunk (v1.dropLast ++
        [0x93])) { s0 with params := { vp with cksumEnforce := false } }).frCkOk = false ∧
    (after (.rxChunk (v1.dropLast ++ [0x93])) s0).frValid = false := by decide
theorem test_rx_frame_data : (after (.rxFrameData64 my 0x11 0x02 pin) sPeer).frCk = 0x57 ∧
    (after (.rxFrameData64 my 0x11 0x02 pin) sPeer).frSrcIsPeer = false := by decide
theorem test_rx_frame_other : (after (.rxFrameOther 0x8A [0x11, 0x22]) s0).rxState = .idle ∧
    (after (.rxFrameOther 0x8A [0x11, 0x22]) s0).peerValid = false := by decide
theorem test_rx_ack : (after .rxAck { s0 with frNew := true, frValid := true }).frNew = false ∧
    (after .rxAck { s0 with frNew := true, frValid := true }).frValid = true := by decide
theorem test_rx_read : (after (.rxRead .peerAddr 7) sPeer).result = .value 0xC3 ∧
    (after (.rxRead .peerAddr 8) sPeer).result = .refused none := by decide
theorem test_rx_read_frame :
    (after (.rxRead .frPayload 12)
      { s0 with frValid := true, frPlen := 13, frPayload := [(12, 0xA5)] }).result = .value 0xA5 := by decide

/-! ## The encoder: T1, T4, T6, T7, T8 -/

theorem test_tx_encode : (after (.txEncode src 0x00 pout) s0).txOut = t1 ∧
    (after (.txEncode src 0x7F []) s0).result = .refused (some .eFid) := by decide
theorem test_tx_encode_order : (after
    (.txEncode src 0x80 pout) { s0 with params := { vp with txPayloadMax := 8 } }).codecStatus
    = 0x20 := by decide
theorem test_tx_send : (after (.txSend pout) sPeer).txOut = t1 ∧ (after
    (.txSend pout) s0).codecStatus = 0x10 := by decide
theorem test_tx_send_wraps : (after (.txSend []) { sPeer with txFid := 126 }).txFid = 0 ∧
    (after (.txSend []) { sPeer with txFid := 126 }).result =
      .emitted [0x7E, 0x00, 0x0B, 0x00, 0x7E, 0x00, 0x13, 0xA2, 0x00, 0x40, 0xA1, 0xB2, 0xC3, 0x00, 0x6B] := by decide
theorem test_tx_frame : (after (.txFrame src 0x05 []) s0).txOut =
    [0x7E, 0x00, 0x0B, 0x00, 0x05, 0x00, 0x13, 0xA2, 0x00, 0x40, 0xA1, 0xB2, 0xC3, 0x00, 0xE4] := by decide
theorem test_checksum : cksum [] = 0xFF ∧ cksum [0x80, 0x80] = 0xFF ∧ cksum [0x01, 0x02, 0x03] = 0xF9 := by decide
theorem test_link : link vp t1 my 0x2C 0x00 =
    [0x7E, 0x00, 0x14, 0x80, 0x00, 0x13, 0xA2, 0x00, 0x40, 0x11, 0x22, 0x33, 0x2C, 0x00] ++ pout ++
        [0x70] := by decide

/-! ## Payloads and the host: FV1 to FV4, S11 -/

theorem test_pack : pack (List.replicate 9 true) = [0xFF, 0x01] ∧ unpack [0x01] 8 =
    [true, false, false, false, false, false, false, false] := by decide
theorem test_payload_in : (after (.payloadIn 0x2A 0x05 0 0 [0x00, 0x40, 0x7F, 0x80, 0xBF, 0xFF,
    0x10] [0xA5]) s0).telemetry.incoming =
    { fieldTime := 42, canMove := true, isAutonomous := false, isBlue := true,
      analog := [0x00, 0x40, 0x7F, 0x80, 0xBF, 0xFF, 0x10],
      digital := [true, false, true, false, false, true, false, true] } := by decide
theorem test_parse_rejects : parseIncoming vp (0xC2 :: pin.tail) = none ∧ parseIncoming vp pin.dropLast = none ∧
    parseIncoming vp (pin ++ [0xEE]) = parseIncoming vp pin := by decide
theorem test_payload_out : (after (.payloadOut [0x00, 0x40, 0x7F, 0x80, 0xBF, 0xFF,
    0x10] [0xA5]) sPeer).txOut = t1 := by
  decide
theorem test_watchdog :
    effectiveCanMove vp 2100 ({ (Telemetry.init vp).incoming with canMove := true }, 0) = false ∧
    effectiveCanMove vp 2000 ({ (Telemetry.init vp).incoming with canMove := true }, 0) = true := by decide

/-! ## The bus: BV2 to BV5, BV7, BV8 -/

theorem test_bus_request : (after (.busRequest 0 [[0x01, 0x01, 0x80]] 1000 cfgL) s0).req 0 =
    { Req.init with pending := true, batch := [[0x01, 0x01, 0x80]], timeoutMs := 1000, cfg := cfgL } := by decide
theorem test_bus_request_refused :
    after (.busRequest 2 [] 0 cfgL) s0 = { s0 with result := .refused none } ∧
    after (.busRequest 0 [[]] 0 cfgL) s0 = { s0 with result := .refused none } := by decide
theorem test_bus_grant : (after (.busGrant 1) (placeRequest 1 [] 5 cfgR s0)).busCfg = cfgR ∧
    (after (.busGrant 0) sWin).result = .notEnabled := by decide
theorem test_bus_xfer_ack : (after (.busXfer .ack) sWin).busOut = [⟨0x0B, 0x64, [0x01, 0x00, 0x40], .ack⟩] ∧
    (after (.busXfer .ack) sWin).busIdx = 1 := by decide
theorem test_bus_xfer_fail : (after (.busXfer .fail) { sWin with busIdx := 1 }).completeEnabled = true ∧
    (after (.busXfer .fail) { sWin with busIdx := 1 }).xferEnabled = false := by decide
theorem test_bus_complete :
    (after .busComplete { sWin with busIdx := 1, busFail := true }).result = .complete 1 false 1 ∧
    (after .busComplete { sWin with busIdx := 1, busFail := true }).busStatus = 0x01 := by decide
theorem test_bus_complete_early : (after .busComplete sWin).result = .notEnabled := by decide
theorem test_bus_execute_empty : (after (.busExecute 0 [] 1 cfgL) s0).result = .complete 0 true 0 ∧
    (after (.busExecute 0 [] 1 cfgL) s0).busCfg = cfgL := by decide
theorem test_bus_execute_blocked : (after (.busExecute 0 [] 1 cfgL) sWin).result = .blocked := by decide
theorem test_motor_rev : (after (.motorRev 0x40) sWin).busOut.map BusRec.bytes = [[0x01, 0x00, 0x40]] := by rfl
theorem test_motor_fwd : (after (.motorFwd 0x40) sWin).result = .notEnabled := by decide
theorem test_motor_brk : (after (.motorBrk 0x00) { sWin with busIdx := 1 }).busOut.map BusRec.bytes = [[0x01, 0x02,
    0x00]] := by
  rfl
theorem test_clr_status :
    (after (.clrStatus 0x40 0x00) { s0 with codecStatus := 0x41, busStatus := 0x01 }).codecStatus = 0x01 ∧
    (after (.clrStatus 0x00 0x01) { s0 with codecStatus := 0x01, busStatus := 0x01 }).busStatus = 0x00 := by decide
theorem test_reset : after .reset { sPeer with txOut := t1, busStatus := 1, frValid := true } = s0 := by decide

/-! ## Witnesses: for each statement with hypotheses, a state and operands that meet them together -/

theorem witness_DecodeOfEncode_oversize :
    p16.ok ∧ wellFormed p16 (.rxTypeData64Oversize 0x80) = true ∧
    admits { cx .type 0 28 with params := p16 } (.rxTypeData64Oversize 0x80) = true := by decide
theorem witness_DecodeOfEncode_frames :
    vp.ok ∧ wellFormed vp (.txFrame src 0x7E pout) = true ∧ wellFormed vp (.rxFrameData64 my 0 0 pin) = true ∧
    admits (cx .length 1 0) (.txFrame src 0x7E pout) = true := by decide
theorem witness_DecodeOfEncode_request :
    wellFormed vp (.busExecute (2 ^ 70) [[], [0x01, 0x00, 0x40]] (2 ^ 70) cfgL) = true ∧
    admits (cx .idle 0 0) (.busExecute (2 ^ 70) [[], [0x01, 0x00, 0x40]] (2 ^ 70) cfgL) = true := by decide
theorem witness_EncodeOfDecode :
    decode (cx .idle 0 0) ⟨.rxStream, v1⟩ = .ok (.rxFrameData64 src 0x28 0x00 pin) ∧ Channel.rxStream ≠ .payload ∧
    (decode (cx .idle 0 0) ⟨.payload, pin ++ [0xEE]⟩).isOk = true := by decide

theorem witness_StepRuns :
    ({ s0 with inbox := [.line 0x7E, .device] } : State).inbox = [.line 0x7E, .device] ∧
    decode s0.ctx (eventCode s0 (.line 0x7E)) = .ok .rxIdleDelim := by decide
theorem witness_StepRuns_operation : decode s0.ctx (eventCode s0 (.op [6, 0xC2])) = .ok (.txSend [0xC2]) := by decide
theorem witness_StepOther_empty : s0.inbox = [] := by decide
theorem witness_StepOther_frame : decode s0.ctx ⟨.rxStream, [0x7E]⟩ = .error .truncated := by decide
theorem witness_StepOther_device :
    decode sWin.ctx ⟨.bus, ({ sWin with busIdx := 2 } : State).currentTxn⟩ = .error .notMotor := by decide
theorem witness_StepOther_payload : decode s0.ctx ⟨.payload, []⟩ = .error .truncated := by decide
theorem witness_StepsInOrder : ∃ t, step { s0 with inbox := [.line 0x13, .device] } = .next t := ⟨_, rfl⟩

/-- A state inside a payload and inside a window, with every field at a boundary of its range. -/
def sDeep : State :=
  { sWin with
    telemetry := { Telemetry.init vp with lastUpdate := 7, clock := 7 }
    rxState := .payload, rxCnt := 12, rxLen := 24, rxPlen := 13, rxBuf := [(0, 0xC1)], peerValid := true,
        frValid := true
    frNew := true, frCkOk := true, frPlen := 65524, codecStatus := 0x7F, txFid := 126, busStatus := 0x01, busIdx := 1
    busOut := [⟨0x0B, 0x64, [0x01, 0x00, 0x40], .ack⟩], inbox := [.line 0xA5, .device] }

theorem sDeep_codec : sDeep.CodecInv := by
  constructor <;> simp [sDeep, vp, s0, sWin, openWindow, placeRequest, State.setReq, State.init, Params.vectors,
    State.inDataFrame, State.pastSource, Memory.wf, cellsWf, Memory.unlisted, Config.hdrLen]

theorem sDeep_req_other {r : Nat} (h : r ≠ 1) : sDeep.req r = Req.init := by
  have e : sDeep.req r = if 1 = r then sDeep.req 1 else Req.init := rfl
  rw [e, if_neg (Ne.symm h)]

theorem sDeep_bus : sDeep.BusInv := by
  refine ⟨by decide, fun r => ?_, fun r => ?_, by decide, by decide, by decide, by decide⟩ <;> by_cases h : r = 1
  · subst h; decide
  · rw [sDeep_req_other h]; intro h; cases h
  · subst h; decide
  · rw [sDeep_req_other h]; exact Nat.zero_le _

theorem sDeep_inv : sDeep.Inv :=
  ⟨by decide, sDeep_codec, sDeep_bus, ⟨by decide, by decide, by decide, by decide, by decide⟩⟩

theorem witness_EveryStepKeepsTheInvariants : sDeep.Inv ∧ ∃ t, step sDeep = .next t :=
  ⟨sDeep_inv, _, rfl⟩
theorem witness_EveryStepKeepsTheBusTrace : sDeep.Inv ∧ sDeep.TraceInv ∧ ∃ t, step sDeep = .next t :=
  ⟨sDeep_inv, ⟨[], by simp, by decide⟩, _, rfl⟩
theorem witness_EveryReachableState :
    p16.ok ∧ ∃ t, Sys2Proof.core.run 2 ({ State.init p16 with inbox := [.line 0x7E, .op [3]] } : State) = .next t :=
  ⟨by decide, _, rfl⟩
theorem witness_OpenWindowMakesProgress : sDeep.BusInv ∧ sDeep.busBusy = true := ⟨sDeep_bus, rfl⟩

theorem witness_SingleWriter_next : (∃ t, exec (.rxCksum 0x92) s0 = .next t) ∧ (∃ t, exec .rxAck s0 = .next t) ∧
    (∃ t, exec (.txSend pout) sPeer = .next t) ∧ (∃ t, exec (.clrStatus 0 0) s0 = .next t) ∧
    (∃ t, exec (.busRequest 1 [] 0 cfgL) s0 = .next t) ∧ (∃ t, exec .busComplete sWin = .next t) ∧
    (∃ t, exec (.busExecute 0 [] 0 cfgL) s0 = .next t) ∧ (∃ t, exec (.payloadIn 0 0 0 0 [] []) s0 = .next t) ∧
    (∃ t, exec (.rxRead .frValid 0) s0 = .next t) ∧ (∃ t, exec .reset sWin = .next t) :=
  ⟨⟨_, rfl⟩, ⟨_, rfl⟩, ⟨_, rfl⟩, ⟨_, rfl⟩, ⟨_, rfl⟩, ⟨_, rfl⟩, ⟨_, rfl⟩, ⟨_, rfl⟩, ⟨_, rfl⟩, ⟨_, rfl⟩⟩
theorem witness_SingleWriter_wf : ReqFile.wf sWin.reqs ∧ ReqFile.wf s0.reqs := by decide
theorem witness_Sticky :
    (∃ t, exec (.rxCksum 0x93) (rx .checksum 0 24) = .next t) ∧ writerOf (.rxCksum 0x93) ≠ .clear ∧
    writerOf (.rxCksum 0x93) ≠ .resetter := ⟨⟨_, rfl⟩, by decide, by decide⟩
theorem witness_NoBehaviour :
    (∃ t, exec (.rxRead .frNew 0) s0 = .next t) ∧
    ∀ n, (Instr.rxRead .frNew 0) ≠ .rxRead .codecStatus n ∧ (Instr.rxRead .frNew 0) ≠ .rxRead .busStatus n :=
  ⟨⟨_, rfl⟩, by simp⟩
theorem witness_PeerPinned :
    (∃ t, exec (.rxSrc 0x33) { rx .sourceAddr 7 24 with peerValid := true } = .next t) ∧
    writerOf (.rxSrc 0x33) ≠ .resetter := ⟨⟨_, rfl⟩, by decide⟩
theorem witness_AppendOnly : (∃ t, exec (.txSend pout) sPeer = .next t) ∧ writerOf (.txSend pout) ≠ .resetter :=
  ⟨⟨_, rfl⟩, by decide⟩

theorem witness_Idle : s0.rxState = .idle ∧ (0x7F : Byte) ≠ 0x7E := by decide
theorem witness_Length : (rx .length 0 0).rxState = .length ∧ (rx .length 0 0).rxCnt = 0 ∧
    (rx .length 1 0x7E00).rxState = .length ∧ (rx .length 1 0x7E00).rxCnt = 1 := by decide
theorem witness_LengthBigEndian : ∃ t u, exec (.rxLenHi 0xFF) (rx .length 0 0) = .next t ∧
    exec (.rxLenLo 0xFF) t = .next u := ⟨_, _, rfl, rfl⟩
theorem witness_TypeAdmits_low : (rx .type 0 11).rxState = .type ∧ 11 ≤ (rx .type 0 11).rxLen.toNat ∧
    (rx .type 0 11).rxLen.toNat - 11 ≤ (rx .type 0 11).params.rxPayloadMax := by decide
theorem witness_TypeAdmits_high : 11 ≤ (rx .type 0 0xFFFF).rxLen.toNat ∧
    (rx .type 0 0xFFFF).rxLen.toNat - 11 ≤ (rx .type 0 0xFFFF).params.rxPayloadMax := by decide
theorem witness_TypeSkips_other : (rx .type 0 0).rxState = .type ∧ (0x8A : Byte) ≠
    (rx .type 0 0).params.typeRx64 := by
  decide
theorem witness_TypeSkips_short : (0x80 : Byte) = vp.typeRx64 ∧ (rx .type 0 10).rxLen.toNat < 11 := by decide
theorem witness_TypeSkips_oversize : 11 ≤ (rx .type 0 28).rxLen.toNat ∧
    p16.rxPayloadMax < (rx .type 0 28).rxLen.toNat - 11 := by decide
theorem witness_Source : (rx .sourceAddr 6 24).rxState = .sourceAddr ∧ (rx .sourceAddr 6 24).rxCnt.toNat < 7 ∧
    (rx .sourceAddr 7 24).rxState = .sourceAddr ∧ (rx .sourceAddr 7 24).rxCnt = 7 := by decide
theorem witness_QualityOptions : (rx .quality 0 11).rxState = .quality ∧
    (rx .options 0 11).rxState = .options := by decide
theorem witness_Payload : sDeep.rxState = .payload ∧ sDeep.rxCnt.toNat < sDeep.rxPlen.toNat ∧
    sDeep.rxBuf.wf := by decide
theorem witness_Checksum_mismatch : (rx .checksum 0 24).rxState = .checksum ∧ (rx .checksum 0 24).frPayload.wf ∧
    (0x93 : Byte) ≠ 0xFF - ({ rx .checksum 0 24 with rxSum := 0x6D } : State).rxSum ∧
        vp.cksumEnforce = true := by decide
theorem witness_Checksum_match : (0x92 : Byte) = 0xFF - ({ rx .checksum 0 24 with rxSum := 0x6D } : State).rxSum := by
  decide
theorem witness_Checksum_policy : ({ vp with cksumEnforce := false } : Params).cksumEnforce = false := by decide
theorem witness_Ignore : (rx .ignoreUnknown 1 5).rxState = .ignoreUnknown ∧ 1 ≤ (rx .ignoreUnknown 1 5).rxCnt.toNat ∧
    1 ≤ (rx .ignoreUnknown 0xFFFF 5).rxCnt.toNat := by decide
theorem witness_Push : s0.rxState ≠ .checksum := by decide
theorem witness_Read_held : sDeep.frValid = true ∧ 7 < 8 ∧ 65523 < sDeep.params.rxPayloadMax ∧
    65523 < sDeep.frPlen.toNat := by
  decide
theorem witness_ReadWithoutFrame : s0.frValid = false ∧ 0 < s0.params.rxPayloadMax ∧ s0.frPlen.toNat ≤ 0 := by decide
theorem witness_Read_bounds : sDeep.params.rxPayloadMax ≤ 65524 ∧ 1 < s0.params.nReq ∧ s0.params.nReq ≤ 2 := by decide

theorem witness_DataFrame : s0.rxState = .idle ∧ s0.rxBuf.wf ∧ s0.frPayload.wf ∧ pin.length ≤ s0.params.rxPayloadMax ∧
    s0.params.rxPayloadMax ≤ 65524 ∧ 27 < (rxDataFrame vp src 0x28 0 pin).length := by decide
theorem witness_Unwanted : s0.rxState = .idle ∧ (0x8A : Byte) ≠ s0.params.typeRx64 ∧ ([] : Bytes).length ≤ 65535 ∧
    3 < (rxOtherFrame 0x8A []).length := by decide
theorem witness_RoundTrip : s0.rxState = .idle ∧ s0.params.ok ∧ s0.rxBuf.wf ∧ s0.frPayload.wf ∧
    (0x7E : Byte).toNat ≤ 126 ∧
    pout.length ≤ min s0.params.txPayloadMax s0.params.rxPayloadMax ∧
        s0.params.txRsvdA ≠ s0.params.typeRx64 := by decide
theorem witness_RoundTrip_same_byte : ({ vp with txRsvdA := 0x80 } : Params).ok ∧
    ({ vp with txRsvdA := 0x80 } : Params).txRsvdA = vp.typeRx64 := by decide
theorem witness_Layout : pout.length ≤ 65524 := by decide
theorem witness_Checksum_changed : (0x00 : Byte) ≠ 0x80 ∧ ([0x01, 0x02] : Bytes).Perm [0x02, 0x01] := by decide
theorem witness_Encode_fid : 126 < (0x7F : Byte).toNat := by decide
theorem witness_Encode_length : (0x7E : Byte).toNat ≤ 126 ∧
    ({ vp with txPayloadMax := 8 } : Params).txPayloadMax < pout.length := by
  decide
theorem witness_Encode_ok : (0x7E : Byte).toNat ≤ 126 ∧ pout.length ≤
    ({ vp with txPayloadMax := 9 } : Params).txPayloadMax := by
  decide
theorem witness_Send : s0.peerValid = false ∧ sPeer.peerValid = true ∧ pout.length ≤ sPeer.params.txPayloadMax ∧
    pout = sPeer.params.identOut :: ([0x00, 0x40, 0x7F, 0x80, 0xBF, 0xFF, 0x10] ++ [0xA5]) := by decide
theorem witness_Send_length : ({ sPeer with params := { vp with txPayloadMax := 8 } } : State).params.txPayloadMax < pout.length := by
  decide
theorem witness_TransmitFormats : (0x7E : Byte).toNat ≤ 126 ∧ pout.length ≤ s0.params.txPayloadMax ∧
    sPeer.peerValid = true ∧ 1 + [0, 0, 0, 0, 0, 0, 0].length + [0].length ≤ sPeer.params.txPayloadMax := by decide
theorem witness_TransmitFormats_refused : 126 < (0x7F : Byte).toNat ∧
    ({ vp with txPayloadMax := 8 } : Params).txPayloadMax < 1 + [0, 0, 0, 0, 0, 0, 0].length + [0].length ∧
    ({ vp with txPayloadMax := 8 } : Params).txPayloadMax < pout.length ∧ s0.peerValid = false := by decide
theorem witness_FrameIds : sPeer.peerValid = true ∧ ({ sPeer with txFid := 126 } : State).txFid.toNat ≤ 126 ∧
    ∀ p ∈ [pout, []], p.length ≤ sPeer.params.txPayloadMax := by decide

theorem witness_Request : ReqFile.wf s0.reqs ∧ 2 ^ 32 - 1 < 2 ^ s0.params.timeoutW ∧ 127 < 2 ^ s0.params.devAddrW ∧
    65535 < 2 ^ s0.params.clkRateW ∧ 1 < s0.params.nReq ∧ (s0.req 1).pending = false ∧
    [[0x01], [0x01, 0x02, 0x03], [0x01], [0x01]].length ≤ s0.params.batchMax ∧
    ∀ w ∈ ([[0x01], [0x01, 0x02, 0x03], [0x01], [0x01]] : List Bytes), 1 ≤ w.length ∧
        w.length ≤ s0.params.txnMaxBytes := by
  decide
theorem witness_Request_refused : s0.params.batchMax < [[0x01], [0x01], [0x01], [0x01], [0x01]].length ∧
    (∃ w ∈ ([[]] : List Bytes), w.length = 0 ∨ s0.params.txnMaxBytes < w.length) ∧ s0.params.nReq ≤ 2 ∧
    (sWin.req 1).pending = true := by decide
theorem witness_Grant : (placeRequest 1 [] 5 cfgR s0).busBusy = false ∧
    ((placeRequest 1 [] 5 cfgR s0).req 1).pending = true := by decide
theorem witness_Transfer : sDeep.busBusy = true ∧ sDeep.busFail = false ∧
    (sDeep.req sDeep.busOwner).batch[sDeep.busIdx]? = some [0x01, 0x02, 0x00] := by decide
theorem witness_Motor : sWin.busBusy = true ∧ sWin.busFail = false ∧
    (sWin.req sWin.busOwner).batch[sWin.busIdx]? = some [0x01, 0x00, 0x40] ∧
    (sDeep.req sDeep.busOwner).batch[sDeep.busIdx]? = some [0x01, 0x02, 0x00] := by decide
theorem witness_Motor_forward :
    ((openWindow 0 (placeRequest 0 [[0x01, 0x01, 0xFF]] 0 cfgL s0)).req 0).batch[0]? = some [0x01, 0x01,
        0xFF] := by decide
theorem witness_Complete : ReqFile.wf sWin.reqs ∧ sWin.busBusy = true ∧
    ({ sWin with busFail := true } : State).busFail = true ∧
    ({ sWin with busIdx := 2 } : State).busIdx = (sWin.req sWin.busOwner).batch.length := by decide
theorem witness_NotEnabled_row : encode s0.params (.rxLenHi 0x7E) = ⟨.line, [0x7E]⟩ ∧
    decodeLine s0.ctx 0x7E ≠ .rxLenHi 0x7E := by
  decide
theorem witness_NotEnabled_bus : sWin.busBusy = true ∧ (s0.req 0).pending = false ∧ s0.busBusy = false ∧
    (sWin.req sWin.busOwner).batch.length ≤ ({ sWin with busIdx := 2 } : State).busIdx ∧
    sWin.busFail = false ∧ sWin.busIdx ≠ (sWin.req sWin.busOwner).batch.length := by decide
theorem witness_NotEnabled_motor : sWin.busBusy = true ∧ sWin.busFail = false ∧
    (sWin.req sWin.busOwner).batch[sWin.busIdx]? ≠ some [0x01, 0x02, 0x40] ∧
    (sWin.req sWin.busOwner).batch[({ sWin with busIdx := 2 } : State).busIdx]? ≠ some [0x01, 0x00, 0x40] ∧
    (Instr.motorBrk 0x40 = .motorBrk 0x40 ∧ (0x02 : Byte) = 0x02) := by decide
theorem witness_NotEnabled_fail : ({ sWin with busFail := true } : State).busFail = true := by decide
theorem witness_ExecuteRuns : ReqFile.wf s0.reqs ∧ s0.requestOk 0 [[0x01, 0x02, 0x00]] = true ∧ s0.busBusy = false ∧
    s0.othersPending 0 = false ∧ 1000 < 2 ^ s0.params.timeoutW ∧ 127 < 2 ^ s0.params.devAddrW ∧
    65535 < 2 ^ s0.params.clkRateW := by decide
theorem witness_ExecuteBlocks : (∃ t, exec (.busRequest 0 [] 0 cfgL) sWin = .next t) ∧ sWin.requestOk 0 [] = true ∧
    sWin.busBusy = true ∧ (placeRequest 1 [] 5 cfgR s0).othersPending 0 = true ∧ sWin.requestOk 1 [] = false :=
  ⟨⟨_, rfl⟩, by decide, by decide, by decide, by decide⟩
theorem witness_EmptyBatch : (∃ t, exec (.busGrant 1) (placeRequest 1 [] 5 cfgR s0) = .next t) ∧
    (placeRequest 1 [] 5 cfgR s0).busBusy = false ∧ ((placeRequest 1 [] 5 cfgR s0).req 1).pending = true ∧
    ((placeRequest 1 [] 5 cfgR s0).req 1).batch = [] := ⟨⟨_, rfl⟩, by decide, by decide, by decide⟩

theorem witness_Incoming : pin.drop 5 = [0x00, 0x40, 0x7F, 0x80, 0xBF, 0xFF, 0x10] ++ [0xA5] ∧
    [0x00, 0x40, 0x7F, 0x80, 0xBF, 0xFF, 0x10].length = s0.params.nAnalog ∧
        ([0xA5] : Bytes).length = s0.params.digBytes := by
  decide
theorem witness_Parse : vp.identIn ≠ vp.identOut ∧ pin.dropLast.length < 5 + vp.nAnalog + vp.digBytes ∧
    pout.head? ≠ some vp.identIn ∧ 5 + vp.nAnalog + vp.digBytes ≤ pin.length := by decide
theorem witness_Poll_none : ∃ t, exec (.rxChunk [0x7E]) s0 = .next t ∧ t.result = .chunk false := ⟨_, rfl, by decide⟩
theorem witness_Poll_reject : ∃ t, exec (.rxChunk (rxDataFrame vp src 0 0 pout)) s0 = .next t ∧
    t.result = .chunk true ∧
    parseIncoming t.params (t.frPayload.bytes t.frPlen.toNat) = none := ⟨_, rfl, by decide, by decide⟩
theorem witness_Poll_accept : ∃ t st, exec (.rxChunk v1) s0 = .next t ∧ t.result = .chunk true ∧
    parseIncoming t.params (t.frPayload.bytes t.frPlen.toNat) = some st := ⟨_, _, rfl, by decide, rfl⟩
theorem witness_Echo : sPeer.peerValid = true ∧
    1 + sPeer.params.nAnalog + sPeer.params.digBytes ≤ sPeer.params.txPayloadMax ∧
    ∃ t, exec (.payloadIn 0 0 0 0 [1, 2, 3, 4, 5, 6, 7] [0xA5]) sPeer = .next t := ⟨by decide, by decide, _, rfl⟩
theorem witness_Echo_sizes : sDeep.HostInv := sDeep_inv.host

/-- A Supervisor between ticks, two actuators on requester 0. -/
def sup0 : Supervisor :=
  { prevCanMove := false, indicatorBlue := false, indicatorOther := true, snap := snapshot s0
    registry := [⟨true, ⟨0, 1, cfgL⟩⟩, ⟨true, ⟨0, 1, cfgR⟩⟩], todo := [], waiting := false, calls := [] }
/-- The tick it begins while requester 1 has its window. -/
def tickHeld : Supervisor × State := supervisorTick 0 sup0 sWin
/-- The same machine once both requests are served. -/
def sServed : State :=
  ({ tickHeld.2 with busBusy := false }.setReq 1 Req.init).setReq 0 { Req.init with done := true }
theorem test_tick_waits : tickHeld.1.waiting = true ∧ tickHeld.1.calls = [.kill 0] := ⟨by decide, by decide⟩
theorem test_tick_goes_on : (supervisorTick 0 tickHeld.1 sServed).1.calls = [.kill 0, .kill 1] ∧
    (supervisorTick 0 tickHeld.1 sServed).1.todo = [] := ⟨by decide, by decide⟩
/-- The host between iterations. -/
def hostAt (s : State) : HostSystem := ⟨s, sup0, [], .idle⟩
theorem test_task_poll : (runTask v1 .poll (hostAt s0)).machine.telemetry.incoming.isBlue = true ∧
    (runTask [] .operator (hostAt s0)).callbacks = [.operator] := ⟨by decide, by decide⟩
theorem test_task_telemetry : (runTask [] .telemetry (hostAt sPeer)).machine.txOut =
    encodeFrame vp src 0 [0xC2, 0, 0, 0, 0, 0, 0, 0, 0] := by decide
/-- A commit between the Supervisor's snapshot and its decision: the tick acts on the copy it took (R229, R233). -/
def movedCommit : HostSystem :=
  runMoves ([.task .supervisor []] ++ List.replicate (v1.length + 4) (.task .poll v1) ++ [.task .supervisor []]) (hostAt s0)
theorem test_moves_commit : movedCommit.machine.telemetry.incoming.isBlue = true ∧ movedCommit.sup.indicatorBlue = false ∧
    movedCommit.sup.todo.length = 2 := ⟨by decide, by decide, by decide⟩
/-- A frame sent between the request of the tick's first call and its grant (R233). -/
def movedSend : HostSystem :=
  runMoves [.task .supervisor [], .task .supervisor [], .task .supervisor [], .task .telemetry [], .task .telemetry [],
    .task .supervisor [], .block (.busGrant 0)] (hostAt sPeer)
theorem test_moves_send : movedSend.sup.calls = [.kill 0] ∧ movedSend.machine.busOwner = 0 ∧
    movedSend.machine.busBusy = true ∧
    movedSend.machine.txOut = encodeFrame vp src 0 [0xC2, 0, 0, 0, 0, 0, 0, 0, 0] :=
  ⟨by decide, by decide, by decide, by decide⟩

/-- PollTask three bytes into its chunk. -/
def inChunk : HostSystem := runMoves (List.replicate 4 (.task .poll v1)) (hostAt s0)
/-- Only PollTask pushes bytes and commits, and no `RESET` falls inside its chunk (R230, R232, R298 (e)). -/
theorem test_moves_sole_writer : inChunk.machine.rxState = .type ∧ hostMove (.block (.rxChunk [0x80])) inChunk = inChunk ∧
    hostMove (.block (.rxPush 0x80)) inChunk = inChunk ∧ hostMove (.block .reset) inChunk = inChunk ∧
    hostMove (.block (.payloadIn 0 7 0 0 [1, 2, 3, 4, 5, 6, 7] [0xA5])) inChunk = inChunk ∧
    runTask v1 .poll inChunk = inChunk := ⟨by decide, rfl, rfl, rfl, rfl, rfl⟩
/-- Another requester may ask for the bus, in the Supervisor's name only the Supervisor (R78). -/
theorem test_moves_request :
    ((hostMove (.block (.busRequest 1 [[0x01]] 5 cfgR)) inChunk).machine.req 1).pending = true ∧
    hostMove (.block (.busRequest 0 [[0x01]] 5 cfgR)) inChunk = inChunk := ⟨by decide, rfl⟩

theorem witness_Watchdog : sup0.todo = [] ∧ s0.params.heartbeatTimeoutMs < 2001 - s0.telemetry.lastUpdate ∧
    2000 - s0.telemetry.lastUpdate ≤ s0.params.heartbeatTimeoutMs ∧ tickHeld.1.todo ≠ [] :=
  ⟨rfl, by decide, by decide, by decide⟩
theorem witness_Tick_waiting : tickHeld.1.todo = [(⟨0, 1, cfgL⟩, 0), (⟨0, 1, cfgR⟩, 1)] ∧ tickHeld.1.waiting = true ∧
    (tickHeld.2.req 0).done = false ∧ ReqFile.wf sWin.reqs := ⟨by decide, by decide, by decide, by decide⟩
theorem witness_Tick_pending : ({ tickHeld.1 with waiting := false } : Supervisor).waiting = false ∧
    (tickHeld.2.req 0).pending = true := ⟨rfl, by decide⟩
theorem witness_Tick_free : ReqFile.wf s0.reqs ∧ s0.busBusy = false ∧ (∀ j, (s0.req j).pending = false) ∧
    sup0.waiting = false := ⟨by decide, rfl, fun _ => rfl, rfl⟩
theorem witness_Tick_returned : ReqFile.wf sServed.reqs ∧ sServed.busBusy = false ∧ tickHeld.1.waiting = true ∧
    (sServed.req 0).done = true := ⟨by decide, by decide, by decide, by decide⟩
/-- The host wants the length of every frame it holds. -/
def wantsLen (_ : State) : List (ReadName × Nat) := [(.frPlen, 0)]
/-- Pushing over a frame the host wants and has not acknowledged breaks R249 (c). -/
theorem test_duties_overrun : ¬ ({ s0 with frNew := true } : State).KeepsDuties wantsLen (.rxPush 0x7E) :=
  fun h => by simpa [wantsLen] using h.acknowledged rfl rfl
/-- The state a step leads to. -/
def stepTo (s : State) : State :=
  match step s with
  | .next t => t
  | .fault _ => s
  | .refused _ => s
/-- A frame, `RX_ACK`, the next byte: the frame is acknowledged unread. -/
def sUnread : State := { s0 with inbox := [.frame v1, .op [3], .line 0x7E] }
/-- Acknowledging a wanted frame unread breaks R249 (c). -/
theorem test_duties_unread : ¬ ReadsBeforePushing wantsLen sUnread := by
  have h0 : step sUnread = .next (stepTo sUnread) := rfl
  have h1 : step (stepTo sUnread) = .next (stepTo (stepTo sUnread)) := rfl
  have between {k : Nat} {w : State} {l : Instr} (hk : 0 < k ∧ k < 2) (hr : StepRuns sUnread k w l) : l = .rxAck := by
    obtain rfl : k = 1 := by omega
    rw [stepRuns_succ h0, stepRuns_zero (e := .op [3]) (rest := [.line 0x7E]) rfl] at hr
    exact (Option.some.inj ((show _ = some Instr.rxAck by decide).symm.trans hr.2)).symm
  intro h
  obtain ⟨k, w, hm, hn, hr⟩ := h 0 2 sUnread (stepTo sUnread) (stepTo (stepTo sUnread)) (.rxFrameData64 src 0x28 0x00 pin)
    .rxIdleDelim ((stepRuns_zero rfl).2 ⟨rfl, by decide⟩) rfl rfl (by decide)
    ((stepRuns_succ h0).2 ((stepRuns_succ h1).2 ((stepRuns_zero rfl).2 ⟨rfl, by decide⟩))) rfl (by decide)
    (fun k w l hm hn hr => by rw [between ⟨hm, hn⟩ hr]; decide) (.frPlen, 0) (by decide)
  exact absurd (between ⟨hm, hn⟩ hr) (by decide)
/-- A run on which the host does what it owes: a frame, its length read, `RX_ACK`, the next byte. -/
def sDuties : State := { s0 with inbox := [.frame v1, .op [4, 2, 0], .op [3], .line 0x7E] }
theorem sDuties_steps {n : Nat} {t : State} {i : Instr} (h : StepRuns sDuties n t i) :
    n = 0 ∧ t = sDuties ∧ i = .rxFrameData64 src 0x28 0x00 pin ∨
    n = 1 ∧ i = .rxRead .frPlen 0 ∨ n = 2 ∧ i = .rxAck ∨ n = 3 ∧ t.frNew = false ∧ i = .rxIdleDelim := by
  have h0 : step sDuties = .next (stepTo sDuties) := rfl
  have h1 : step (stepTo sDuties) = .next (stepTo (stepTo sDuties)) := rfl
  have h2 : step (stepTo (stepTo sDuties)) = .next (stepTo (stepTo (stepTo sDuties))) := rfl
  have h3 : step (stepTo (stepTo (stepTo sDuties))) = .next (stepTo (stepTo (stepTo (stepTo sDuties)))) := rfl
  have is {s : State} {e : Event} {l : Instr} (he : eventInstr s e = some l) (hi : eventInstr s e = some i) : i = l :=
    Option.some.inj (hi.symm.trans he)
  match n with
  | 0 =>
    rw [stepRuns_zero (e := .frame v1) rfl] at h
    exact .inl ⟨rfl, h.1, is (by decide) h.2⟩
  | 1 =>
    rw [stepRuns_succ h0, stepRuns_zero (e := .op [4, 2, 0]) rfl] at h
    exact .inr (.inl ⟨rfl, is (by decide) h.2⟩)
  | 2 =>
    rw [stepRuns_succ h0, stepRuns_succ h1, stepRuns_zero (e := .op [3]) rfl] at h
    exact .inr (.inr (.inl ⟨rfl, is (by decide) h.2⟩))
  | 3 =>
    rw [stepRuns_succ h0, stepRuns_succ h1, stepRuns_succ h2, stepRuns_zero (e := .line 0x7E) rfl] at h
    exact .inr (.inr (.inr ⟨rfl, by rw [h.1]; decide, is (by decide) h.2⟩))
  | n + 4 =>
    rw [stepRuns_succ h0, stepRuns_succ h1, stepRuns_succ h2, stepRuns_succ h3] at h
    exact absurd h (not_stepRuns rfl)
theorem witness_HostDuties : HostDuties wantsLen (v1 ++ [0x7E, 0x00]) sDuties := by
  refine ⟨⟨{ s0 with inbox := sDuties.inbox }, rfl⟩, ⟨[0x00], rfl⟩, ?_, fun n t i h => ?_⟩
  · intro m n u v t i j hi _ _ _ hj hw hm _ x hx
    obtain rfl : x = (.frPlen, 0) := by simpa [wantsLen] using hx
    have h0 : step sDuties = .next (stepTo sDuties) := rfl
    have : StepRuns sDuties 1 (stepTo sDuties) (.rxRead .frPlen 0) :=
      (stepRuns_succ h0).2 ((stepRuns_zero (e := .op [4, 2, 0]) rfl).2 ⟨rfl, by decide⟩)
    rcases sDuties_steps hj with ⟨rfl, -⟩ | ⟨rfl, rfl⟩ | ⟨rfl, rfl⟩ | ⟨rfl, -⟩
    · omega
    · cases hw
    · cases hw
    · rcases sDuties_steps hi with ⟨rfl, -⟩ | ⟨rfl, rfl⟩ | ⟨rfl, rfl⟩ | ⟨rfl, -⟩
      · exact ⟨1, _, by omega, by omega, this⟩
      · contradiction
      · contradiction
      · omega
  · rcases sDuties_steps h with ⟨-, rfl, rfl⟩ | ⟨-, rfl⟩ | ⟨-, rfl⟩ | ⟨-, hn, rfl⟩
    · exact ⟨by decide, by simp [requestedBatch], by simp [sentPayload], by simp [requestedBatch], by simp⟩
    · exact ⟨by simp [writerOf], by simp [requestedBatch], by simp [sentPayload], by simp [requestedBatch], by simp⟩
    · exact ⟨by simp [writerOf], by simp [requestedBatch], by simp [sentPayload], by simp [requestedBatch], by simp⟩
    · exact ⟨by simp [hn], by simp [requestedBatch], by simp [sentPayload], by simp [requestedBatch], by simp⟩
theorem witness_Unpack : ([0xFF, 0x01] : Bytes).length = (9 + 7) / 8 ∧
    ∀ k < 16, 9 ≤ k → ((([0xFF, 0x01] : Bytes).getD (k / 8) 0).getLsbD (k % 8)) = false := by decide
/-- Lines of R111's own examples. -/
theorem test_trace : traceLine vp (.rxPush 0x7E) (.push false false) = some "RX_PUSH 7E -> done=0 accept=0" ∧
    traceLine vp (.busRequest 0 [[0x01, 0x01, 0x80]] 1000 cfgL) .none =
      some "BUS_REQUEST r=0 cfg=(addr=0A,clk=0064) timeout=1000 batch=[[01 01 80]]" := by decide

end Sys2Proof.Tests
end

section
/-! PROOF. What an instruction can do to the state, by who issues it (`20_memory.md` R78), and with it the statements on
the state: the pinned peer, the two output streams and the reset table (`10_state.md`). -/

namespace Sys2Proof.Machine

/-! ## The receive line -/

/-- What the handler row `row` does with its byte, where the row is the one selected (R126 to R137). -/
def handlerEffect (row : Instr) (s : State) : State :=
  match row with
  | .rxIdleDelim => openFrame s
  | .rxLenHi h => takeLengthHigh h s
  | .rxLenLo l => takeLengthLow l s
  | .rxTypeData64 t => admitFrame t s
  | .rxTypeData64Short t => skipFrame t (s.raise .eShort)
  | .rxTypeData64Oversize t => skipFrame t (s.raise .eOversize)
  | .rxTypeOther t => skipFrame t s
  | .rxSrc a => takeSource a s
  | .rxQual q => takeQuality q s
  | .rxOpt o => takeOptions o s
  | .rxPayload d => takePayload d s
  | .rxCksum c => takeChecksum c s
  | .rxIgnore _ => takeIgnored s
  | _ => s

/-- In state `Type` the handler does what the selected row does: the rows' conditions are the handler's (R128, R129). -/
theorem takeType_eq_handlerEffect {s : State} (hs : s.rxState = .type) (b : Byte) :
    takeType b s = handlerEffect (decodeLine s.ctx b) s := by
  simp only [decodeLine, State.ctx, hs, takeType, State.admitsData, State.tooShort, State.tooLong, ← Nat.not_lt]
  by_cases hb : b = s.params.typeRx64
  · by_cases hshort : s.rxLen.toNat < Config.hdrLen
    · simp [hb, hshort, handlerEffect]
    · by_cases hlong : s.params.rxPayloadMax < s.rxLen.toNat - Config.hdrLen <;>
        simp [-not_lt, hb, hshort, hlong, handlerEffect]
  · simp [hb, beq_eq_false_iff_ne.mpr hb, handlerEffect]

/-- A push does what the row does that its byte selects (R125). -/
theorem rxStep_eq_handlerEffect (b : Byte) (s : State) : rxStep b s = handlerEffect (decodeLine s.ctx b) s := by
  cases hs : s.rxState
  case type => simpa only [rxStep, hs] using takeType_eq_handlerEffect hs b
  case idle =>
    simp only [rxStep, takeIdle, decodeLine, State.ctx, hs]
    split <;> rfl
  case length =>
    simp only [rxStep, takeLength, decodeLine, State.ctx, hs]
    split <;> rfl
  all_goals simp only [rxStep, decodeLine, State.ctx, hs, handlerEffect]

/-- A handler row pushes its byte where it is selected, and pushes nothing elsewhere. -/
theorem rowStep_pushes (row : Instr) (b : Byte) (s : State) :
    ∃ bs r, rowStep row b (handlerEffect row s) s = (rxRun bs s).answer r := by
  by_cases h : decodeLine s.ctx b = row
  · have hpush : handlerEffect row s = rxStep b s := by rw [rxStep_eq_handlerEffect, h]
    exact ⟨[b], _, (rowStep_of_selected h).trans (by rw [hpush]; rfl)⟩
  · exact ⟨[], _, rowStep_of_unselected h⟩

/-- All that an instruction of the receive line can do: it pushes some bytes and answers. -/
theorem exec_receive {i : Instr} {s t : State} (hw : writerOf i = .receive) (h : exec i s = .next t) :
    ∃ bs r, t = (rxRun bs s).answer r := by
  cases i <;> simp only [writerOf, reduceCtorEq] at hw <;> obtain rfl := Host.Outcome.next.inj h
  case rxPush b => exact ⟨[b], _, rfl⟩
  case rxChunk bs => exact ⟨bs, _, rfl⟩
  case rxFrameData64 src q o payload => exact ⟨rxDataFrame s.params src q o payload, _, rfl⟩
  case rxFrameOther ty xs => exact ⟨rxOtherFrame ty xs, _, rfl⟩
  all_goals exact rowStep_pushes _ _ s

/-! ## The transmit side -/

/-- All that the transmit side can do: a refusal for one of its three causes, or one frame goes out (R156, R157). -/
def TransmitOutcome (s t : State) : Prop :=
  (∃ c, t = s.refuse c ∧ (c = .eFid ∨ c = .eTxlen ∨ c = .eNopeer)) ∨
    ∃ frame fid, t = { sendFrame frame s with txFid := fid }

theorem transmitOutcome_encodeTo (dest : Addr) (fid : Byte) (payload : Bytes) (s : State) :
    TransmitOutcome s (encodeTo dest fid payload s) := by
  rcases encodeTo_cases dest fid payload s with ⟨c, e, hc⟩ | e
  · exact .inl ⟨c, e, hc.imp_right .inl⟩
  · exact .inr ⟨_, s.txFid, e⟩

theorem transmitOutcome_sendToPeer (payload : Bytes) (s : State) : TransmitOutcome s (sendToPeer payload s) := by
  rcases sendToPeer_cases payload s with ⟨c, e, hc⟩ | e
  · exact .inl ⟨c, e, .inr hc.symm⟩
  · exact .inr ⟨_, _, e⟩

theorem exec_transmit {i : Instr} {s t : State} (hw : writerOf i = .transmit) (h : exec i s = .next t) :
    TransmitOutcome s t := by
  cases i <;> simp only [writerOf, reduceCtorEq] at hw <;> obtain rfl := Host.Outcome.next.inj h
  case txFrame dest fid payload => exact transmitOutcome_encodeTo dest fid payload s
  case txEncode dest fid payload => exact transmitOutcome_encodeTo dest fid payload s
  case txSend payload => exact transmitOutcome_sendToPeer payload s
  case payloadOut analog digital => exact transmitOutcome_sendToPeer _ s

/-! ## The bus -/

/-- All that a step on the bus can do to the block: only what the requesters and the arbiter write differs (R78), and
`bus_out` grows (R48). -/
structure BusOutcome (s t : State) : Prop where
  frame : BusFrame s t
  grows : ∃ rs, t.busOut = s.busOut ++ rs

/-- A step on the bus that issues no transaction. -/
theorem BusOutcome.of_busOut_eq {s t : State} (hf : BusFrame s t) (ho : t.busOut = s.busOut) : BusOutcome s t :=
  ⟨hf, [], by rw [ho, List.append_nil]⟩

theorem busOutcome_answer (s : State) (r : OpResult) : BusOutcome s (s.answer r) :=
  .of_busOut_eq (busFrame_answer r s) rfl

theorem busOutcome_issueMotor (m : MotorMode) (g : Byte) (s : State) : BusOutcome s (issueMotor m g s) := by
  unfold issueMotor
  split
  · exact ⟨(busFrame_drew s).trans ((busFrame_transfer _ _).trans (busFrame_answer _ _)), _, rfl⟩
  · exact busOutcome_answer s .notEnabled

/-- Who issues a step on the bus: a requester or the arbiter. -/
def Writer.onBus : Writer → Bool
  | .arbiter | .request _ | .execute _ => true
  | _ => false

theorem exec_bus {i : Instr} {s t : State} (hw : (writerOf i).onBus = true) (h : exec i s = .next t) :
    BusOutcome s t := by
  cases i <;> simp only [writerOf, Writer.onBus, Bool.false_eq_true] at hw <;> obtain rfl := Host.Outcome.next.inj h
  case motorRev g => exact busOutcome_issueMotor .reverse g s
  case motorFwd g => exact busOutcome_issueMotor .forward g s
  case motorBrk g => exact busOutcome_issueMotor .brake g s
  case busExecute r batch tmo cfg =>
    exact ⟨busFrame_executeBatch .., (executeBatch_outputs deviceAnswer r batch tmo cfg s).2⟩
  case busRequest r batch tmo cfg =>
    split
    · exact .of_busOut_eq ((busFrame_placeRequest ..).trans (busFrame_answer _ _)) rfl
    · exact busOutcome_answer s (.refused none)
  case busGrant r =>
    split
    · exact .of_busOut_eq ((busFrame_openWindow r s).trans (busFrame_answer _ _)) rfl
    · exact busOutcome_answer s .notEnabled
  case busXfer o =>
    split
    · exact ⟨(busFrame_transfer o s).trans (busFrame_answer _ _), _, rfl⟩
    · exact busOutcome_answer s .notEnabled
  case busComplete =>
    split
    · exact .of_busOut_eq ((busFrame_closeWindow s).trans (busFrame_answer _ _)) (busOut_closeWindow s)
    · exact busOutcome_answer s .notEnabled

/-! ## The host's records, the status registers and reads -/

/-- The host takes a payload: only its own records and the model's own fields differ (R227). -/
theorem takeIncoming_frame (bs : Bytes) (s : State) :
    ∃ tel d r, takeIncoming bs s = { s with telemetry := tel, draws := d, result := r } := by
  rcases takeIncoming_cases bs s with ⟨st, -, e⟩ | ⟨-, e⟩
  · exact ⟨(acceptIncoming st s).telemetry, s.draws + 1, .accepted, by rw [e, acceptIncoming_frame]; rfl⟩
  · exact ⟨s.telemetry, s.draws, .rejected, e⟩

/-- `RX_ACK`, `CLR_STATUS`, `RX_READ` and an incoming payload. -/
def Writer.atSide : Writer → Bool
  | .acknowledge | .clear | .reader | .telemetry => true
  | _ => false

/-- All that those four can do: nothing of the block but `fr_new` and the status registers differs (R78). -/
def SideOutcome (s t : State) : Prop :=
  ∃ new codec bus tel d r, t = { s with
    frNew := new, codecStatus := codec, busStatus := bus, telemetry := tel, draws := d, result := r }

theorem exec_atSide {i : Instr} {s t : State} (hw : (writerOf i).atSide = true) (h : exec i s = .next t) :
    SideOutcome s t := by
  cases i <;> simp only [writerOf, Writer.atSide, Bool.false_eq_true] at hw <;> obtain rfl := Host.Outcome.next.inj h
  case rxAck => exact ⟨false, _, _, _, _, .none, rfl⟩
  case clrStatus cmask bmask => exact ⟨_, s.codecStatus &&& ~~~cmask, s.busStatus &&& ~~~bmask, _, _, .none, rfl⟩
  case rxRead name idx =>
    obtain ⟨d, r, e, -⟩ := readInto_frame (s.readAnswer idx name) s
    exact ⟨_, _, _, _, d, r, e⟩
  case payloadIn ft fl r3 r4 analog digital =>
    obtain ⟨tel, d, r, e⟩ := takeIncoming_frame (payloadInBytes s.params ft fl r3 r4 analog digital) s
    exact ⟨_, _, _, tel, d, r, e⟩

/-! ## All instructions -/

/-- All that an instruction but `RESET` can do, by who issues it. -/
theorem exec_cases {i : Instr} {s t : State} (h : exec i s = .next t) (hr : writerOf i ≠ .resetter) :
    (∃ bs r, t = (rxRun bs s).answer r) ∨ TransmitOutcome s t ∨ BusOutcome s t ∨ SideOutcome s t := by
  cases hw : writerOf i with
  | receive => exact .inl (exec_receive hw h)
  | transmit => exact .inr (.inl (exec_transmit hw h))
  | request | arbiter | execute => exact .inr (.inr (.inl (exec_bus (by rw [hw]; rfl) h)))
  | acknowledge | clear | reader | telemetry => exact .inr (.inr (.inr (exec_atSide (by rw [hw]; rfl) h)))
  | resetter => exact absurd hw hr

/-- Settles O15: a push keeps a pinned peer, and nothing else but `RESET` writes it. -/
theorem peerIsPinnedOnce : Obligations.PeerIsPinnedOnce := by
  intro i s t h hr hp
  rcases exec_cases h hr with ⟨bs, r, rfl⟩ | (⟨c, rfl, -⟩ | ⟨frame, fid, rfl⟩) | hbus | ⟨_, _, _, _, _, _, rfl⟩
  · exact rxRun_peer bs s hp
  · exact ⟨hp, rfl⟩
  · exact ⟨hp, rfl⟩
  · have hf : t = _ := hbus.frame
    rw [hf]
    exact ⟨hp, rfl⟩
  · exact ⟨hp, rfl⟩

/-- Pushing bytes sends nothing. -/
theorem rxRun_outputs (bs : Bytes) (s : State) : (rxRun bs s).txOut = s.txOut ∧ (rxRun bs s).busOut = s.busOut := by
  have hf : rxRun bs s = _ := rxRun_frame bs s
  rw [hf]
  exact ⟨rfl, rfl⟩

/-- Settles O16: the transmit side appends to `tx_out`, the bus to `bus_out`, and nothing else but `RESET` writes them. -/
theorem outputsAreAppendOnly : Obligations.OutputsAreAppendOnly := by
  intro i s t h hr
  have unchanged {u : State} (htx : u.txOut = s.txOut) (hbus : u.busOut = s.busOut) :
      (∃ f, u.txOut = s.txOut ++ f) ∧ ∃ rs, u.busOut = s.busOut ++ rs := by
    rw [htx, hbus]
    exact ⟨⟨[], (List.append_nil _).symm⟩, [], (List.append_nil _).symm⟩
  rcases exec_cases h hr with ⟨bs, r, rfl⟩ | (⟨c, rfl, -⟩ | ⟨frame, fid, rfl⟩) | hbus | ⟨_, _, _, _, _, _, rfl⟩
  · obtain ⟨htx, hbus⟩ := rxRun_outputs bs s
    exact unchanged htx hbus
  · exact unchanged rfl rfl
  · exact ⟨⟨frame, rfl⟩, [], (List.append_nil _).symm⟩
  · have htx : t.txOut = s.txOut := by
      have hf : t = _ := hbus.frame
      rw [hf]
    exact ⟨⟨[], by rw [htx, List.append_nil]⟩, hbus.grows⟩
  · exact unchanged rfl rfl

/-! ## `RESET` -/

/-- After `RESET` every requester's registers are as after power-up (R56). -/
theorem req_resetBlock (s : State) (r : Nat) : (resetBlock s).req r = Req.init := rfl

/-- Settles O52: `RESET` answers the table's state, and the requesters' registers in it are those of R56. -/
theorem resetGivesTheTable : Obligations.ResetGivesTheTable := by
  intro s
  refine ⟨resetBlock s, rfl, rfl, fun r => ?_⟩
  rw [req_resetBlock]
  exact ⟨rfl, rfl, rfl, rfl⟩

end Sys2Proof.Machine
end

section
/-! PROOF. The order of the steps and who writes what (`20_memory.md` section 6), and the byte order of the length field
(`20_memory.md` section 2): the statements on the memory. -/

namespace Sys2Proof.Machine

/-! ## The steps in their order -/

/-- A step with an event waiting runs that event's bytes on the state without it (R75). -/
theorem step_of_inbox_cons {s : State} {e : Event} {rest : List Event} (hin : s.inbox = e :: rest) :
    step s = runCode (eventCode s e) { s with inbox := rest } := by
  have hpop : s.popInbox = { s with inbox := rest } := by rw [State.popInbox, hin, List.tail_cons]
  simp only [step, runNext, hin, hpop]

/-- Bytes that decode run their instruction (R110). -/
theorem runCode_of_decode_ok {s : State} {w : Code} {i : Instr} (hdec : decode s.ctx w = .ok i) :
    runCode w s = exec i s := by
  simp only [runCode, hdec]

/-- Settles O4: taking an event out of the inbox leaves what the decoder reads as it is. -/
theorem stepRunsTheDecodedInstruction : Obligations.StepRunsTheDecodedInstruction := by
  intro s e rest i hin hdec
  rw [step_of_inbox_cons hin]
  exact runCode_of_decode_ok hdec

/-- No instruction, `RESET` included, adds a waiting event or takes one out (R75). -/
theorem exec_inbox {i : Instr} {s t : State} (h : exec i s = .next t) : t.inbox = s.inbox := by
  by_cases hr : writerOf i = .resetter
  · cases i <;> simp only [writerOf, reduceCtorEq] at hr
    obtain rfl := Host.Outcome.next.inj h
    rfl
  · rcases exec_cases h hr with ⟨bs, r, rfl⟩ | (⟨c, rfl, -⟩ | ⟨frame, fid, rfl⟩) | hbus | ⟨_, _, _, _, _, _, rfl⟩
    · exact (congrArg State.inbox (rxRun_frame bs s) :)
    · rfl
    · rfl
    · exact (congrArg State.inbox hbus.frame :)
    · rfl

/-- Settles O6: only the step itself takes an event out, the instruction it runs keeps the rest (`exec_inbox`). -/
theorem stepsTakeEventsInOrder : Obligations.StepsTakeEventsInOrder := by
  intro s t h
  rcases step_next_cases h with ⟨hnil, rfl⟩ | ⟨i, hi⟩ | ⟨i, hi⟩ | rfl
  · rw [hnil, List.tail_nil]
  · exact exec_inbox hi
  · exact exec_inbox hi
  · rfl

/-! ## The single-writer table: the codec -/

/-- A refusal writes the status register, the list of causes and the result, where its cause is none of the bus's (R78,
R159). -/
theorem refuse_frame {c : Cause} (hc : busBit c = 0) (s : State) : s.refuse c = { s with
    codecStatus := s.codecStatus ||| codecBit c, raised := s.raised ++ [c], result := .refused (some c) } := by
  simp [State.refuse, State.raise, State.answer, hc]

/-- What the transmit side writes of the block, with the bits of `codec_status` it may set (R78, R266). -/
theorem TransmitOutcome.frame {s t : State} (h : TransmitOutcome s t) :
    t = { s with
      txFid := t.txFid, txOut := t.txOut, codecStatus := t.codecStatus, raised := t.raised, result := t.result } ∧
    t.codecStatus &&& ~~~0x38 = s.codecStatus &&& ~~~0x38 := by
  rcases h with ⟨c, rfl, hc⟩ | ⟨frame, fid, rfl⟩
  · have hbits : busBit c = 0 ∧ codecBit c &&& ~~~0x38 = 0 := by
      rcases hc with rfl | rfl | rfl <;> decide
    rw [refuse_frame hbits.1]
    exact ⟨rfl, and_of_or_masked hbits.2⟩
  · exact ⟨rfl, rfl⟩

/-- Pushing bytes sets bits of `codec_status` only for the causes of the receive side (R78, R266). -/
theorem rxRun_answer_codecStatus (bs : Bytes) (s : State) (r : OpResult) :
    ((rxRun bs s).answer r).codecStatus &&& ~~~0x47 = s.codecStatus &&& ~~~0x47 := by
  obtain ⟨m, hset, hmask⟩ := rxRun_codecStatus bs s
  rw [State.answer_codecStatus, hset]
  exact and_of_or_masked hmask

/-! ## The single-writer table: the requesters' registers -/

/-- A request writes its own requester's registers and no other's (R176). -/
theorem req_placeRequest {s : State} (hwf : ReqFile.wf s.reqs) (r : Nat) (batch : List Bytes) (tmo : Nat)
    (cfg : DeviceConfig) (j : Nat) : (placeRequest r batch tmo cfg s).req j =
      if j = r then
        { s.req r with
          batch := batch, timeoutMs := fitTimeout s.params tmo, cfg := fitCfg s.params cfg, done := false, pending := true }
      else s.req j :=
  State.req_setReq hwf r j _

theorem placeRequest_wf {s : State} (hwf : ReqFile.wf s.reqs) (r : Nat) (batch : List Bytes) (tmo : Nat)
    (cfg : DeviceConfig) : ReqFile.wf (placeRequest r batch tmo cfg s).reqs :=
  State.setReq_wf hwf r _

/-- The requesters' registers are a function of the request file. -/
theorem req_of_reqs_eq {s t : State} (h : t.reqs = s.reqs) (j : Nat) : t.req j = s.req j := by
  rw [State.req, h, State.req]

theorem reqs_issueMotor (m : MotorMode) (g : Byte) (s : State) : (issueMotor m g s).reqs = s.reqs := by
  unfold issueMotor
  split <;> rfl

/-- Of the arbiter's steps only the completion writes a requester's registers (R177, R179, R180). -/
theorem exec_arbiter_req {i : Instr} {s t : State} (hw : writerOf i = .arbiter) (h : exec i s = .next t) :
    (∀ j, t.req j = s.req j) ∨ ∀ j, t.req j = (closeWindow s).req j := by
  cases i <;> simp only [writerOf, reduceCtorEq] at hw <;> obtain rfl := Host.Outcome.next.inj h
  case motorRev g => exact .inl (req_of_reqs_eq (reqs_issueMotor .reverse g s))
  case motorFwd g => exact .inl (req_of_reqs_eq (reqs_issueMotor .forward g s))
  case motorBrk g => exact .inl (req_of_reqs_eq (reqs_issueMotor .brake g s))
  case busGrant r => exact .inl fun j => by split <;> rfl
  case busXfer o => exact .inl fun j => by split <;> rfl
  case busComplete =>
    split
    · exact .inr fun _ => rfl
    · exact .inl fun _ => rfl

/-- The completion keeps every request as it was made, and writes no register of a requester but the owner (R78, R180). -/
theorem closeWindow_keeps_requests {s : State} (hwf : ReqFile.wf s.reqs) (j : Nat) :
    ((closeWindow s).req j).batch = (s.req j).batch ∧ ((closeWindow s).req j).timeoutMs = (s.req j).timeoutMs ∧
      ((closeWindow s).req j).cfg = (s.req j).cfg ∧ (j ≠ s.busOwner → (closeWindow s).req j = s.req j) := by
  rw [req_closeWindow hwf]
  by_cases hj : j = s.busOwner
  · subst hj
    simp
  · simp [hj]

/-- `BUS_REQUEST` writes the requesters' registers and the result, and of its own requester not `ok` and `n_done` (R78). -/
theorem exec_busRequest_frame {r : Nat} {batch : List Bytes} {tmo : Nat} {cfg : DeviceConfig} {s t : State}
    (h : exec (.busRequest r batch tmo cfg) s = .next t) :
    t = { s with reqs := t.reqs, result := t.result } ∧
      (ReqFile.wf s.reqs →
        (∀ j, j ≠ r → t.req j = s.req j) ∧ (t.req r).ok = (s.req r).ok ∧ (t.req r).nDone = (s.req r).nDone) := by
  obtain rfl := Host.Outcome.next.inj h
  split
  · refine ⟨rfl, fun hwf => ?_⟩
    have hreq := req_placeRequest hwf r batch tmo cfg
    refine ⟨fun j hj => (hreq j).trans (if_neg hj), ?_⟩
    have hown := (hreq r).trans (if_pos rfl)
    exact ⟨(congrArg Req.ok hown :), (congrArg Req.nDone hown :)⟩
  · exact ⟨rfl, fun _ => ⟨fun _ _ => rfl, rfl, rfl⟩⟩

/-- `BUS_EXECUTE` by `r` writes no other requester's registers, whether it is refused, blocks or runs its window (R78,
R181). -/
theorem req_executeBatch_of_ne {s : State} (hwf : ReqFile.wf s.reqs) (answer : Nat → XferOutcome) (batch : List Bytes)
    (tmo : Nat) (cfg : DeviceConfig) {r j : Nat} (hj : j ≠ r) :
    (executeBatch answer r batch tmo cfg s).req j = s.req j := by
  have hplace : (placeRequest r batch tmo cfg s).req j = s.req j :=
    (req_placeRequest hwf r batch tmo cfg j).trans (if_neg hj)
  rcases executeBatch_cases answer r batch tmo cfg s with ⟨-, e⟩ | ⟨-, -, e⟩ | ⟨-, -, e⟩
  · rw [e]
    rfl
  · rw [e]
    exact hplace
  · obtain ⟨-, hothers, -⟩ := req_runWindow (placeRequest_wf hwf r batch tmo cfg) answer r
    rw [e, hothers j hj, hplace]

/-! ## The single-writer table -/

/-- Settles O12: one case for each writer of R78, from what that writer's instructions can do. -/
theorem singleWriterTable : Obligations.SingleWriterTable := by
  intro i s t h
  cases hw : writerOf i with
  | receive =>
    obtain ⟨bs, r, rfl⟩ := exec_receive hw h
    exact ⟨congrArg (State.answer · r) (rxRun_frame bs s), rxRun_answer_codecStatus bs s r⟩
  | transmit => exact (exec_transmit hw h).frame
  | request r =>
    cases i <;> simp only [writerOf, reduceCtorEq, Writer.request.injEq] at hw
    subst hw
    exact exec_busRequest_frame h
  | arbiter =>
    refine ⟨(exec_bus (by rw [hw]; rfl) h).frame, fun hwf j => ?_⟩
    rcases exec_arbiter_req hw h with hreq | hreq <;> rw [hreq j]
    · exact ⟨rfl, rfl, rfl, fun _ => rfl⟩
    · exact closeWindow_keeps_requests hwf j
  | execute r =>
    refine ⟨(exec_bus (by rw [hw]; rfl) h).frame, fun hwf j hj => ?_⟩
    cases i <;> simp only [writerOf, reduceCtorEq, Writer.execute.injEq] at hw
    subst hw
    obtain rfl := Host.Outcome.next.inj h
    exact req_executeBatch_of_ne hwf deviceAnswer _ _ _ hj
  | acknowledge | clear | resetter =>
    cases i <;> simp only [writerOf, reduceCtorEq] at hw
    obtain rfl := Host.Outcome.next.inj h
    rfl
  | telemetry =>
    cases i <;> simp only [writerOf, reduceCtorEq] at hw
    obtain rfl := Host.Outcome.next.inj h
    obtain ⟨tel, d, r, e⟩ := takeIncoming_frame (payloadInBytes s.params _ _ _ _ _ _) s
    rw [e]
  | reader =>
    cases i <;> simp only [writerOf, reduceCtorEq] at hw
    obtain rfl := Host.Outcome.next.inj h
    obtain ⟨d, r, e, -⟩ := readInto_frame (s.readAnswer _ _) s
    rw [e]

/-! ## The length field -/

/-- The first length byte is the high one (R127). -/
theorem exec_rxLenHi {s : State} (hs : s.rxState = .length) (hc : s.rxCnt = 0) (h : Byte) : exec (.rxLenHi h) s =
    .next ((takeLengthHigh h s).answer (.push s.pushDone (s.pushAccept h))) :=
  congrArg Host.Outcome.next (rowStep_of_selected (by simp only [decodeLine, State.ctx, hs, if_pos hc]))

/-- The second length byte is the low one (R127). -/
theorem exec_rxLenLo {s : State} (hs : s.rxState = .length) (hc : s.rxCnt ≠ 0) (l : Byte) : exec (.rxLenLo l) s =
    .next ((takeLengthLow l s).answer (.push s.pushDone (s.pushAccept l))) :=
  congrArg Host.Outcome.next (rowStep_of_selected (by simp only [decodeLine, State.ctx, hs, if_neg hc]))

/-- The low byte added to the shifted high byte is the big-endian number of the two: no carry is lost (R62, R89). -/
theorem toNat_high_add_low (h l : Byte) :
    (BitVec.ofNat 16 (256 * h.toNat) + l.setWidth 16).toNat = 256 * h.toNat + l.toNat := by
  have hh := h.isLt
  have hl := l.isLt
  simp only [BitVec.toNat_add, BitVec.toNat_ofNat, BitVec.toNat_setWidth]
  omega

/-- Settles O19: the two rows in succession leave the sum of the two bytes in their places. -/
theorem lengthFieldIsBigEndian : Obligations.LengthFieldIsBigEndian := by
  intro s t u h l hs hc hhi hlo
  rw [exec_rxLenHi hs hc] at hhi
  obtain rfl := Host.Outcome.next.inj hhi
  rw [exec_rxLenLo (s := (takeLengthHigh h s).answer _) hs (by decide : (1 : Half) ≠ 0)] at hlo
  obtain rfl := Host.Outcome.next.inj hlo
  exact ⟨toNat_high_add_low h l, rfl, rfl⟩

end Sys2Proof.Machine
end

section
/-! PROOF. Single facts on the encodings (`30_encoding.md`): the checksum, words written out, bytes that are no row's, and the
transmit formats as instructions. -/

namespace Sys2Proof.Machine

/-! ## The checksum -/

/-- The checksum is a bijection of the sum, so it tells apart what the sum tells apart (R90). -/
theorem cksum_inj {s t : Bytes} : cksum s = cksum t ↔ sum8 s = sum8 t := sub_right_inj

/-- A byte's contribution to the sum does not depend on where it stands. -/
theorem sum8_append_cons (xs ys : Bytes) (a : Byte) : sum8 (xs ++ a :: ys) = a + sum8 (xs ++ ys) := by
  rw [sum8_append, sum8_append, sum8, add_left_comm]

/-- The checksum is what completes the sum to `0xFF` (R92). -/
theorem eq_cksum_iff {s : Bytes} {c : Byte} : c = cksum s ↔ sum8 s + c = 0xFF := eq_sub_iff_add_eq'

/-- Settles O37: each byte enters the sum once, with weight one. -/
theorem checksumDetectsOneChangedByte : Obligations.ChecksumDetectsOneChangedByte := by
  refine ⟨fun xs ys a b hab h => hab ?_, fun xs ys hp => cksum_inj.mpr (sum8_perm hp), fun s c => eq_cksum_iff⟩
  rw [cksum_inj, sum8_append_cons, sum8_append_cons] at h
  exact add_right_cancel h

/-! ## Words written out -/

/-- Settles O3: each word is evaluated. -/
theorem writtenWordsDecode : Obligations.WrittenWordsDecode :=
  ⟨rfl, rfl, rfl, rfl, rfl, rfl, rfl, rfl⟩

/-! ## Bytes that no row matches -/

/-- Bytes that do not decode are run by the rule for unmatched bytes (R104, R105, R208). -/
theorem runCode_of_decode_error {s : State} {w : Code} {e : DecodeError} (hdec : decode s.ctx w = .error e) :
    runCode w s = runUnmatched w e s := by
  simp only [runCode, hdec]

/-- Settles O5: taking an event out of the inbox leaves what the decoder reads as it is, and the channel says what
unmatched bytes are. -/
theorem stepOnOtherEvents : Obligations.StepOnOtherEvents := by
  refine ⟨fun s hin => ?_, fun s bs rest e hin hdec => ?_, fun s rest e hin hdec => ?_, fun s bs rest e hin hdec => ?_⟩
  case refine_1 => simp only [step, runNext, hin]
  all_goals
    rw [step_of_inbox_cons hin]
    exact runCode_of_decode_error hdec

/-! ## The transmit formats as instructions -/

theorem encodeTo_of_fid_illegal {fid : Byte} (h : 126 < fid.toNat) (dest : Addr) (payload : Bytes) (s : State) :
    encodeTo dest fid payload s = s.refuse .eFid := if_pos h

theorem encodeTo_of_too_long {fid : Byte} {payload : Bytes} {s : State} (h : fid.toNat ≤ 126)
    (hlen : s.params.txPayloadMax < payload.length) (dest : Addr) : encodeTo dest fid payload s = s.refuse .eTxlen :=
  (if_neg (Nat.not_le.mpr (Nat.lt_succ_of_le h))).trans (if_pos hlen)

theorem encodeTo_of_legal {fid : Byte} {payload : Bytes} {s : State} (h : fid.toNat ≤ 126)
    (hlen : payload.length ≤ s.params.txPayloadMax) (dest : Addr) :
    encodeTo dest fid payload s = sendFrame (encodeFrame s.params dest fid payload) s :=
  (if_neg (Nat.not_le.mpr (Nat.lt_succ_of_le h))).trans (if_neg (Nat.not_lt.mpr hlen))

theorem sendToPeer_of_no_peer {s : State} (h : s.peerValid = false) (payload : Bytes) :
    sendToPeer payload s = s.refuse .eNopeer := by
  simp only [sendToPeer, h, Bool.not_false, if_true]

theorem sendToPeer_of_too_long {s : State} {payload : Bytes} (h : s.peerValid = true)
    (hlen : s.params.txPayloadMax < payload.length) : sendToPeer payload s = s.refuse .eTxlen := by
  simp only [sendToPeer, h, Bool.not_true, Bool.false_eq_true, if_false, if_pos hlen]

theorem sendToPeer_of_legal {s : State} {payload : Bytes} (h : s.peerValid = true)
    (hlen : payload.length ≤ s.params.txPayloadMax) : sendToPeer payload s =
      { sendFrame (encodeFrame s.params s.peerAddr (BitVec.ofNat 8 s.txFid.toNat) payload) s with
        txFid := BitVec.ofNat 7 ((s.txFid.toNat + 1) % 127) } := by
  simp only [sendToPeer, h, Bool.not_true, Bool.false_eq_true, if_false, if_neg (Nat.not_lt.mpr hlen), fid_setWidth]
  rfl

theorem length_payloadOutBytes (p : Params) (analog digital : Bytes) :
    (payloadOutBytes p analog digital).length = 1 + analog.length + digital.length := by
  simp only [payloadOutBytes, List.length_cons, List.length_append]
  omega

/-- Settles O40: a transmit frame is run as `TX_ENCODE` runs it, an outgoing payload as `TX_SEND` does. -/
theorem transmitFormatsAreEmitted : Obligations.TransmitFormatsAreEmitted := by
  intro s
  have refused {c : Cause} (hc : busBit c = 0) {t : State} (ht : t = s.refuse c) :
      Host.Outcome.next (φ := Fault) (ρ := Refusal) t = .next { s with
        codecStatus := s.codecStatus ||| codecBit c, raised := s.raised ++ [c], result := .refused (some c) } :=
    congrArg _ (ht.trans (refuse_frame hc s))
  refine ⟨fun dest fid payload => ⟨fun hfid => ?_, fun hfid hlen => ?_⟩,
    fun analog digital => ⟨fun hpeer => ?_, fun hpeer hlen => ?_⟩,
    fun dest fid payload hfid hlen => congrArg _ (encodeTo_of_legal hfid hlen dest),
    fun analog digital hpeer hlen => ?_⟩
  · exact refused rfl (encodeTo_of_fid_illegal hfid dest payload s)
  · exact refused rfl (encodeTo_of_too_long hfid hlen dest)
  · exact refused rfl (sendToPeer_of_no_peer hpeer _)
  · rw [← length_payloadOutBytes s.params] at hlen
    exact refused rfl (sendToPeer_of_too_long hpeer hlen)
  · rw [← length_payloadOutBytes s.params] at hlen
    exact congrArg _ (sendToPeer_of_legal hpeer hlen)

end Sys2Proof.Machine
end

section
/-! PROOF. Decoding and encoding undo each other (`30_encoding.md` sections 2, 5, 7), format by format of the opcode table. -/

namespace Sys2Proof.Machine

open Laws (RowShape.channel)

/-! ## The byte handlers -/

theorem decode_line (c : DecodeCtx) (b : Byte) : decode c ⟨.line, [b]⟩ = .ok (decodeLine c b) := rfl

/-- In the state and under the condition of its row, a handler's byte selects that row (R126 to R137). -/
theorem decode_encode_line {c : DecodeCtx} {i : Instr} (hch : RowShape.channel i = .line)
    (hwf : wellFormed c.params i = true) (had : admits c i = true) : decode c (encode c.params i) = .ok i := by
  cases i <;> simp only [RowShape.channel, reduceCtorEq] at hch <;>
    simp only [encode, decode_line, Except.ok.injEq] <;>
    simp only [wellFormed, admits, Bool.and_eq_true, beq_iff_eq, bne_iff_ne, decide_eq_true_eq] at hwf had
  case rxIdleDelim => simp only [decodeLine, had, if_true]
  case rxIdleOther b => simp only [decodeLine, had, if_neg hwf]
  case rxLenHi h => simp only [decodeLine, had, if_true]
  case rxLenLo l => simp only [decodeLine, had, if_false]
  case rxTypeData64 t =>
    obtain ⟨⟨hstate, hmin⟩, hmax⟩ := had
    simp only [decodeLine, hstate, hwf, if_true, if_neg (Nat.not_lt.mpr hmin), if_neg (Nat.not_lt.mpr hmax)]
  case rxTypeData64Short t =>
    obtain ⟨hstate, hshort⟩ := had
    simp only [decodeLine, hstate, hwf, if_true, if_pos hshort]
  case rxTypeData64Oversize t =>
    obtain ⟨⟨hstate, hmin⟩, hlong⟩ := had
    simp only [decodeLine, hstate, hwf, if_true, if_neg (Nat.not_lt.mpr hmin), if_pos hlong]
  case rxTypeOther t => simp only [decodeLine, had, if_neg hwf]
  all_goals simp only [decodeLine, had]

/-- What the encoding says of an accepted code: its row admits the operands, the decoder's registers meet its condition,
and the code is its encoding. -/
structure IsEncodingOf (c : DecodeCtx) (w : Code) (i : Instr) : Prop where
  wellFormed : wellFormed c.params i = true
  admits : admits c i = true
  encode : encode c.params i = w

/-- The row a byte selects has that byte, and its condition holds (R126 to R137). -/
theorem isEncodingOf_decodeLine (c : DecodeCtx) (b : Byte) : IsEncodingOf c ⟨.line, [b]⟩ (decodeLine c b) := by
  cases hs : c.rxState <;> simp only [decodeLine, hs]
  case idle =>
    split
    case isTrue h => exact ⟨rfl, by simp [admits, hs], by rw [h]; rfl⟩
    case isFalse h => exact ⟨by simp [wellFormed, h], by simp [admits, hs], rfl⟩
  case length =>
    split
    case isTrue h => exact ⟨rfl, by simp [admits, hs, h], rfl⟩
    case isFalse h => exact ⟨rfl, by simpa [admits, hs] using h, rfl⟩
  case type =>
    split
    case isFalse h => exact ⟨by simp [wellFormed, h], by simp [admits, hs], rfl⟩
    case isTrue h =>
      have hwf : (b == c.params.typeRx64) = true := beq_iff_eq.mpr h
      split
      case isTrue hshort => exact ⟨hwf, by simp [admits, hs, hshort], rfl⟩
      case isFalse hmin =>
        split
        case isTrue hlong => exact ⟨hwf, by simp [admits, hs, hlong, Nat.not_lt.mp hmin], rfl⟩
        case isFalse hmax => exact ⟨hwf, by simp [admits, hs, Nat.not_lt.mp hmin, Nat.not_lt.mp hmax], rfl⟩
  all_goals exact ⟨rfl, by simp [admits, hs], rfl⟩

/-! ## The frames -/

/-- A receive data frame within the limit of its length field decodes to its fields (R86). -/
theorem decodeRxFrame_rxDataFrame {p : Params} {payload : Bytes} (hlen : payload.length ≤ 65524) (src : Addr)
    (q o : Byte) : decodeRxFrame p (rxDataFrame p src q o payload) = .ok (.rxFrameData64 src q o payload) := by
  have htail := splitTail_append p ([BitVec.ofNat 8 ((payload.length + 11) / 256), BitVec.ofNat 8 (payload.length + 11),
    p.typeRx64] ++ addrBytes src ++ [q, o]) payload
  simp only [rxDataFrame_eq, decodeRxFrame, ne_eq, not_true_eq_false, if_false, if_true, takeAddr_addrBytes_append,
    unBE16_be16 (show payload.length + 11 < 65536 by omega), htail]
  rfl

/-- A frame of another type decodes to its bytes (R88). -/
theorem decodeRxFrame_rxOtherFrame {p : Params} {t : Byte} {xs : Bytes} (ht : t ≠ p.typeRx64) (hlen : xs.length < 65536) :
    decodeRxFrame p (rxOtherFrame t xs) = .ok (.rxFrameOther t xs) := by
  simp only [rxOtherFrame, be16_cons, List.cons_append, List.nil_append, decodeRxFrame, ne_eq, not_true_eq_false, if_false,
    if_neg ht, unBE16_be16 hlen, if_true]

/-- A transmit frame within the limits decodes to its fields (R87, R97). -/
theorem decodeTxFrame_encodeFrame {p : Params} {fid : Byte} {payload : Bytes} (hfid : fid.toNat < 127)
    (hlen : payload.length ≤ 65524) (dest : Addr) :
    decodeTxFrame p (encodeFrame p dest fid payload) = .ok (.txFrame dest fid payload) := by
  have htail := splitTail_append p ([BitVec.ofNat 8 ((payload.length + 11) / 256), BitVec.ofNat 8 (payload.length + 11),
    p.txRsvdA, fid] ++ addrBytes dest ++ [p.txRsvdB]) payload
  simp only [encodeFrame_eq, decodeTxFrame, ne_eq, not_true_eq_false, if_false, takeAddr_addrBytes_append,
    Config.fidMod, if_neg (Nat.not_le.mpr hfid), unBE16_be16 (show payload.length + 11 < 65536 by omega), htail]
  rfl

/-- All that an accepted frame on the receive line can be (R86, R88, R89). -/
theorem decodeRxFrame_eq_ok {p : Params} {bs : Bytes} {i : Instr} (h : decodeRxFrame p bs = .ok i) :
    (∃ src q o payload, i = .rxFrameData64 src q o payload ∧ payload.length ≤ 65524 ∧
      rxDataFrame p src q o payload = bs) ∨
    ∃ t xs, i = .rxFrameOther t xs ∧ t ≠ p.typeRx64 ∧ xs.length < 65536 ∧ rxOtherFrame t xs = bs := by
  unfold decodeRxFrame at h
  split at h
  case h_2 => cases h
  case h_1 d hi lo t rest =>
    have hval := unBE16_lt hi lo
    split at h
    case isTrue => cases h
    case isFalse hd =>
    rw [ne_eq, Classical.not_not] at hd
    split at h
    case isTrue ht =>
      split at h
      case h_2 => cases h
      case h_1 src q o tail haddr =>
        cases hsplit : splitTail p (unBE16 hi lo) ([hi, lo, t] ++ addrBytes src ++ [q, o]) tail with
        | error e => rw [hsplit] at h; cases h
        | ok payload =>
          rw [hsplit] at h
          cases h
          obtain ⟨htail, hcount⟩ := splitTail_eq_ok hsplit
          have hbe : be16 (payload.length + 11) = [hi, lo] := by rw [← hcount, be16_unBE16]
          refine .inl ⟨src, q, o, payload, rfl, by omega, ?_⟩
          simp [rxDataFrame, frameOf, rxBody, Config.hdrLen, hbe, hd, ht, takeAddr_some haddr, htail]
    case isFalse ht =>
      split at h
      case isFalse => cases h
      case isTrue hcount =>
        cases h
        refine .inr ⟨t, rest, rfl, ht, by omega, ?_⟩
        rw [rxOtherFrame, ← hcount, be16_unBE16, hd]
        rfl

/-- All that an accepted transmit frame can be (R87, R89, R97). -/
theorem decodeTxFrame_eq_ok {p : Params} {bs : Bytes} {i : Instr} (h : decodeTxFrame p bs = .ok i) :
    ∃ dest fid payload, i = .txFrame dest fid payload ∧ fid.toNat < 127 ∧ payload.length ≤ 65524 ∧
      encodeFrame p dest fid payload = bs := by
  unfold decodeTxFrame at h
  split at h
  case h_2 => cases h
  case h_1 d hi lo ra fid rest =>
    have hval := unBE16_lt hi lo
    split at h
    case isTrue => cases h
    case isFalse hd =>
    split at h
    case isTrue => cases h
    case isFalse hra =>
    split at h
    case isTrue => cases h
    case isFalse hfid =>
    split at h
    case h_2 => cases h
    case h_1 dest rb tail haddr =>
    split at h
    case isTrue => cases h
    case isFalse hrb =>
    rw [ne_eq, Classical.not_not] at hd hra hrb
    cases hsplit : splitTail p (unBE16 hi lo) ([hi, lo, ra, fid] ++ addrBytes dest ++ [rb]) tail with
    | error e => rw [hsplit] at h; cases h
    | ok payload =>
      rw [hsplit] at h
      cases h
      obtain ⟨htail, hcount⟩ := splitTail_eq_ok hsplit
      have hbe : be16 (payload.length + 11) = [hi, lo] := by rw [← hcount, be16_unBE16]
      refine ⟨dest, fid, payload, rfl, Nat.not_le.mp hfid, by omega, ?_⟩
      simp [encodeFrame, frameOf, txBody, Config.hdrLen, hbe, hd, hra, hrb, takeAddr_some haddr, htail]

/-! ## The motor transactions and the payloads -/

/-- All that an accepted motor transaction can be (R100). -/
theorem decodeMotor_eq_ok {bs : Bytes} {i : Instr} (h : decodeMotor bs = .ok i) :
    ∃ g, (i = .motorRev g ∧ motorCmd .reverse g = bs) ∨ (i = .motorFwd g ∧ motorCmd .forward g = bs) ∨
      (i = .motorBrk g ∧ motorCmd .brake g = bs) := by
  unfold decodeMotor at h
  split at h
  case h_2 => cases h
  case h_1 sub mode g =>
    refine ⟨g, ?_⟩
    split at h
    case isTrue => cases h
    case isFalse hsub =>
    rw [ne_eq, Classical.not_not] at hsub
    subst hsub
    split at h
    case isTrue hm => cases h; exact .inl ⟨rfl, by rw [hm]; rfl⟩
    case isFalse =>
    split at h
    case isTrue hm => cases h; exact .inr (.inl ⟨rfl, by rw [hm]; rfl⟩)
    case isFalse =>
    split at h
    case isTrue hm => cases h; exact .inr (.inr ⟨rfl, by rw [hm]; rfl⟩)
    case isFalse => cases h

/-- An incoming payload decodes to its fields (R206). -/
theorem decodePayload_payloadInBytes {p : Params} {analog digital : Bytes} (ha : analog.length = p.nAnalog)
    (hd : digital.length = p.digBytes) (ft fl r3 r4 : Byte) :
    decodePayload p (payloadInBytes p ft fl r3 r4 analog digital) = .ok (.payloadIn ft fl r3 r4 analog digital) := by
  simp [decodePayload, payloadInBytes, ← ha, ← hd]

/-- An outgoing payload decodes to its fields, where the two tags differ (R11, R210). -/
theorem decodePayload_payloadOutBytes {p : Params} {analog digital : Bytes} (htag : p.identIn ≠ p.identOut)
    (ha : analog.length = p.nAnalog) (hd : digital.length = p.digBytes) :
    decodePayload p (payloadOutBytes p analog digital) = .ok (.payloadOut analog digital) := by
  simp [decodePayload, payloadOutBytes, ← ha, ← hd, htag.symm]

/-- An accepted payload has as many analog and digital bytes as its layout (R206, R207, R210). -/
theorem wellFormed_of_decodePayload {p : Params} {bs : Bytes} {i : Instr} (h : decodePayload p bs = .ok i) :
    wellFormed p i = true ∧ RowShape.channel i = .payload := by
  unfold decodePayload at h
  split at h
  case h_1 => cases h
  case h_2 tag rest =>
    split at h
    case isTrue =>
      split at h
      case h_2 => cases h
      case h_1 ft fl r3 r4 body =>
        split at h
        case isTrue => cases h
        case isFalse hlen =>
          cases h
          refine ⟨?_, rfl⟩
          simp only [wellFormed, List.length_take, List.length_drop, Bool.and_eq_true, decide_eq_true_eq]
          omega
    case isFalse =>
      split at h
      case isFalse => cases h
      case isTrue =>
        split at h
        case isTrue => cases h
        case isFalse hlen =>
          cases h
          refine ⟨?_, rfl⟩
          simp only [wellFormed, List.length_take, List.length_drop, Bool.and_eq_true, decide_eq_true_eq]
          omega

/-! ## The operations -/

/-- An operation's own bytes decode to it, whatever the sizes of its operands (assumption log 9). -/
theorem decode_encode_op {c : DecodeCtx} {i : Instr} (hch : RowShape.channel i = .op)
    (hwf : wellFormed c.params i = true) : decode c (encode c.params i) = .ok i := by
  cases i <;> simp only [RowShape.channel, reduceCtorEq] at hch
  case rxRead name idx =>
    have hnum := takeNum_numBytes idx []
    rw [List.append_nil] at hnum
    simp [encode, decode, decodeOp, decodeOperands, hnum, readNameOf_readNameCode name hwf]
  case txEncode dest fid payload => rfl
  case busRequest r batch tmo cfg =>
    simp [encode, decode, decodeOp, decodeOperands, takeRequest_encode]
  case busExecute r batch tmo cfg =>
    simp [encode, decode, decodeOp, decodeOperands, takeRequest_encode]
  case busGrant r =>
    have hnum := takeNum_numBytes r []
    rw [List.append_nil] at hnum
    simp [encode, decode, decodeOp, decodeOperands, hnum]
  case busXfer o => cases o <;> rfl
  all_goals rfl

/-- Accepted operands are those of the operation with this number, in its own form (R110; assumption log 9). -/
theorem encode_of_decodeOperands {p : Params} {n : Nat} {args : Bytes} {i : Instr}
    (h : decodeOperands n args = some i) : wellFormed p i = true ∧ encode p i = ⟨.op, BitVec.ofNat 8 n :: args⟩ := by
  unfold decodeOperands at h
  split at h
  -- `RESET`, `RX_ACK` and `BUS_COMPLETE` have no operands.
  case h_1 | h_4 | h_11 =>
    split at h
    case isTrue hargs => cases h; exact ⟨rfl, by rw [hargs]; rfl⟩
    case isFalse => cases h
  -- `RX_PUSH` and `CLR_STATUS` have as many bytes as operands.
  case h_2 | h_13 =>
    split at h
    case h_1 => cases h; exact ⟨rfl, rfl⟩
    case h_2 => cases h
  -- `RX_CHUNK` and `TX_SEND` take any bytes.
  case h_3 | h_7 => cases h; exact ⟨rfl, rfl⟩
  -- `RX_READ`
  case h_5 =>
    split at h
    case h_2 => cases h
    case h_1 name rest =>
      split at h
      case h_2 => cases h
      case h_1 idx hnum =>
        cases h
        obtain ⟨hcode, hname⟩ := readNameCode_readNameOf name
        refine ⟨hname, ?_⟩
        rw [encode, hcode, takeNum_eq_some hnum, List.append_nil]
        rfl
  -- `TX_ENCODE`
  case h_6 =>
    split at h
    case h_1 dest fid payload haddr => cases h; exact ⟨rfl, by rw [takeAddr_some haddr]; rfl⟩
    case h_2 => cases h
  -- `BUS_REQUEST` and `BUS_EXECUTE`
  case h_8 | h_12 =>
    rw [Option.map_eq_some_iff] at h
    obtain ⟨⟨r, batch, tmo, cfg⟩, hreq, rfl⟩ := h
    exact ⟨rfl, by rw [encode, takeRequest_eq_some hreq]; rfl⟩
  -- `BUS_GRANT`
  case h_9 =>
    split at h
    case h_1 r hnum => cases h; exact ⟨rfl, by rw [encode, takeNum_eq_some hnum, List.append_nil]; rfl⟩
    case h_2 => cases h
  -- `BUS_XFER`
  case h_10 =>
    split at h
    case h_2 => cases h
    case h_1 o =>
      split at h
      case isTrue ho => cases h; exact ⟨rfl, by rw [ho]; rfl⟩
      case isFalse =>
        split at h
        case isTrue ho => cases h; exact ⟨rfl, by rw [ho]; rfl⟩
        case isFalse => cases h
  case h_14 => cases h

/-- All that an accepted operation can be (R110; assumption log 9). -/
theorem decodeOp_eq_ok {p : Params} {bs : Bytes} {i : Instr} (h : decodeOp bs = .ok i) :
    wellFormed p i = true ∧ encode p i = ⟨.op, bs⟩ := by
  unfold decodeOp at h
  split at h
  case h_1 => cases h
  case h_2 n args =>
    split at h
    case isTrue => cases h
    case isFalse =>
      split at h
      case h_1 j hargs =>
        cases h
        obtain ⟨hwf, henc⟩ := encode_of_decodeOperands (p := p) hargs
        exact ⟨hwf, by rw [henc, BitVec.ofNat_toNat, BitVec.setWidth_eq]⟩
      case h_2 => cases h

/-! ## All formats -/

/-- Only the byte handlers' rows have a condition on registers (R110). -/
theorem admits_of_channel_ne_line {i : Instr} (h : RowShape.channel i ≠ .line) (c : DecodeCtx) : admits c i = true := by
  cases i <;> simp only [RowShape.channel, ne_eq, not_true_eq_false, reduceCtorEq, not_false_eq_true] at h <;> rfl

/-- An instruction is encoded on the channel of its row's format (R110). -/
theorem chan_encode (p : Params) (i : Instr) : (encode p i).chan = RowShape.channel i := by
  cases i <;> rfl

/-- Settles O1: the encoding stands on the channel of the row's format, and that format's decoder reads it back. -/
theorem decodeOfEncodeIsTheInstruction : Obligations.DecodeOfEncodeIsTheInstruction := by
  intro c i hok hwf had
  cases hch : RowShape.channel i with
  | line => exact decode_encode_line hch hwf had
  | op => exact decode_encode_op hch hwf
  | rxStream =>
    cases i <;> simp only [RowShape.channel, reduceCtorEq] at hch <;>
      simp only [wellFormed, Bool.and_eq_true, bne_iff_ne, decide_eq_true_eq] at hwf
    case rxFrameData64 src q o payload => exact decodeRxFrame_rxDataFrame hwf src q o
    case rxFrameOther t xs => exact decodeRxFrame_rxOtherFrame hwf.1 hwf.2
  | txStream =>
    cases i <;> simp only [RowShape.channel, reduceCtorEq] at hch
    case txFrame dest fid payload =>
      simp only [wellFormed, Bool.and_eq_true, decide_eq_true_eq] at hwf
      exact decodeTxFrame_encodeFrame hwf.1 hwf.2 dest
  | bus => cases i <;> simp only [RowShape.channel, reduceCtorEq] at hch <;> rfl
  | payload =>
    cases i <;> simp only [RowShape.channel, reduceCtorEq] at hch <;>
      simp only [wellFormed, Bool.and_eq_true, decide_eq_true_eq] at hwf
    case payloadIn ft fl r3 r4 analog digital => exact decodePayload_payloadInBytes hwf.1 hwf.2 ft fl r3 r4
    case payloadOut analog digital => exact decodePayload_payloadOutBytes hok.1 hwf.1 hwf.2

/-- On every channel but the payload's, what the decoder accepts has exactly the bytes of its encoding. -/
theorem isEncodingOf_of_decode {c : DecodeCtx} {w : Code} {i : Instr} (hch : w.chan ≠ .payload)
    (h : decode c w = .ok i) : IsEncodingOf c w i := by
  obtain ⟨chan, bs⟩ := w
  cases chan with
  | line =>
    rcases bs with _ | ⟨b, _ | ⟨b', bs⟩⟩ <;> cases h
    exact isEncodingOf_decodeLine c b
  | rxStream =>
    rcases decodeRxFrame_eq_ok h with ⟨src, q, o, payload, rfl, hlen, rfl⟩ | ⟨t, xs, rfl, ht, hlen, rfl⟩
    · exact ⟨decide_eq_true hlen, rfl, rfl⟩
    · exact ⟨by simp [wellFormed, ht, hlen], rfl, rfl⟩
  | txStream =>
    obtain ⟨dest, fid, payload, rfl, hfid, hlen, rfl⟩ := decodeTxFrame_eq_ok h
    exact ⟨by simp [wellFormed, Config.fidMod, Config.payloadLimit, hfid, hlen], rfl, rfl⟩
  | bus =>
    obtain ⟨g, ⟨rfl, rfl⟩ | ⟨rfl, rfl⟩ | ⟨rfl, rfl⟩⟩ := decodeMotor_eq_ok h <;> exact ⟨rfl, rfl, rfl⟩
  | payload => exact absurd rfl hch
  | op =>
    obtain ⟨hwf, henc⟩ := decodeOp_eq_ok (p := c.params) h
    have hop : RowShape.channel i = .op := by rw [← chan_encode c.params, henc]
    exact ⟨hwf, admits_of_channel_ne_line (by rw [hop]; decide) c, henc⟩

/-- Settles O2: the payload's channel has its own bound on what it accepts, every other channel gives back the bytes. -/
theorem encodeOfDecodeIsTheBytes : Obligations.EncodeOfDecodeIsTheBytes := by
  intro c w i h
  by_cases hch : w.chan = .payload
  · simp only [decode, hch] at h
    obtain ⟨hwf, hpay⟩ := wellFormed_of_decodePayload h
    exact ⟨hwf, admits_of_channel_ne_line (by rw [hpay]; decide) c, fun hne => absurd hch hne⟩
  · obtain ⟨hwf, had, henc⟩ := isEncodingOf_of_decode hch h
    exact ⟨hwf, had, fun _ => henc⟩

end Sys2Proof.Machine
end

section
/-! PROOF. Whole frames on the receive line (`30_encoding.md` section 2, `40_decoder.md` section 4, `41_encoder.md`): a data
frame is accepted, another frame is stepped over, and what the encoder emits is received. -/

namespace Sys2Proof.Machine

/-! ## Which bytes reach the verdict -/

/-- Where no pushed byte is taken in `Checksum`, nothing is accepted (R125). -/
theorem rxRunAccepts_eq_false {bs : Bytes} {s : State}
    (h : ∀ k < bs.length, (rxRun (bs.take k) s).rxState ≠ .checksum) : rxRunAccepts bs s = false := by
  induction bs generalizing s with
  | nil => rfl
  | cons b bs ih =>
    have hb : s.rxState ≠ .checksum := h 0 (Nat.succ_pos _)
    rw [rxRunAccepts, pushAccept_of_ne hb, Bool.false_or]
    exact ih fun k hk => h (k + 1) (Nat.succ_lt_succ hk)

/-- Delimiter and length field: the state after each of them (R126, R127). -/
theorem rxRun_header_rxState {s : State} (hs : s.rxState = .idle) (h l : Byte) (rest : Bytes) {k : Nat} (hk : k < 4) :
    (rxRun ((Config.delim :: h :: l :: rest).take k) s).rxState =
      if k = 0 then .idle else if k = 3 then .type else .length := by
  have : k = 0 ∨ k = 1 ∨ k = 2 ∨ k = 3 := by omega
  obtain rfl | rfl | rfl | rfl := this
  · exact hs
  · simp [rxRun, rxStep, hs, takeIdle, openFrame]
  · simp [rxRun, rxStep, hs, takeIdle, openFrame, takeLength, takeLengthHigh]
  · simp only [List.take_succ_cons, List.take_zero, rxRun_length hs]
    rfl

/-! ## A frame of another type -/

/-- A number of 16 bits is held whole by a 16-bit register (R18). -/
theorem toNat_ofNat_half {n : Nat} (hn : n < 65536) : (BitVec.ofNat 16 n).toNat = n := by
  rw [BitVec.toNat_ofNat, Nat.mod_eq_of_lt hn]

/-- Delimiter, length field and an unwanted type byte leave the decoder with the length to skip (R129). -/
theorem rxRun_otherHeader {s : State} (hs : s.rxState = .idle) {t : Byte} (ht : t ≠ s.params.typeRx64) {n : Nat}
    (hn : n < 65536) : rxRun (Config.delim :: (be16 n ++ [t])) s =
      { s with
        rxState := if n = 0 then .idle else .ignoreUnknown
        rxLen := BitVec.ofNat 16 n
        rxCnt := BitVec.ofNat 16 n
        rxSum := (if s.params.cksumCoversLength then BitVec.ofNat 8 (n / 256) + BitVec.ofNat 8 n else 0) + t
        rxType := t } := by
  have hzero : BitVec.ofNat 16 n = 0#16 ↔ n = 0 := by
    rw [← BitVec.toNat_inj, toNat_ofNat_half hn]
    rfl
  have hb : (t == s.params.typeRx64) = false := beq_eq_false_iff_ne.mpr ht
  rw [be16_cons, show Config.delim :: ([BitVec.ofNat 8 (n / 256), BitVec.ofNat 8 n] ++ [t]) =
    [Config.delim, BitVec.ofNat 8 (n / 256), BitVec.ofNat 8 n] ++ [t] from rfl, rxRun_append, rxRun_length hs,
    unBE16_be16 hn]
  simp [rxRun, rxStep, takeType, State.admitsData, State.tooShort, State.tooLong, hb, skipFrame, State.sumWith, hzero]

theorem rxOtherFrame_eq (t : Byte) (xs : Bytes) :
    rxOtherFrame t xs = (Config.delim :: (be16 xs.length ++ [t])) ++ xs := by
  simp [rxOtherFrame]

theorem length_rxOtherFrame (t : Byte) (xs : Bytes) : (rxOtherFrame t xs).length = xs.length + 4 := by
  simp only [rxOtherFrame, be16_cons, List.length_cons, List.length_append, List.length_nil]
  omega

/-- Pushing a whole unwanted frame: only what the receive line assembles with differs (R146). -/
theorem rxRun_rxOtherFrame {s : State} (hs : s.rxState = .idle) {t : Byte} (ht : t ≠ s.params.typeRx64) {xs : Bytes}
    (hn : xs.length < 65536) : rxRun (rxOtherFrame t xs) s =
      { s with
        rxLen := BitVec.ofNat 16 xs.length, rxCnt := 0, rxSum := (rxRun (rxOtherFrame t xs) s).rxSum, rxType := t } := by
  have hcnt := toNat_ofNat_half hn
  rw [rxOtherFrame_eq, rxRun_append, rxRun_otherHeader hs ht hn]
  by_cases hxs : xs = []
  · subst hxs
    simp [rxRun, hs]
  · have hpos : xs.length ≠ 0 := mt List.eq_nil_of_length_eq_zero hxs
    rw [if_neg hpos, rxRun_ignore xs rfl (by simp only [hcnt, Nat.le_refl]) (by simp only [hcnt]; omega)]
    simp only [hcnt, if_true, Nat.sub_self, hs]
    rfl

/-- Between the first and the last byte of an unwanted frame the decoder is neither in `Idle` nor in `Checksum` (R146). -/
theorem rxRun_take_rxOtherFrame {s : State} (hs : s.rxState = .idle) {t : Byte} (ht : t ≠ s.params.typeRx64) {xs : Bytes}
    (hn : xs.length < 65536) {k : Nat} (hpos : 0 < k) (hk : k < xs.length + 4) :
    (rxRun ((rxOtherFrame t xs).take k) s).rxState ≠ .idle ∧
      (rxRun ((rxOtherFrame t xs).take k) s).rxState ≠ .checksum := by
  by_cases hhead : k < 4
  · have hst := rxRun_header_rxState hs (BitVec.ofNat 8 (xs.length / 256)) (BitVec.ofNat 8 xs.length) (t :: xs) hhead
    rw [show rxOtherFrame t xs = Config.delim :: BitVec.ofNat 8 (xs.length / 256) :: BitVec.ofNat 8 xs.length :: t :: xs
      from rfl, hst, if_neg (Nat.ne_of_gt hpos)]
    split <;> exact ⟨by decide, by decide⟩
  · obtain ⟨j, rfl⟩ : ∃ j, k = 4 + j := ⟨k - 4, by omega⟩
    have hcnt := toNat_ofNat_half hn
    have htake : (xs.take j).length = j := by rw [List.length_take]; omega
    have hxs : xs.length ≠ 0 := by omega
    have hj : xs.length ≠ j := by omega
    rw [rxOtherFrame_eq, show 4 + j = (Config.delim :: (be16 xs.length ++ [t])).length + j from rfl,
      List.take_length_add_append, rxRun_append, rxRun_otherHeader hs ht hn, if_neg hxs,
      rxRun_ignore (xs.take j) rfl (by simp only [hcnt, htake]; omega) (by simp only [hcnt]; omega)]
    simp only [hcnt, htake, if_neg hj]
    exact ⟨by decide, by decide⟩

/-- An unwanted frame, or the beginning of one, is not accepted (R146). -/
theorem rxRunAccepts_take_rxOtherFrame {s : State} (hs : s.rxState = .idle) {t : Byte} (ht : t ≠ s.params.typeRx64)
    {xs : Bytes} (hn : xs.length < 65536) (k : Nat) : rxRunAccepts ((rxOtherFrame t xs).take k) s = false := by
  apply rxRunAccepts_eq_false
  intro j hj
  rw [List.length_take, length_rxOtherFrame, lt_inf_iff] at hj
  rw [List.take_take, Nat.min_eq_left (Nat.le_of_lt hj.1)]
  rcases Nat.eq_zero_or_pos j with rfl | hpos
  · rw [List.take_zero, rxRun, hs]
    decide
  · exact (rxRun_take_rxOtherFrame hs ht hn hpos hj.2).2

theorem rxRunAccepts_rxOtherFrame {s : State} (hs : s.rxState = .idle) {t : Byte} (ht : t ≠ s.params.typeRx64)
    {xs : Bytes} (hn : xs.length < 65536) : rxRunAccepts (rxOtherFrame t xs) s = false := by
  simpa only [List.take_length] using rxRunAccepts_take_rxOtherFrame hs ht hn (rxOtherFrame t xs).length

/-- Settles O34: the header loads the counter with the length, and the skipped bytes count it down to `Idle`. -/
theorem unwantedFrameIsSkipped : Obligations.UnwantedFrameIsSkipped := by
  intro s b xs hs hb hlen
  have hn : xs.length < 65536 := Nat.lt_succ_of_le hlen
  refine ⟨⟨_, rfl, ?_⟩, fun k hk hpos => ⟨_, rfl, ?_, ?_⟩⟩
  · have hrun := rxRun_rxOtherFrame hs hb hn
    rw [chunk, rxRunAccepts_rxOtherFrame hs hb hn]
    exact congrArg (State.answer · (.chunk false)) hrun
  · exact congrArg OpResult.chunk (rxRunAccepts_take_rxOtherFrame hs hb hn k)
  · rw [length_rxOtherFrame] at hk
    exact (rxRun_take_rxOtherFrame hs hb hn hpos hk).1

/-! ## How many bytes of a data frame stand before its checksum -/

/-- A 16-bit counter below its top counts on. -/
theorem toNat_add_one_half {c : Half} (h : c.toNat < 65535) : (c + 1).toNat = c.toNat + 1 := by
  rw [BitVec.toNat_add]
  exact Nat.mod_eq_of_lt (Nat.succ_lt_succ h)

/-- The pin leaves the length of the payload as it is. -/
theorem pinPeer_rxPlen (src : Addr) (s : State) : (pinPeer src s).rxPlen = s.rxPlen := by
  unfold pinPeer
  split <;> rfl

/-- Past the type byte of a data frame, the checksum byte comes after `n` further bytes (R130 to R135). -/
def State.AwaitsVerdict (n : Nat) (s : State) : Prop :=
  match s.rxState with
  | .sourceAddr => s.rxCnt.toNat ≤ 7 ∧ n + s.rxCnt.toNat = s.rxPlen.toNat + 10
  | .quality => n = s.rxPlen.toNat + 2
  | .options => n = s.rxPlen.toNat + 1
  | .payload => s.rxCnt.toNat < s.rxPlen.toNat ∧ n + s.rxCnt.toNat = s.rxPlen.toNat
  | .checksum => n = 0
  | _ => False

theorem State.AwaitsVerdict.rxState_eq_checksum_iff {n : Nat} {s : State} (h : s.AwaitsVerdict n) :
    s.rxState = .checksum ↔ n = 0 := by
  cases hs : s.rxState <;> simp only [State.AwaitsVerdict, hs] at h <;> simp only [reduceCtorEq, true_iff, false_iff] <;>
    omega

/-- Each byte before the checksum byte brings it one byte nearer, whatever the byte is (R130 to R134). -/
theorem State.AwaitsVerdict.rxStep {n : Nat} {s : State} (h : s.AwaitsVerdict (n + 1)) (b : Byte) :
    (rxStep b s).AwaitsVerdict n := by
  cases hs : s.rxState <;> simp only [State.AwaitsVerdict, hs] at h
  case sourceAddr =>
    obtain ⟨hcnt, hn⟩ := h
    simp only [Machine.rxStep, hs, takeSource]
    split
    case isTrue hlast =>
      have hseven : s.rxCnt.toNat = 7 := congrArg BitVec.toNat hlast
      simp only [State.AwaitsVerdict, pinPeer_rxPlen]
      omega
    case isFalse hmore =>
      have hne : s.rxCnt.toNat ≠ 7 := fun e => hmore (BitVec.eq_of_toNat_eq e)
      have hsucc := toNat_add_one_half (c := s.rxCnt) (by omega)
      simp only [State.AwaitsVerdict, hsucc]
      omega
  case quality => simpa [Machine.rxStep, hs, takeQuality, State.AwaitsVerdict] using h
  case options =>
    simp only [Machine.rxStep, hs, takeOptions]
    by_cases hempty : s.rxPlen = 0
    · rw [hempty] at h
      simpa [State.AwaitsVerdict, hempty] using h
    · have hne : s.rxPlen.toNat ≠ 0 := fun e => hempty (BitVec.eq_of_toNat_eq e)
      rw [if_neg hempty]
      simp only [State.AwaitsVerdict, BitVec.ofNat_eq_ofNat, BitVec.toNat_zero]
      omega
  case payload =>
    obtain ⟨hcnt, hn⟩ := h
    have hlt := s.rxPlen.isLt
    simp only [Machine.rxStep, hs, takePayload]
    by_cases hlast : s.rxCnt.toNat + 1 = s.rxPlen.toNat
    · simp only [State.AwaitsVerdict, hlast, if_true]
      omega
    · have hsucc : (s.rxCnt + 1).toNat = s.rxCnt.toNat + 1 := by
        rw [BitVec.toNat_add]
        exact Nat.mod_eq_of_lt (show s.rxCnt.toNat + 1 < 65536 by omega)
      simp only [State.AwaitsVerdict, hlast, if_false, hsucc]
      omega
  case checksum => omega

theorem State.AwaitsVerdict.rxRun {n : Nat} {bs : Bytes} {s : State} (h : s.AwaitsVerdict (n + bs.length)) :
    (rxRun bs s).AwaitsVerdict n := by
  induction bs generalizing s with
  | nil => exact h
  | cons b bs ih => exact ih (State.AwaitsVerdict.rxStep h b)

/-! ## A data frame up to its checksum -/

/-- The bytes of a data frame between its type byte and its checksum (R86). -/
def dataFields (src : Addr) (q o : Byte) (payload : Bytes) : Bytes := addrBytes src ++ q :: o :: payload

/-- Delimiter, length field and type byte of a data frame with `n` payload bytes (R86). -/
def dataHeader (p : Params) (n : Nat) : Bytes := Config.delim :: (be16 (n + 11) ++ [p.typeRx64])

theorem length_dataFields (src : Addr) (q o : Byte) (payload : Bytes) :
    (dataFields src q o payload).length = payload.length + 10 := by
  simp only [dataFields, List.length_append, length_addrBytes, List.length_cons]
  omega

theorem rxDataFrame_eq_parts (p : Params) (src : Addr) (q o : Byte) (payload : Bytes) :
    rxDataFrame p src q o payload = dataHeader p payload.length ++ dataFields src q o payload ++
      [cksum (covered p (rxBody p src q o payload))] := by
  simp [rxDataFrame, frameOf, rxBody, dataHeader, dataFields, Config.hdrLen]

theorem length_rxDataFrame (p : Params) (src : Addr) (q o : Byte) (payload : Bytes) :
    (rxDataFrame p src q o payload).length = payload.length + 15 := by
  rw [rxDataFrame_eq_parts, List.length_append, List.length_append, length_dataFields]
  simp only [dataHeader, be16_cons, List.length_cons, List.length_append, List.length_nil]
  omega

/-- The sum over the covered part of a data frame's body, part by part (R90, R91). -/
theorem sum8_covered_rxBody (p : Params) (src : Addr) (q o : Byte) (payload : Bytes) :
    sum8 (covered p (rxBody p src q o payload)) =
      (if p.cksumCoversLength then
        BitVec.ofNat 8 ((payload.length + 11) / 256) + BitVec.ofNat 8 (payload.length + 11) else 0) +
        p.typeRx64 + sum8 (addrBytes src) + q + o + sum8 payload := by
  cases hc : p.cksumCoversLength <;>
    simp [covered, hc, rxBody, be16, sum8, sum8_append, Config.hdrLen, BitVec.add_assoc]

theorem rxStep_of_admitsData {s : State} {b : Byte} (hs : s.rxState = .type) (h : s.admitsData b = true) :
    rxStep b s = admitFrame b s := by
  simp only [rxStep, hs, takeType, h, if_true]

/-- The header of a data frame within the limits is admitted (R126 to R128). -/
theorem rxRun_dataHeader {s : State} (hs : s.rxState = .idle) {n : Nat} (hn : n ≤ 65524)
    (hmax : n ≤ s.params.rxPayloadMax) : rxRun (dataHeader s.params n) s =
      { s with
        rxState := .sourceAddr
        rxCnt := 0
        rxLen := BitVec.ofNat 16 (n + 11)
        rxSum := (if s.params.cksumCoversLength then
          BitVec.ofNat 8 ((n + 11) / 256) + BitVec.ofNat 8 (n + 11) else 0) + s.params.typeRx64
        rxType := s.params.typeRx64
        rxPlen := BitVec.ofNat 16 n } := by
  have hlt : n + 11 < 65536 := by omega
  have hlen := toNat_ofNat_half hlt
  rw [dataHeader, be16_cons, show ∀ a b t : Byte, Config.delim :: ([a, b] ++ [t]) = [Config.delim, a, b] ++ [t] from
    fun _ _ _ => rfl, rxRun_append, rxRun_length hs, unBE16_be16 hlt, rxRun_cons,
    rxStep_of_admitsData rfl (by simp [State.admitsData, hlen, hmax, Config.hdrLen])]
  simp only [rxRun, admitFrame, State.sumWith, hlen, Config.hdrLen, Nat.add_sub_cancel]

/-- The state in which a data frame's options byte leaves the decoder: the fields before the payload assembled, the source
pinned where no peer was (R130 to R133). -/
def addressed (src : Addr) (q o : Byte) (s : State) : State :=
  { s with
    rxState := if s.rxPlen = 0 then .checksum else .payload
    rxCnt := 0
    rxSum := s.rxSum + sum8 (addrBytes src) + q + o
    rxSrc := src
    rxQuality := q
    rxOptions := o
    peerAddr := if s.peerValid then s.peerAddr else src
    peerValid := true }

theorem rxRun_addressed {s : State} (hs : s.rxState = .sourceAddr) (hc : s.rxCnt = 0) (src : Addr) (q o : Byte) :
    rxRun (addrBytes src ++ [q, o]) s = addressed src q o s := by
  rw [rxRun_append, rxRun_source hs hc]
  rfl

/-- All payload bytes, none or more: they are stored from index 0 on, and the checksum is next (R133, R134). -/
theorem rxRun_wholePayload {s : State} {payload : Bytes} (hlen : s.rxPlen.toNat = payload.length) (src : Addr) (q o : Byte) :
    ∃ m : Memory, rxRun payload (addressed src q o s) = { addressed src q o s with
        rxState := .checksum, rxSum := s.rxSum + sum8 (addrBytes src) + q + o + sum8 payload, rxBuf := m } ∧
      (s.rxBuf.wf → ∀ j, (hj : j < payload.length) → m.read j = payload[j]) := by
  by_cases hempty : s.rxPlen = 0
  · obtain rfl : payload = [] := List.eq_nil_of_length_eq_zero (by rw [← hlen, hempty]; rfl)
    exact ⟨s.rxBuf, by simp [rxRun, addressed, sum8, hempty], fun _ j hj => absurd hj (Nat.not_lt_zero j)⟩
  · have hne : s.rxPlen.toNat ≠ 0 := fun e => hempty (BitVec.eq_of_toNat_eq e)
    have hcnt : (addressed src q o s).rxCnt.toNat = 0 := rfl
    have hplen : (addressed src q o s).rxPlen.toNat = payload.length := hlen
    obtain ⟨m, hrun, hread⟩ := rxRun_payload (s := addressed src q o s) (if_neg hempty) payload
      (by omega) (by omega)
    refine ⟨m, ?_, fun hw j hj => ?_⟩
    · rw [hrun]
      simp only [hcnt, hplen, Nat.zero_add, if_true]
      rfl
    · rw [(hread hw).2 j]
      simp only [hcnt, Nat.sub_zero, Nat.zero_le, true_and, hj, dif_pos]

/-- The state in which a data frame waits for its checksum byte: its fields in the assembly registers, its payload in the
space `m`, its source pinned where no peer was (R128 to R134). -/
def assembled (src : Addr) (q o : Byte) (payload : Bytes) (m : Memory) (s : State) : State :=
  { s with
    rxState := .checksum
    rxLen := BitVec.ofNat 16 (payload.length + 11)
    rxCnt := 0
    rxSum := sum8 (covered s.params (rxBody s.params src q o payload))
    rxType := s.params.typeRx64
    rxPlen := BitVec.ofNat 16 payload.length
    rxSrc := src
    rxQuality := q
    rxOptions := o
    rxBuf := m
    peerAddr := if s.peerValid then s.peerAddr else src
    peerValid := true }

/-- Pushing a data frame up to its checksum assembles it (R126 to R134). -/
theorem rxRun_assembles {s : State} (hs : s.rxState = .idle) {payload : Bytes} (hn : payload.length ≤ 65524)
    (hmax : payload.length ≤ s.params.rxPayloadMax) (src : Addr) (q o : Byte) :
    ∃ m : Memory, rxRun (dataHeader s.params payload.length ++ dataFields src q o payload) s =
        assembled src q o payload m s ∧
      (s.rxBuf.wf → ∀ j, (hj : j < payload.length) → m.read j = payload[j]) := by
  rw [rxRun_append, rxRun_dataHeader hs hn hmax, dataFields,
    show addrBytes src ++ q :: o :: payload = (addrBytes src ++ [q, o]) ++ payload from rfl, rxRun_append,
    rxRun_addressed rfl rfl]
  obtain ⟨m, hrun, hread⟩ := rxRun_wholePayload
    (s := rxRun (dataHeader s.params payload.length) s) (payload := payload)
    (by rw [rxRun_dataHeader hs hn hmax]; exact toNat_ofNat_half (by omega)) src q o
  rw [rxRun_dataHeader hs hn hmax] at hrun hread
  refine ⟨m, hrun.trans ?_, hread⟩
  simp only [assembled, addressed, sum8_covered_rxBody]

/-! ## The verdict on a data frame -/

/-- A byte that matches the running sum is accepted whatever the policy: the frame is committed (R135, R136). -/
theorem rxStep_of_cksumOk {s : State} {b : Byte} (hs : s.rxState = .checksum) (hok : s.cksumOk b = true) :
    rxStep b s = { commit b true { s with rxCk := b } with rxState := .idle, rxCnt := 0 } := by
  simp [rxStep, hs, takeChecksum, hok, State.policy]

theorem cksumOk_assembled (src : Addr) (q o : Byte) (payload : Bytes) (m : Memory) (s : State) :
    (assembled src q o payload m s).cksumOk (cksum (covered s.params (rxBody s.params src q o payload))) = true :=
  beq_self_eq_true _

theorem pushAccept_assembled (src : Addr) (q o : Byte) (payload : Bytes) (m : Memory) (s : State) :
    (assembled src q o payload m s).pushAccept (cksum (covered s.params (rxBody s.params src q o payload))) = true := by
  rw [State.pushAccept, State.policy, cksumOk_assembled]
  rfl

/-- What an accepted data frame leaves: the caller's bit, the committed frame, and the peer (R136, R145). -/
structure DataFrameAccepted (s : State) (src : Addr) (q o : Byte) (payload : Bytes) (t : State) : Prop where
  result : t.result = .chunk true
  idle : t.rxState = .idle
  plen : t.frPlen.toNat = payload.length
  payload : t.frPayload.bytes payload.length = payload
  source : t.frSrc = src
  quality : t.frQuality = q
  options : t.frOptions = o
  ckOk : t.frCkOk = true
  new : t.frNew = true
  valid : t.frValid = true
  pinned : t.peerValid = true
  peer : t.peerAddr = if s.peerValid then s.peerAddr else src
  status : t.codecStatus = s.codecStatus ||| if s.frNew then 0x40 else 0x00

/-- Pushing a whole data frame within the limits in `Idle` (R145). -/
theorem chunk_rxDataFrame {s : State} (hs : s.rxState = .idle) (hbuf : s.rxBuf.wf) (hfr : s.frPayload.wf)
    {payload : Bytes} (hn : payload.length ≤ 65524) (hmax : payload.length ≤ s.params.rxPayloadMax) (src : Addr)
    (q o : Byte) : DataFrameAccepted s src q o payload (chunk (rxDataFrame s.params src q o payload) s) := by
  obtain ⟨m, hrun, hread⟩ := rxRun_assembles hs hn hmax src q o
  have hplen : (BitVec.ofNat 16 payload.length).toNat = payload.length := toNat_ofNat_half (by omega)
  have hstate : rxRun (rxDataFrame s.params src q o payload) s =
      rxStep (cksum (covered s.params (rxBody s.params src q o payload))) (assembled src q o payload m s) := by
    rw [rxDataFrame_eq_parts, rxRun_append, hrun]
    rfl
  have haccepts : rxRunAccepts (rxDataFrame s.params src q o payload) s = true := by
    rw [rxDataFrame_eq_parts, rxRunAccepts_append, hrun, rxRunAccepts, pushAccept_assembled, Bool.true_or, Bool.or_true]
  rw [chunk, hstate, haccepts, rxStep_of_cksumOk rfl (cksumOk_assembled ..)]
  refine ⟨rfl, rfl, hplen, Memory.bytes_eq fun j hj => ?bytes, rfl, rfl, rfl, rfl, rfl, rfl, ?pinned, ?peer, ?status⟩
  case bytes =>
    show (Memory.copy m s.frPayload (BitVec.ofNat 16 payload.length).toNat).read j = payload[j]
    rw [hplen, Memory.read_copy m hfr, if_pos hj, hread hbuf j hj]
  case pinned => simp [commit, assembled]
  case peer => simp [commit, assembled]
  case status => cases hnew : s.frNew <;> simp [commit, assembled, hnew, codecBit]

/-- In a data frame only the last byte is taken in `Checksum` (R145). -/
theorem pushDone_take_rxDataFrame {s : State} (hs : s.rxState = .idle) {payload : Bytes} (hn : payload.length ≤ 65524)
    (hmax : payload.length ≤ s.params.rxPayloadMax) (src : Addr) (q o : Byte) {k : Nat} (hk : k < payload.length + 15) :
    (rxRun ((rxDataFrame s.params src q o payload).take k) s).pushDone = decide (k + 1 = payload.length + 15) := by
  rw [State.pushDone, Bool.eq_iff_iff, beq_iff_eq, decide_eq_true_iff]
  by_cases hhead : k < 4
  · have hst := rxRun_header_rxState hs (BitVec.ofNat 8 ((payload.length + 11) / 256))
      (BitVec.ofNat 8 (payload.length + 11)) (s.params.typeRx64 :: (dataFields src q o payload ++
        [cksum (covered s.params (rxBody s.params src q o payload))])) hhead
    rw [rxDataFrame_eq_parts, dataHeader, be16_cons]
    rw [show ∀ a b t : Byte, ∀ xs ys : Bytes, Config.delim :: ([a, b] ++ [t]) ++ xs ++ ys =
      Config.delim :: a :: b :: t :: (xs ++ ys) from fun _ _ _ _ _ => rfl, hst]
    have : k + 1 ≠ payload.length + 15 := by omega
    simp only [this, iff_false]
    split
    · decide
    · split <;> decide
  · obtain ⟨j, rfl⟩ : ∃ j, k = 4 + j := ⟨k - 4, by omega⟩
    have htake : ((dataFields src q o payload).take j).length = j := by
      rw [List.length_take, length_dataFields]
      omega
    have hverdict : (rxRun ((dataFields src q o payload).take j)
        (rxRun (dataHeader s.params payload.length) s)).AwaitsVerdict (payload.length + 10 - j) := by
      apply State.AwaitsVerdict.rxRun
      rw [rxRun_dataHeader hs hn hmax, htake]
      simp only [State.AwaitsVerdict, toNat_ofNat_half (show payload.length < 65536 by omega)]
      exact ⟨by decide, by simp; omega⟩
    rw [rxDataFrame_eq_parts, List.append_assoc,
      show 4 + j = (dataHeader s.params payload.length).length + j from rfl, List.take_length_add_append,
      List.take_append_of_le_length (by rw [length_dataFields]; omega), rxRun_append,
      hverdict.rxState_eq_checksum_iff]
    show _ ↔ 4 + j + 1 = _
    omega

/-- What each byte of a data frame returns: only the last is done, and it is accepted (R145). -/
theorem pushAccept_take_rxDataFrame {s : State} (hs : s.rxState = .idle) {payload : Bytes} (hn : payload.length ≤ 65524)
    (hmax : payload.length ≤ s.params.rxPayloadMax) (src : Addr) (q o : Byte) {k : Nat}
    (hk : k < (rxDataFrame s.params src q o payload).length) :
    (rxRun ((rxDataFrame s.params src q o payload).take k) s).pushAccept (rxDataFrame s.params src q o payload)[k] =
      decide (k + 1 = payload.length + 15) := by
  have hlen := length_rxDataFrame s.params src q o payload
  by_cases hlast : k + 1 = payload.length + 15
  · obtain ⟨m, hrun, -⟩ := rxRun_assembles hs hn hmax src q o
    have hparts : (dataHeader s.params payload.length ++ dataFields src q o payload).length = k := by
      have := congrArg List.length (rxDataFrame_eq_parts s.params src q o payload)
      rw [List.length_append, hlen] at this
      exact Nat.succ.inj (this.symm.trans hlast.symm)
    rw [decide_eq_true hlast]
    simp only [rxDataFrame_eq_parts, List.take_left' hparts, hrun, List.getElem_concat_length hparts.symm]
    exact pushAccept_assembled ..
  · rw [State.pushAccept, pushDone_take_rxDataFrame hs hn hmax src q o (hlen ▸ hk), decide_eq_false hlast, Bool.false_and]

/-- Settles O33: the frame is assembled byte by byte, and its checksum byte completes the sum. -/
theorem wellFormedDataFrameIsAccepted : Obligations.WellFormedDataFrameIsAccepted := by
  intro s src q o payload hs hbuf hfr hmax hlimit
  have hn : payload.length ≤ 65524 := hmax.trans hlimit
  refine ⟨⟨_, rfl, ?_⟩, fun k hk => ⟨_, _, rfl, rfl, ?_⟩⟩
  · have h := chunk_rxDataFrame hs hbuf hfr hn hmax src q o
    exact ⟨h.result, h.idle, h.plen, h.payload, h.source, h.quality, h.options, h.ckOk, h.new, h.valid, h.pinned, h.peer,
      h.status⟩
  · have hdone := pushDone_take_rxDataFrame hs hn hmax src q o (length_rxDataFrame s.params src q o payload ▸ hk)
    have haccept := pushAccept_take_rxDataFrame hs hn hmax src q o hk
    rw [length_rxDataFrame]
    exact congrArg₂ OpResult.push hdone haccept

/-! ## From the encoder to the decoder -/

/-- The link puts exactly the transmit frame's payload into the data frame (R113). -/
theorem link_encodeFrame (p : Params) (dest src : Addr) (fid q o : Byte) (payload : Bytes) :
    link p (encodeFrame p dest fid payload) src q o = rxDataFrame p src q o payload := by
  simp [link, encodeFrame_eq, addrBytes]

/-- A transmit frame whose first reserved byte is the data frame's type byte is a data frame, its fields read one byte
earlier (R86, R87). -/
theorem encodeFrame_eq_rxDataFrame {p : Params} (h : p.txRsvdA = p.typeRx64) (dest : Addr) (fid : Byte)
    (payload : Bytes) : encodeFrame p dest fid payload =
      rxDataFrame p ⟨fid, dest.b0, dest.b1, dest.b2, dest.b3, dest.b4, dest.b5, dest.b6⟩ dest.b7 p.txRsvdB payload := by
  simp [encodeFrame, rxDataFrame, txBody, rxBody, addrBytes, h]

/-- The bytes of a transmit frame after its first reserved byte (R87). -/
def txFields (p : Params) (dest : Addr) (fid : Byte) (payload : Bytes) : Bytes :=
  fid :: (addrBytes dest ++ p.txRsvdB :: (payload ++ [cksum (covered p (txBody p dest fid payload))]))

theorem length_txFields (p : Params) (dest : Addr) (fid : Byte) (payload : Bytes) :
    (txFields p dest fid payload).length = payload.length + 11 := by
  simp only [txFields, List.length_cons, List.length_append, length_addrBytes, List.length_nil]
  omega

/-- Any transmit frame is, by its bytes, a frame of the type its first reserved byte gives (R87, R88). -/
theorem encodeFrame_eq_rxOtherFrame (p : Params) (dest : Addr) (fid : Byte) (payload : Bytes) :
    encodeFrame p dest fid payload = rxOtherFrame p.txRsvdA (txFields p dest fid payload) := by
  rw [rxOtherFrame, length_txFields]
  simp [encodeFrame, frameOf, txBody, txFields, Config.hdrLen]

/-- Settles O35: the link gives a data frame, and the transmit frame itself is one or is a frame of another type. -/
theorem roundTripThroughTheLink : Obligations.RoundTripThroughTheLink := by
  intro s dest src fid q o payload hs hok hbuf hfr hfid hlen
  obtain ⟨-, hlimit, -⟩ := hok
  have hmax : payload.length ≤ s.params.rxPayloadMax := hlen.trans (Nat.min_le_right _ _)
  have hn : payload.length ≤ 65524 := hmax.trans hlimit
  refine ⟨⟨_, rfl, ?_⟩, _, rfl, fun htype => ?_, fun htype => ?_⟩
  · rw [link_encodeFrame]
    have h := chunk_rxDataFrame hs hbuf hfr hn hmax src q o
    exact ⟨h.result, h.plen, h.payload⟩
  · rw [encodeFrame_eq_rxDataFrame htype]
    have h := chunk_rxDataFrame hs hbuf hfr hn hmax
      ⟨fid, dest.b0, dest.b1, dest.b2, dest.b3, dest.b4, dest.b5, dest.b6⟩ dest.b7 s.params.txRsvdB
    exact ⟨h.result, h.plen, h.payload, h.source, h.quality, h.options⟩
  · rw [encodeFrame_eq_rxOtherFrame]
    have hbytes : (txFields s.params dest fid payload).length < 65536 := by
      rw [length_txFields]
      omega
    have hrun := rxRun_rxOtherFrame hs htype hbytes
    exact ⟨congrArg OpResult.chunk (rxRunAccepts_rxOtherFrame hs htype hbytes), (congrArg State.frPayload hrun :)⟩

end Sys2Proof.Machine
end

section
/-! PROOF. The receive decoder (`40_decoder.md`): what each handler row does where it is selected, the pushes that
select it, and the host's reads. -/

namespace Sys2Proof.Machine

/-! ## Which row a byte selects -/

section

variable {c : DecodeCtx} {b : Byte}

theorem decodeLine_idle_delim (hs : c.rxState = .idle) : decodeLine c Config.delim = .rxIdleDelim := by
  simp only [decodeLine, hs, if_true]

theorem decodeLine_idle_of_ne (hs : c.rxState = .idle) (hb : b ≠ Config.delim) : decodeLine c b = .rxIdleOther b := by
  simp only [decodeLine, hs, if_neg hb]

theorem decodeLine_type_of_ne (hs : c.rxState = .type) (hb : b ≠ c.params.typeRx64) :
    decodeLine c b = .rxTypeOther b := by simp only [decodeLine, hs, if_neg hb]

theorem decodeLine_type_short (hs : c.rxState = .type) (hb : b = c.params.typeRx64)
    (hshort : c.rxLen.toNat < Config.hdrLen) : decodeLine c b = .rxTypeData64Short b := by
  simp only [decodeLine, hs, if_pos hb, if_pos hshort]

theorem decodeLine_type_oversize (hs : c.rxState = .type) (hb : b = c.params.typeRx64)
    (hmin : Config.hdrLen ≤ c.rxLen.toNat) (hlong : c.params.rxPayloadMax < c.rxLen.toNat - Config.hdrLen) :
    decodeLine c b = .rxTypeData64Oversize b := by
  simp only [decodeLine, hs, if_pos hb, if_neg (Nat.not_lt.mpr hmin), if_pos hlong]

theorem decodeLine_type_admitted (hs : c.rxState = .type) (hb : b = c.params.typeRx64)
    (hmin : Config.hdrLen ≤ c.rxLen.toNat) (hmax : c.rxLen.toNat - Config.hdrLen ≤ c.params.rxPayloadMax) :
    decodeLine c b = .rxTypeData64 b := by
  simp only [decodeLine, hs, if_pos hb, if_neg (Nat.not_lt.mpr hmin), if_neg (Nat.not_lt.mpr hmax)]

theorem decodeLine_sourceAddr (hs : c.rxState = .sourceAddr) : decodeLine c b = .rxSrc b := by
  simp only [decodeLine, hs]

theorem decodeLine_quality (hs : c.rxState = .quality) : decodeLine c b = .rxQual b := by simp only [decodeLine, hs]

theorem decodeLine_options (hs : c.rxState = .options) : decodeLine c b = .rxOpt b := by simp only [decodeLine, hs]

theorem decodeLine_payload (hs : c.rxState = .payload) : decodeLine c b = .rxPayload b := by simp only [decodeLine, hs]

theorem decodeLine_checksum (hs : c.rxState = .checksum) : decodeLine c b = .rxCksum b := by simp only [decodeLine, hs]

theorem decodeLine_ignoreUnknown (hs : c.rxState = .ignoreUnknown) : decodeLine c b = .rxIgnore b := by
  simp only [decodeLine, hs]

end

/-! ## The selected row -/

/-- An instruction whose encoding is one byte of the receive line is the step of the handler row with that byte. -/
theorem exec_of_encode_line {p : Params} {row : Instr} {b : Byte} (h : encode p row = ⟨.line, [b]⟩) (s : State) :
    exec row s = .next (rowStep row b (handlerEffect row s) s) := by
  cases row <;> cases h <;> rfl

/-- The row that a byte selects does what its handler does and returns the push's two bits (R125). -/
theorem exec_of_selected {s : State} {row : Instr} {b : Byte} (h : decodeLine s.ctx b = row) :
    exec row s = .next ((handlerEffect row s).answer (.push s.pushDone (s.pushAccept b))) := by
  have henc : encode s.params row = ⟨.line, [b]⟩ := h ▸ (isEncodingOf_decodeLine s.ctx b).encode
  rw [exec_of_encode_line henc, rowStep_of_selected h]

/-- Outside `Checksum` a push returns (0,0) (R125). -/
theorem push_bits_of_ne {s : State} (hs : s.rxState ≠ .checksum) (b : Byte) :
    OpResult.push s.pushDone (s.pushAccept b) = .push false false := by
  rw [pushAccept_of_ne hs, State.pushDone, beq_eq_false_iff_ne.mpr hs]

/-- The row that a byte selects outside `Checksum` does what its handler does and returns (0,0) (R125). -/
theorem exec_of_selected_of_ne {s : State} {st : RxState} {row : Instr} {b : Byte} (hs : s.rxState = st)
    (hrow : decodeLine s.ctx b = row) (hne : st ≠ .checksum := by decide) :
    exec row s = .next ((handlerEffect row s).answer (.push false false)) := by
  rw [exec_of_selected hrow, push_bits_of_ne (hs ▸ hne)]

/-- Settles O27: a push is the effect of the row its byte selects, and so is that row. -/
theorem pushExecutesTheSelectedHandler : Obligations.PushExecutesTheSelectedHandler := by
  intro s b
  refine ⟨(rxStep b s).answer (.push s.pushDone (s.pushAccept b)), rfl, ?_, fun hs => push_bits_of_ne hs b⟩
  rw [exec_of_selected rfl, rxStep_eq_handlerEffect]

/-! ## Chunks -/

/-- A chunk is its first push and then the chunk of the rest, whatever the push returned, with the OR of their `accept`
bits (R138). -/
theorem chunk_cons (b : Byte) (bs : Bytes) (s : State) (r : OpResult) :
    chunk (b :: bs) s = (chunk bs ((rxStep b s).answer r)).answer
      (.chunk (s.pushAccept b || rxRunAccepts bs ((rxStep b s).answer r))) := by
  simp only [chunk, rxRun, rxRunAccepts, rxRun_answer, rxRunAccepts_answer, State.answer_answer]

/-- Settles O28: the chunk's two clauses are those of its run of pushes. -/
theorem chunkIsItsPushesInOrder : Obligations.ChunkIsItsPushesInOrder :=
  ⟨fun _ => rfl, fun s b bs =>
    ⟨_, _, _, _, _, rfl, rfl, rfl, rfl, congrArg Host.Outcome.next (chunk_cons b bs s _)⟩⟩

/-! ## States `Idle` and `Length` -/

/-- Settles O17: the delimiter selects the opening row, any other byte the discarding one. -/
theorem idleOpensOrDiscards : Obligations.IdleOpensOrDiscards := by
  intro s hs
  exact ⟨exec_of_selected_of_ne hs (decodeLine_idle_delim hs),
    fun b hb => exec_of_selected_of_ne hs (decodeLine_idle_of_ne hs hb)⟩

/-- Settles O18: the counter selects the row of the high or of the low byte, and neither is a verdict. -/
theorem lengthTakesTwoBytes : Obligations.LengthTakesTwoBytes := by
  intro s b hs
  have hbits := push_bits_of_ne (s := s) (by rw [hs]; decide) b
  refine ⟨fun hc => ?_, fun hc => ?_⟩
  · rw [exec_rxLenHi hs hc, hbits]
    rfl
  · rw [exec_rxLenLo hs (by rw [hc]; decide), hbits]
    rfl

/-! ## State `Type` -/

/-- A cause of the codec sets its bit of `codec_status` and leaves `bus_status` (R266, R267). -/
theorem raise_of_busBit {c : Cause} (hc : busBit c = 0) (s : State) :
    s.raise c = { s with codecStatus := s.codecStatus ||| codecBit c, raised := s.raised ++ [c] } := by
  have hbus : s.busStatus ||| busBit c = s.busStatus := by rw [hc]; exact BitVec.or_zero
  rw [State.raise, hbus]

/-- Settles O20: the type byte and the two length conditions select the admitting row. -/
theorem typeAdmitsDataFrame : Obligations.TypeAdmitsDataFrame := by
  intro s hs hmin hmax
  have hplen : BitVec.ofNat 16 (s.rxLen.toNat - Config.hdrLen) = s.rxLen - 11 := by
    rw [Config.hdrLen]
    bv_omega
  have hrow : decodeLine s.ctx s.params.typeRx64 = .rxTypeData64 s.params.typeRx64 :=
    decodeLine_type_admitted hs rfl hmin hmax
  rw [exec_of_selected_of_ne hs hrow, handlerEffect, admitFrame, hplen]
  rfl

/-- Settles O21: each of the three conditions selects its row; the rows differ in what they raise before the skip. -/
theorem typeSkipsOtherFrames : Obligations.TypeSkipsOtherFrames := by
  intro s b hs skipped
  refine ⟨fun hb => ?other, fun hb hshort => ?short, fun hb hmin hlong => ?oversize⟩
  case other => exact exec_of_selected_of_ne hs (decodeLine_type_of_ne hs hb)
  case short =>
    rw [exec_of_selected_of_ne hs (decodeLine_type_short hs hb hshort), handlerEffect, raise_of_busBit rfl]
    rfl
  case oversize =>
    rw [exec_of_selected_of_ne hs (decodeLine_type_oversize hs hb hmin hlong), handlerEffect, raise_of_busBit rfl]
    rfl

/-! ## States `SourceAddr`, `Quality` and `Options` -/

/-- An address byte before the eighth is stored and counted (R130). -/
theorem takeSource_of_ne {s : State} (hc : s.rxCnt ≠ 7) (a : Byte) :
    takeSource a s = { s with
      rxSum := s.sumWith a, rxSrc := addrSet s.rxSrc s.rxCnt.toNat a, rxCnt := s.rxCnt + 1 } := if_neg hc

/-- The pin as two register values (R131). -/
theorem pinPeer_eq (src : Addr) (s : State) :
    pinPeer src s = { s with peerAddr := if s.peerValid then s.peerAddr else src, peerValid := true } := by
  cases h : s.peerValid
  · simp only [pinPeer, h, Bool.false_eq_true, if_false]
  · rw [pinPeer, h, if_pos rfl, if_pos rfl, ← h]

/-- The eighth address byte completes the address and pins it (R130, R131). -/
theorem takeSource_last {s : State} (hc : s.rxCnt = 7) (a : Byte) :
    takeSource a s = { pinPeer { s.rxSrc with b7 := a } { s with
        rxSum := s.sumWith a, rxSrc := { s.rxSrc with b7 := a } } with rxCnt := 0, rxState := .quality } := by
  have hset : addrSet s.rxSrc s.rxCnt.toNat a = { s.rxSrc with b7 := a } := by rw [hc]; rfl
  simp only [takeSource, hset, if_pos hc]

/-- Settles O22: an address byte is written at the counter; the eighth, at index 7, goes through the pin. -/
theorem sourceAddressIsStoredAndPinned : Obligations.SourceAddressIsStoredAndPinned := by
  intro s a hs
  rw [exec_of_selected_of_ne hs (decodeLine_sourceAddr hs), handlerEffect]
  refine ⟨fun hc => ?_, fun hc => ?_⟩
  · have hne : s.rxCnt ≠ 7 := fun h => absurd hc (by rw [h]; decide)
    have hget (j : Nat) := addrGet_addrSet s.rxSrc s.rxCnt.toNat j a (by omega)
    rw [takeSource_of_ne hne]
    exact ⟨_, rfl, rfl, (hget _).trans (if_pos rfl), fun j hj => (hget j).trans (if_neg hj)⟩
  · rw [takeSource_last hc, pinPeer_eq]
    rfl

/-- Settles O23: in either state every byte selects the state's one row. -/
theorem qualityAndOptionsAreStored : Obligations.QualityAndOptionsAreStored := by
  intro s b
  exact ⟨fun hs => exec_of_selected_of_ne hs (decodeLine_quality hs),
    fun hs => exec_of_selected_of_ne hs (decodeLine_options hs)⟩

/-! ## States `Payload` and `IgnoreUnknown` -/

/-- Settles O24: the byte is a write to `RXA` at the counter. -/
theorem payloadByteIsStored : Obligations.PayloadByteIsStored := by
  intro s b hs _ hwf
  have hread (j : Nat) := Memory.read_write hwf s.rxCnt.toNat j b
  exact ⟨_, exec_of_selected_of_ne hs (decodeLine_payload hs), rfl, (hread _).trans (if_pos rfl),
    fun j hj => (hread j).trans (if_neg hj), Memory.write_wf hwf _ b⟩

/-- Settles O26: every byte selects the ignoring row, which only counts. -/
theorem ignoredBytesAreCounted : Obligations.IgnoredBytesAreCounted := by
  intro s x hs _
  rw [exec_of_selected_of_ne hs (decodeLine_ignoreUnknown hs), handlerEffect, takeIgnored]
  split <;> rfl

/-! ## State `Checksum` -/

theorem cksumOk_eq_decide (s : State) (c : Byte) : s.cksumOk c = decide (c = 0xFF - s.rxSum) := beq_eq_decide ..

/-- In `Checksum` the row's result is its verdict under the policy (R135). -/
theorem exec_rxCksum {s : State} (hs : s.rxState = .checksum) (c : Byte) :
    exec (.rxCksum c) s = .next ((takeChecksum c s).answer (.push true (s.policy (s.cksumOk c)))) := by
  have hdone : s.pushDone = true := beq_iff_eq.mpr hs
  rw [exec_of_selected (decodeLine_checksum hs), State.pushAccept, hdone, Bool.true_and]
  rfl

/-- A byte the policy rejects raises `E_CKSUM` and commits nothing (R135). -/
theorem takeChecksum_of_rejected {s : State} {c : Byte} (hok : s.cksumOk c = false) (hpol : s.policy false = false) :
    takeChecksum c s = { ({ s with rxCk := c } : State).raise .eCksum with rxState := .idle, rxCnt := 0 } := by
  simp only [takeChecksum, hok, hpol, Bool.false_eq_true, if_false]
  rfl

/-- A byte the policy accepts commits the frame, after `E_CKSUM` where it does not match (R135, R136). -/
theorem takeChecksum_of_accepted {s : State} {c : Byte} (hpol : s.policy (s.cksumOk c) = true) :
    takeChecksum c s = { commit c (s.cksumOk c) (({ s with rxCk := c } : State).raiseIf (!s.cksumOk c) .eCksum) with
      rxState := .idle, rxCnt := 0 } := by
  simp only [takeChecksum, hpol, if_true]

/-- A conditional raise of a codec cause as two register values (R266, R267). -/
theorem raiseIf_of_busBit {c : Cause} (hc : busBit c = 0) (s : State) (p : Bool) :
    s.raiseIf p c = { s with
      codecStatus := s.codecStatus ||| (if p then codecBit c else 0x00)
      raised := s.raised ++ (if p then [c] else []) } := by
  cases p
  · simp [State.raiseIf]
  · exact raise_of_busBit hc s

/-- Settles O25: the verdict under the policy decides between the rejecting and the committing handler. -/
theorem checksumDecidesAndCommits : Obligations.ChecksumDecidesAndCommits := by
  intro s c hs hwf
  have hverdict := cksumOk_eq_decide s c
  refine ⟨fun hbad henforce => ?_, fun haccepted => ?_⟩
  · have hok : s.cksumOk c = false := hverdict.trans (decide_eq_false hbad)
    have hpol : s.policy false = false := by simp only [State.policy, henforce]; rfl
    rw [exec_rxCksum hs, takeChecksum_of_rejected hok hpol, hok, hpol, raise_of_busBit rfl]
    rfl
  · have hpol : s.policy (s.cksumOk c) = true := by
      simpa only [State.policy, hverdict, Bool.or_eq_true, decide_eq_true_eq, Bool.not_eq_true'] using haccepted
    refine ⟨_, exec_rxCksum hs c, ?_, fun j => ?_⟩
    · rw [takeChecksum_of_accepted hpol, hpol, commit, raiseIf_of_busBit rfl, raiseIf_of_busBit rfl, hverdict]
      by_cases hc : c = 0xFF - s.rxSum <;> simp [hc, State.answer, State.srcIsPeer, codecBit, beq_eq_decide]
    · rw [takeChecksum_of_accepted hpol, raiseIf_of_busBit rfl]
      exact Memory.read_copy s.rxBuf hwf s.rxPlen.toNat j

/-! ## `RX_ACK` and `RX_READ` -/

/-- Settles O30: that is the operation's meaning. -/
theorem ackClearsFrNewOnly : Obligations.AckClearsFrNewOnly := fun _ => rfl

/-- A read of a register with a known value returns it and changes no register (R140). -/
theorem exec_rxRead_of_known {s : State} {i v : Nat} {n : ReadName} (h : s.readAnswer i n = .known v) :
    exec (.rxRead n i) s = .next { s with result := .value v } :=
  congrArg (fun a => Host.Outcome.next (readInto a s)) h

/-- A read of a register that does not exist is refused (R140). -/
theorem exec_rxRead_of_noSuch {s : State} {i : Nat} {n : ReadName} (h : s.readAnswer i n = .noSuch) :
    exec (.rxRead n i) s = .next { s with result := .refused none } :=
  congrArg (fun a => Host.Outcome.next (readInto a s)) h

/-- A read of an unspecified byte returns some byte and draws it (R296, U10). -/
theorem exec_rxRead_of_anyByte {s : State} {i : Nat} {n : ReadName} (h : s.readAnswer i n = .anyByte) :
    ∃ v, v < 256 ∧ exec (.rxRead n i) s = .next { s with draws := s.draws + 1, result := .value v } :=
  ⟨_, (Config.unspecifiedByte s.draws).isLt, congrArg (fun a => Host.Outcome.next (readInto a s)) h⟩

/-- While a frame is held its data registers have known values (R296). -/
theorem frByte_of_valid {s : State} (hv : s.frValid = true) (b : Byte) : s.frByte b = .known b.toNat := if_pos hv

/-- The result registers are those of the requesters below `N_REQ` (R140). -/
theorem reqAnswer_of_lt {s : State} {r : Nat} (hr : r < s.params.nReq) (v : Nat) : s.reqAnswer r v = .known v :=
  if_pos hr

theorem reqAnswer_of_le {s : State} {r : Nat} (hr : s.params.nReq ≤ r) (v : Nat) : s.reqAnswer r v = .noSuch :=
  if_neg (Nat.not_lt.mpr hr)

/-- The payload buffer has `RX_PAYLOAD_MAX` indices (R140). -/
theorem readAnswer_frPayload_of_le {s : State} {i : Nat} (hi : s.params.rxPayloadMax ≤ i) :
    s.readAnswer i .frPayload = .noSuch := if_pos hi

/-- Past the frame's length the buffer's bytes are unspecified (R296). -/
theorem readAnswer_frPayload_past {s : State} {i : Nat} (hi : i < s.params.rxPayloadMax) (hlen : s.frPlen.toNat ≤ i) :
    s.readAnswer i .frPayload = .anyByte := by
  simp only [State.readAnswer, if_neg (Nat.not_le.mpr hi), if_pos hlen]

/-- Within the frame's length the buffer's bytes are the frame's (R140). -/
theorem readAnswer_frPayload_within {s : State} {i : Nat} (hi : i < s.params.rxPayloadMax) (hlen : i < s.frPlen.toNat) :
    s.readAnswer i .frPayload = s.frByte (s.frPayload.read i) := by
  simp only [State.readAnswer, if_neg (Nat.not_le.mpr hi), if_neg (Nat.not_le.mpr hlen)]

theorem readAnswer_frSrc_of_lt {s : State} {i : Nat} (hi : i < 8) :
    s.readAnswer i .frSrc = s.frByte (addrGet s.frSrc i) := if_neg (Nat.not_le.mpr hi)

theorem readAnswer_peerAddr_of_lt {s : State} {i : Nat} (hi : i < 8) :
    s.readAnswer i .peerAddr = .known (addrGet s.peerAddr i).toNat := if_neg (Nat.not_le.mpr hi)

/-- Settles O31: the names without a condition first, then each range of the index. -/
theorem readReturnsTheNamedRegister : Obligations.ReadReturnsTheNamedRegister := by
  intro s i gives refused
  refine ⟨rfl, rfl, rfl, rfl, rfl, rfl, rfl, rfl, rfl, fun hv => ?held,
    fun hi hlen => exec_rxRead_of_anyByte (readAnswer_frPayload_past hi hlen),
    fun hi => exec_rxRead_of_noSuch (readAnswer_frPayload_of_le hi),
    fun hi => exec_rxRead_of_known (readAnswer_peerAddr_of_lt hi),
    fun hi => ⟨exec_rxRead_of_noSuch (if_pos hi), exec_rxRead_of_noSuch (if_pos hi)⟩,
    fun hr => ?requester, fun hr => ?noRequester, fun _ => rfl⟩
  case held =>
    have hbyte (b : Byte) := frByte_of_valid hv b
    exact ⟨exec_rxRead_of_known (if_pos hv), exec_rxRead_of_known (hbyte _), exec_rxRead_of_known (hbyte _),
      exec_rxRead_of_known (hbyte _),
      fun hi => exec_rxRead_of_known ((readAnswer_frSrc_of_lt hi).trans (hbyte _)),
      fun hi hlen => exec_rxRead_of_known ((readAnswer_frPayload_within hi hlen).trans (hbyte _))⟩
  case requester =>
    have hknown (v : Nat) := reqAnswer_of_lt hr v
    exact ⟨exec_rxRead_of_known (hknown _), exec_rxRead_of_known (hknown _), exec_rxRead_of_known (hknown _)⟩
  case noRequester =>
    have hnone (v : Nat) := reqAnswer_of_le hr v
    exact ⟨exec_rxRead_of_noSuch (hnone (s.req i).done.toNat), exec_rxRead_of_noSuch (hnone (s.req i).ok.toNat),
      exec_rxRead_of_noSuch (hnone (s.req i).nDone)⟩

end Sys2Proof.Machine
end

section
/-! PROOF. The transmit encoder (`41_encoder.md`): the encoded frame byte by byte, its two operations in every case,
and the frame ids of successive sends. -/

namespace Sys2Proof.Machine

/-! ## The encoded frame -/

/-- Offsets 1 to 13+P of a transmit frame (R87). -/
theorem length_txBody (p : Params) (dest : Addr) (fid : Byte) (payload : Bytes) :
    (txBody p dest fid payload).length = payload.length + 13 := by
  simp only [txBody, List.length_append, length_be16, length_addrBytes, List.length_cons, List.length_nil]
  omega

theorem length_frameOf (p : Params) (body : Bytes) : (frameOf p body).length = body.length + 2 := by
  simp only [frameOf, List.length_cons, List.length_append, List.length_nil]

/-- A frame ends with the checksum of its covered part (R91). -/
theorem frameOf_getElem?_last (p : Params) (body : Bytes) :
    (frameOf p body)[body.length + 1]? = some (cksum (covered p body)) := by
  simp only [frameOf, List.getElem?_cons_succ, List.getElem?_concat_length]

/-- The covered part stands in the frame before the checksum, from offset 1 where the length bytes are covered and from
offset 3 where they are not (R91). -/
theorem frameOf_covered (p : Params) {body : Bytes} (h : 2 ≤ body.length) :
    ((frameOf p body).drop (if p.cksumCoversLength then 1 else 3)).take
      (body.length + 1 - (if p.cksumCoversLength then 1 else 3)) = covered p body := by
  cases hc : p.cksumCoversLength <;> simp only [covered, hc, frameOf, if_true, Bool.false_eq_true, if_false,
    List.drop_succ_cons, List.drop_zero, Nat.add_sub_cancel]
  case true => exact List.take_left
  case false =>
    rw [List.drop_append_of_le_length h, show body.length + 1 - 3 = (body.drop 2).length by simp]
    exact List.take_left

/-- Settles O36: the bytes before the payload stand at fixed offsets; the checksum is that of any frame with a body. -/
theorem encodedFrameHasItsLayout : Obligations.EncodedFrameHasItsLayout := by
  intro p dest fid payload hlen f n
  have hbody : n = (txBody p dest fid payload).length + 2 := by rw [length_txBody]
  refine ⟨?length, rfl, ⟨_, _, rfl, rfl, ?lengthField⟩, rfl, rfl, rfl, rfl, ?payloadBytes, ?checksum⟩
  case length => exact (length_frameOf p _).trans hbody.symm
  case lengthField => exact unBE16_be16 (by omega : payload.length + 11 < 65536)
  case payloadBytes => exact List.take_left (l₁ := payload)
  case checksum =>
    have hlast : n - 1 = (txBody p dest fid payload).length + 1 := by rw [hbody]; rfl
    rw [hlast]
    exact (frameOf_getElem?_last p _).trans
      (congrArg (fun xs => some (cksum xs)) (frameOf_covered p (by rw [length_txBody]; omega)).symm)

/-! ## The two encoder operations -/

/-- An operation that ends in a refusal by a cause of the codec writes what the refusal writes (R159). -/
theorem next_of_eq_refuse {s t : State} {c : Cause} (h : t = s.refuse c) (hc : busBit c = 0) :
    Host.Outcome.next (φ := Fault) (ρ := Refusal) t = .next { s with
      codecStatus := s.codecStatus ||| codecBit c, raised := s.raised ++ [c], result := .refused (some c) } :=
  congrArg _ (h.trans (refuse_frame hc s))

/-- Settles O38, test by test. -/
theorem encodeEmitsOrRefuses : Obligations.EncodeEmitsOrRefuses := by
  intro s dest fid payload f refused
  refine ⟨fun hfid => ?illegalId, fun hfid hlen => ?tooLong, fun hfid hlen => ?emitted⟩
  case illegalId => exact next_of_eq_refuse (encodeTo_of_fid_illegal hfid dest payload s) rfl
  case tooLong => exact next_of_eq_refuse (encodeTo_of_too_long hfid hlen dest) rfl
  case emitted => exact congrArg _ (encodeTo_of_legal hfid hlen dest)

/-- Settles O39, test by test. -/
theorem sendEmitsOrRefuses : Obligations.SendEmitsOrRefuses := by
  intro s payload f refused
  refine ⟨fun hpeer => ?noPeer, fun hpeer hlen => ?tooLong, fun hpeer hlen => ?emitted⟩
  case noPeer => exact next_of_eq_refuse (sendToPeer_of_no_peer hpeer payload) rfl
  case tooLong => exact next_of_eq_refuse (sendToPeer_of_too_long hpeer hlen) rfl
  case emitted => exact congrArg _ (sendToPeer_of_legal hpeer hlen)

/-! ## Successive sends -/

/-- The frames of successive sends whose first carries id `f`, the `k`-th the id `(f + k) mod 127` (R158). -/
def sentFrames (p : Params) (dest : Addr) (f : Nat) (ps : List Bytes) : Bytes :=
  ps.zipIdx.flatMap fun (q, k) => encodeFrame p dest (BitVec.ofNat 8 ((f + k) % 127)) q

/-- The first frame carries `f`, and the others are sent from the next id (R158). -/
theorem sentFrames_cons {f : Nat} (hf : f < 127) (p : Params) (dest : Addr) (q : Bytes) (qs : List Bytes) :
    sentFrames p dest f (q :: qs) =
      encodeFrame p dest (BitVec.ofNat 8 f) q ++ sentFrames p dest ((f + 1) % 127) qs := by
  have hid (k : Nat) : ((f + 1) % 127 + k) % 127 = (f + (k + 1)) % 127 := by omega
  simp only [sentFrames, List.zipIdx_cons, List.zipIdx_succ, List.flatMap_cons, List.flatMap_map, Nat.add_zero,
    Nat.mod_eq_of_lt hf, hid]

theorem runInstrs_cons_of_next {i : Instr} {s t : State} (h : exec i s = .next t) (is : List Instr) :
    runInstrs (i :: is) s = runInstrs is t := by
  simp only [runInstrs, h]

/-- What a legal send leaves for the next one: limits and peer unchanged, the next id, the frame on `tx_out` (R157). -/
theorem exec_txSend_of_legal {s : State} {payload : Bytes} (hpeer : s.peerValid = true)
    (hlen : payload.length ≤ s.params.txPayloadMax) : ∃ t : State, exec (.txSend payload) s = .next t ∧
      t.params = s.params ∧ t.peerValid = true ∧ t.peerAddr = s.peerAddr ∧
      t.txFid.toNat = (s.txFid.toNat + 1) % 127 ∧
      t.txOut = s.txOut ++ encodeFrame s.params s.peerAddr (BitVec.ofNat 8 s.txFid.toNat) payload := by
  obtain ⟨-, -, hemits⟩ := sendEmitsOrRefuses s payload
  refine ⟨_, hemits hpeer hlen, rfl, hpeer, rfl, ?nextId, rfl⟩
  show (BitVec.ofNat 7 ((s.txFid.toNat + 1) % 127)).toNat = _
  rw [BitVec.toNat_ofNat]
  omega

/-- Settles O41, by induction on the payloads: a send leaves the peer and advances the id, which stays below 127. -/
theorem frameIdsCountModulo127 : Obligations.FrameIdsCountModulo127 := by
  intro s ps hpeer hfid hlen
  show ∃ t : State, runInstrs (ps.map .txSend) s = some t ∧ t.txFid.toNat = (s.txFid.toNat + ps.length) % 127 ∧
    t.txOut = s.txOut ++ sentFrames s.params s.peerAddr s.txFid.toNat ps
  induction ps generalizing s with
  | nil => exact ⟨s, rfl, (Nat.mod_eq_of_lt (Nat.lt_succ_of_le hfid)).symm, (List.append_nil _).symm⟩
  | cons p ps ih =>
    obtain ⟨hp, hps⟩ := List.forall_mem_cons.mp hlen
    obtain ⟨u, hsend, hparams, hpeer', haddr, hid, hout⟩ := exec_txSend_of_legal hpeer hp
    rw [List.map_cons, runInstrs_cons_of_next hsend]
    rw [← hparams] at hps
    obtain ⟨t, hrun, hids, houts⟩ := ih u hpeer' (by omega) hps
    refine ⟨t, hrun, ?nextId, ?frames⟩
    case nextId => rw [hids, hid, List.length_cons]; omega
    case frames => rw [houts, hout, hid, hparams, haddr, sentFrames_cons (Nat.lt_succ_of_le hfid), List.append_assoc]

end Sys2Proof.Machine
end

section
/-! PROOF. The bus arbiter (`42_bus_arbiter.md`): when each of its steps is enabled, and what each does where it is
enabled and where it is not. -/

namespace Sys2Proof.Machine

/-! ## When a step of the arbiter is enabled -/

section

variable {s : State} {r : Nat} {batch : List Bytes} {w : Bytes}

/-- R176: what a request has to meet. -/
theorem State.requestOk_iff : s.requestOk r batch = true ↔
    r < s.params.nReq ∧ (s.req r).pending = false ∧ batch.length ≤ s.params.batchMax ∧
      ∀ w ∈ batch, 1 ≤ w.length ∧ w.length ≤ s.params.txnMaxBytes := by
  simp [State.requestOk, batchOk, and_assoc]

/-- R177. -/
theorem State.grantEnabled_iff : s.grantEnabled r = true ↔ s.busBusy = false ∧ (s.req r).pending = true := by
  simp [State.grantEnabled]

theorem State.grantEnabled_eq_false_iff :
    s.grantEnabled r = false ↔ s.busBusy = true ∨ (s.req r).pending = false := by
  simp only [State.grantEnabled, Bool.and_eq_false_iff, Bool.not_eq_false']

/-- R179. -/
theorem State.xferEnabled_iff :
    s.xferEnabled = true ↔ s.busBusy = true ∧ s.busFail = false ∧ s.busIdx < s.ownerBatch.length := by
  simp [State.xferEnabled, and_assoc]

theorem State.xferEnabled_eq_false_iff :
    s.xferEnabled = false ↔ s.busBusy = false ∨ s.busFail = true ∨ s.ownerBatch.length ≤ s.busIdx := by
  simp only [State.xferEnabled, Bool.and_eq_false_iff, Bool.not_eq_false', decide_eq_false_iff_not, Nat.not_lt,
    or_assoc]

/-- R180. -/
theorem State.completeEnabled_iff :
    s.completeEnabled = true ↔ s.busBusy = true ∧ (s.busFail = true ∨ s.busIdx = s.ownerBatch.length) := by
  simp [State.completeEnabled]

theorem State.completeEnabled_eq_false_iff :
    s.completeEnabled = false ↔ s.busBusy = false ∨ s.busFail = false ∧ s.busIdx ≠ s.ownerBatch.length := by
  simp only [State.completeEnabled, Bool.and_eq_false_iff, Bool.or_eq_false_iff, decide_eq_false_iff_not, ne_eq]

/-- Within the batch the transaction to issue is the one at `bus_idx` (R179). -/
theorem State.currentTxn_eq_iff (hidx : s.busIdx < s.ownerBatch.length) :
    s.currentTxn = w ↔ s.ownerBatch[s.busIdx]? = some w := by
  simp [State.currentTxn, List.getD, hidx]

/-- Where the batch has a transaction at `bus_idx`, an open window without a failure issues it next (R179). -/
theorem State.xferEnabled_of_getElem? (hbusy : s.busBusy = true) (hfail : s.busFail = false)
    (hnext : s.ownerBatch[s.busIdx]? = some w) : s.xferEnabled = true ∧ s.currentTxn = w := by
  obtain ⟨hidx, -⟩ := List.getElem?_eq_some_iff.mp hnext
  exact ⟨State.xferEnabled_iff.mpr ⟨hbusy, hfail, hidx⟩, (State.currentTxn_eq_iff hidx).mpr hnext⟩

end

/-- Settles O48: after a failure only the completion is enabled; before one, the index is below the end of the batch or at
it, and never beyond (`BusInv.busy`). -/
theorem openWindowMakesProgress : Obligations.OpenWindowMakesProgress := by
  intro s hinv hbusy
  obtain ⟨-, -, hidx⟩ := hinv.busy hbusy
  cases hfail : s.busFail with
  | true =>
    rw [State.xferEnabled_eq_false_iff.mpr (.inr (.inl hfail)), State.completeEnabled_iff.mpr ⟨hbusy, .inl hfail⟩]
    rfl
  | false =>
    rcases Nat.lt_or_eq_of_le hidx with hlt | heq
    · rw [State.xferEnabled_iff.mpr ⟨hbusy, hfail, hlt⟩,
        State.completeEnabled_eq_false_iff.mpr (.inr ⟨hfail, hlt.ne⟩)]
      rfl
    · rw [State.xferEnabled_eq_false_iff.mpr (.inr (.inr heq.ge)), State.completeEnabled_iff.mpr ⟨hbusy, .inr heq⟩]
      rfl

/-! ## What each step does, enabled or not -/

section

variable {s : State} {r : Nat} {batch : List Bytes}

theorem exec_busRequest_of_ok (h : s.requestOk r batch = true) (tmo : Nat) (cfg : DeviceConfig) :
    exec (.busRequest r batch tmo cfg) s = .next ((placeRequest r batch tmo cfg s).answer .none) :=
  congrArg Host.Outcome.next (if_pos h)

theorem exec_busRequest_of_not_ok (h : s.requestOk r batch = false) (tmo : Nat) (cfg : DeviceConfig) :
    exec (.busRequest r batch tmo cfg) s = .next s.reject :=
  congrArg Host.Outcome.next (if_neg (Bool.eq_false_iff.mp h))

theorem exec_busGrant_of_enabled (h : s.grantEnabled r = true) :
    exec (.busGrant r) s = .next ((openWindow r s).answer .none) :=
  congrArg Host.Outcome.next (if_pos h)

theorem exec_busGrant_of_not_enabled (h : s.grantEnabled r = false) : exec (.busGrant r) s = .next s.skip :=
  congrArg Host.Outcome.next (if_neg (Bool.eq_false_iff.mp h))

theorem exec_busXfer_of_enabled (h : s.xferEnabled = true) (o : XferOutcome) :
    exec (.busXfer o) s = .next ((transfer o s).answer (.xfer o)) :=
  congrArg Host.Outcome.next (if_pos h)

theorem exec_busXfer_of_not_enabled (h : s.xferEnabled = false) (o : XferOutcome) :
    exec (.busXfer o) s = .next s.skip :=
  congrArg Host.Outcome.next (if_neg (Bool.eq_false_iff.mp h))

theorem exec_busComplete_of_enabled (h : s.completeEnabled = true) :
    exec .busComplete s = .next ((closeWindow s).answer (closeResult s)) :=
  congrArg Host.Outcome.next (if_pos h)

theorem exec_busComplete_of_not_enabled (h : s.completeEnabled = false) : exec .busComplete s = .next s.skip :=
  congrArg Host.Outcome.next (if_neg (Bool.eq_false_iff.mp h))

/-- The bytes of a motor command are what the open window issues next: where a motor row is a step (R187 to R189). -/
def State.motorNext (s : State) (m : MotorMode) (g : Byte) : Prop :=
  s.busBusy = true ∧ s.busFail = false ∧ s.ownerBatch[s.busIdx]? = some (motorCmd m g)

variable {m : MotorMode} {g : Byte}

theorem issueMotor_of_next (h : s.motorNext m g) :
    issueMotor m g s = (transfer (deviceAnswer s.draws) s.drew).answer (.xfer (deviceAnswer s.draws)) := by
  obtain ⟨hbusy, hfail, hnext⟩ := h
  obtain ⟨henabled, htxn⟩ := State.xferEnabled_of_getElem? hbusy hfail hnext
  simp only [issueMotor, henabled, htxn, beq_self_eq_true, Bool.and_self, if_true]

theorem issueMotor_of_not_next (h : ¬ s.motorNext m g) : issueMotor m g s = s.skip := by
  refine if_neg fun hissue => h ?_
  obtain ⟨henabled, htxn⟩ := (Bool.and_eq_true _ _).mp hissue
  obtain ⟨hbusy, hfail, hidx⟩ := State.xferEnabled_iff.mp henabled
  exact ⟨hbusy, hfail, (State.currentTxn_eq_iff hidx).mp (eq_of_beq htxn)⟩

end

/-- What a transfer before any failure writes (R179). -/
theorem transfer_eq {s : State} (hfail : s.busFail = false) (o : XferOutcome) : transfer o s = { s with
    busOut := s.busOut ++ [⟨s.busCfg.devAddr, s.busCfg.clkRate, s.currentTxn, o⟩]
    busIdx := if o = .ack then s.busIdx + 1 else s.busIdx
    busFail := decide (o = .fail) } := by
  cases o <;> simp [transfer, State.emitBus, hfail]

/-- `E_BUS` sets its bit of `bus_status` and no bit of `codec_status` (R267). -/
theorem raiseIf_eBus (s : State) (b : Bool) : s.raiseIf b .eBus = { s with
    busStatus := if b then s.busStatus ||| 0x01 else s.busStatus
    raised := if b then s.raised ++ [.eBus] else s.raised } := by
  cases b <;> simp [State.raise, codecBit, busBit]

/-- What a completion writes (R180). -/
theorem closeWindow_eq (s : State) : closeWindow s = { s with
    reqs := (closeWindow s).reqs
    busStatus := if s.busFail then s.busStatus ||| 0x01 else s.busStatus
    raised := if s.busFail then s.raised ++ [.eBus] else s.raised
    busBusy := false } := by
  simp only [closeWindow, raiseIf_eBus]
  rfl

/-! ## Requests -/

/-- A number below `2 ^ TIMEOUT_W` fits its register (R44, R102). -/
theorem fitTimeout_of_lt {p : Params} {tmo : Nat} (h : tmo < 2 ^ p.timeoutW) : fitTimeout p tmo = tmo :=
  Nat.mod_eq_of_lt h

/-- A configuration whose numbers are below `2 ^ DEV_ADDR_W` and `2 ^ CLK_RATE_W` fits its register (R43, R101). -/
theorem fitCfg_of_lt {p : Params} {cfg : DeviceConfig} (haddr : cfg.devAddr < 2 ^ p.devAddrW)
    (hclk : cfg.clkRate < 2 ^ p.clkRateW) : fitCfg p cfg = cfg := by
  simp only [fitCfg, Nat.mod_eq_of_lt haddr, Nat.mod_eq_of_lt hclk]

/-- Settles O42: a request that meets `requestOk_iff` is placed, and each refused one fails one of its four parts. -/
theorem requestIsRegisteredOrRefused : Obligations.RequestIsRegisteredOrRefused := by
  intro s r batch tmo cfg hwf htmo haddr hclk
  refine ⟨fun hr hpending hlen htxns => ?registered, fun hbroken => ?refused⟩
  case registered =>
    have hreq := req_placeRequest hwf r batch tmo cfg
    refine ⟨_, exec_busRequest_of_ok (State.requestOk_iff.mpr ⟨hr, hpending, hlen, htxns⟩) tmo cfg, rfl,
      fun j hj => (hreq j).trans (if_neg hj), ?_⟩
    have hown := (hreq r).trans (if_pos rfl)
    rwa [fitTimeout_of_lt htmo, fitCfg_of_lt haddr hclk] at hown
  case refused =>
    refine exec_busRequest_of_not_ok (Bool.eq_false_iff.mpr fun hok => ?_) tmo cfg
    obtain ⟨hr, hpending, hlen, htxns⟩ := State.requestOk_iff.mp hok
    rcases hbroken with hlong | ⟨w, hw, hsize⟩ | hnone | htwice
    · omega
    · have := htxns w hw
      omega
    · omega
    · exact Bool.false_ne_true (hpending.symm.trans htwice)

/-- Settles O50: of the three cases of `BUS_EXECUTE` contention leaves the blocked one, and a broken limit the refused
one. -/
theorem executeBlocksUnderContention : Obligations.ExecuteBlocksUnderContention := by
  intro s t r batch tmo cfg hrequest
  refine ⟨fun hok hcontended => ?blocked, fun hrefused => ?refused⟩
  case blocked =>
    obtain rfl := Host.Outcome.next.inj ((exec_busRequest_of_ok hok tmo cfg).symm.trans hrequest)
    rcases executeBatch_cases deviceAnswer r batch tmo cfg s with ⟨hno, -⟩ | ⟨-, -, e⟩ | ⟨-, hfree, -⟩
    · exact absurd (hok.symm.trans hno) (by decide)
    · exact congrArg Host.Outcome.next e
    · exact absurd ((Bool.or_eq_true _ _).mpr hcontended) (by rw [hfree]; decide)
  case refused =>
    rw [← hrequest, exec_busRequest_of_not_ok hrefused]
    exact congrArg Host.Outcome.next (if_neg (Bool.eq_false_iff.mp hrefused))

/-! ## Grants -/

/-- Settles O43: the grant is enabled, and in the window it opens the bus is busy, so that no other is. -/
theorem grantOpensTheWindow : Obligations.GrantOpensTheWindow := by
  intro s r hfree hpending
  exact ⟨_, exec_busGrant_of_enabled (State.grantEnabled_iff.mpr ⟨hfree, hpending⟩), rfl,
    fun _ => State.grantEnabled_eq_false_iff.mpr (.inl rfl)⟩

/-- Settles O51: the opened window stands at the end of its empty batch, so that the completion is enabled at once. -/
theorem emptyBatchSucceedsAtOnce : Obligations.EmptyBatchSucceedsAtOnce := by
  intro s t r hfree hpending hempty hgrant
  rw [exec_busGrant_of_enabled (State.grantEnabled_iff.mpr ⟨hfree, hpending⟩)] at hgrant
  obtain rfl := Host.Outcome.next.inj hgrant
  have hend : ((openWindow r s).answer .none).ownerBatch.length = 0 := congrArg List.length hempty
  refine ⟨rfl, State.xferEnabled_eq_false_iff.mpr (.inr (.inr (Nat.le_of_eq hend))), _,
    exec_busComplete_of_enabled (State.completeEnabled_iff.mpr ⟨rfl, .inr hend.symm⟩), rfl, busOut_closeWindow _, ?_⟩
  exact congrArg State.busCfg (closeWindow_eq _)

/-! ## Transfers -/

/-- Settles O44: the transaction at `bus_idx` is the current one, and `transfer_eq` says what its transfer writes. -/
theorem transferIssuesTheTransaction : Obligations.TransferIssuesTheTransaction := by
  intro s o w hbusy hfail hnext
  obtain ⟨henabled, htxn⟩ := State.xferEnabled_of_getElem? hbusy hfail hnext
  rw [exec_busXfer_of_enabled henabled, transfer_eq hfail, htxn]
  rfl

/-- Settles O45: each motor row is the transfer of its own three bytes, with one free value drawn. -/
theorem motorCommandsReachTheDevice : Obligations.MotorCommandsReachTheDevice := by
  intro s g hbusy hfail issued
  have issues (m : MotorMode) (hnext : s.ownerBatch[s.busIdx]? = some (motorCmd m g)) :
      issueMotor m g s = issued (motorCmd m g) := by
    obtain ⟨-, htxn⟩ := State.xferEnabled_of_getElem? (s := s.drew) hbusy hfail hnext
    rw [issueMotor_of_next ⟨hbusy, hfail, hnext⟩, transfer_eq (s := s.drew) hfail, htxn]
    rfl
  exact ⟨fun hnext => congrArg Host.Outcome.next (issues .reverse hnext),
    fun hnext => congrArg Host.Outcome.next (issues .forward hnext),
    fun hnext => congrArg Host.Outcome.next (issues .brake hnext)⟩

/-! ## Completions -/

/-- Settles O46: the frame is `closeWindow_eq`, the owner's registers are `req_closeWindow`. -/
theorem completeReportsAndReleases : Obligations.CompleteReportsAndReleases := by
  intro s hwf hbusy hend
  have hreq := req_closeWindow hwf
  exact ⟨_, exec_busComplete_of_enabled (State.completeEnabled_iff.mpr ⟨hbusy, hend⟩),
    congrArg (State.answer · (closeResult s)) (closeWindow_eq s),
    fun j hj => (hreq j).trans (if_neg hj), (hreq s.busOwner).trans (if_pos rfl)⟩

/-! ## Steps that are not enabled -/

/-- Settles O47: each clause is the negation of the step's enabling condition. -/
theorem stepsNotEnabledChangeNothing : Obligations.StepsNotEnabledChangeNothing := by
  refine ⟨fun s row b henc hrow => ?handlerRow, fun s g m row hmotor hnot => ?motorRow, fun s r o => ⟨fun h => ?grant,
    fun h => ?xfer, fun h => ?complete⟩⟩
  case handlerRow =>
    rw [exec_of_encode_line henc, rowStep_of_unselected hrow]
    rfl
  case motorRow =>
    have skips (mode : MotorMode) (hbytes : motorCmd mode g = [0x01, m, g]) : issueMotor mode g s = s.skip := by
      refine issueMotor_of_not_next fun ⟨hbusy, hfail, hnext⟩ => ?_
      rcases hnot with hfree | hfailed | hother
      · exact Bool.false_ne_true (hfree.symm.trans hbusy)
      · exact Bool.false_ne_true (hfail.symm.trans hfailed)
      · exact hother (hbytes ▸ hnext)
    rcases hmotor with ⟨rfl, rfl⟩ | ⟨rfl, rfl⟩ | ⟨rfl, rfl⟩
    · exact congrArg Host.Outcome.next (skips .reverse rfl)
    · exact congrArg Host.Outcome.next (skips .forward rfl)
    · exact congrArg Host.Outcome.next (skips .brake rfl)
  case grant => exact exec_busGrant_of_not_enabled (State.grantEnabled_eq_false_iff.mpr h)
  case xfer => exact exec_busXfer_of_not_enabled (State.xferEnabled_eq_false_iff.mpr h) o
  case complete => exact exec_busComplete_of_not_enabled (State.completeEnabled_eq_false_iff.mpr h)

end Sys2Proof.Machine
end

section
/-! PROOF. The trace property of the bus (`42_bus_arbiter.md` section 4, R191), kept by every step: by the parts of a
window, by whole windows, and by all instructions. -/

namespace Sys2Proof.Machine

/-! ## A window opens, transfers and closes -/

section

variable {s : State}

/-- The trace property while a window is open: its segment is the last one (R191). -/
theorem State.traceInv_iff_of_busy (hbusy : s.busBusy = true) : s.TraceInv ↔
    ∃ cs : List (Window × Nat × Bool), (∀ c ∈ cs, closedWindow c) ∧ s.windows = cs.map Prod.fst ++ [s.openedWindow] ∧
      s.busOut = closedRecords cs ++ windowRecords s.openedWindow s.busIdx s.busFail := by
  simp only [State.TraceInv, hbusy, if_true]

/-- The trace property on a free bus: all segments are those of closed windows (R191). -/
theorem State.traceInv_iff_of_free (hfree : s.busBusy = false) : s.TraceInv ↔
    ∃ cs : List (Window × Nat × Bool), (∀ c ∈ cs, closedWindow c) ∧ s.windows = cs.map Prod.fst ∧
      s.busOut = closedRecords cs := by
  simp only [State.TraceInv, hfree, Bool.false_eq_true, if_false]

/-- A window that was just opened has put nothing on the bus (R177). -/
theorem windowRecords_zero (w : Window) : windowRecords w 0 false = [] := rfl

theorem closedRecords_concat (cs : List (Window × Nat × Bool)) (w : Window) (n : Nat) (failed : Bool) :
    closedRecords (cs ++ [(w, n, failed)]) = closedRecords cs ++ windowRecords w n failed := by
  simp only [closedRecords, List.flatMap_append, List.flatMap_singleton]

/-- The grant adds an empty segment (R177). -/
theorem openWindow_keeps_trace (hfree : s.busBusy = false) (htrace : s.TraceInv) (r : Nat) :
    (openWindow r s).TraceInv := by
  obtain ⟨cs, hclosed, hwindows, hout⟩ := (State.traceInv_iff_of_free hfree).mp htrace
  refine (State.traceInv_iff_of_busy rfl).mpr ⟨cs, hclosed, congrArg (· ++ [_]) hwindows, ?_⟩
  show s.busOut = closedRecords cs ++ windowRecords (openWindow r s).openedWindow 0 false
  rw [windowRecords_zero, List.append_nil, hout]

/-- A transfer adds its record to the open window's segment (R179). -/
theorem transfer_keeps_trace (henabled : s.xferEnabled = true) (htrace : s.TraceInv) (o : XferOutcome) :
    (transfer o s).TraceInv := by
  obtain ⟨hbusy, hfail, hidx⟩ := State.xferEnabled_iff.mp henabled
  obtain ⟨cs, hclosed, hwindows, hout⟩ := (State.traceInv_iff_of_busy hbusy).mp htrace
  refine (State.traceInv_iff_of_busy (s := transfer o s) hbusy).mpr ⟨cs, hclosed, hwindows, ?_⟩
  rw [hfail] at hout
  cases o with
  | ack =>
    show s.busOut ++ [_] = closedRecords cs ++ windowRecords s.openedWindow (s.busIdx + 1) s.busFail
    rw [hfail, hout, windowRecords_ack s.openedWindow s.busIdx hidx, List.append_assoc]
    rfl
  | fail =>
    show s.busOut ++ [_] = closedRecords cs ++ windowRecords s.openedWindow s.busIdx true
    rw [hout, windowRecords_fail s.openedWindow s.busIdx hidx, List.append_assoc]
    rfl

/-- The completion turns the open window's segment into a closed one (R180). -/
theorem closeWindow_keeps_trace (hbusy : s.busBusy = true)
    (hend : closedWindow (s.openedWindow, s.busIdx, s.busFail)) (htrace : s.TraceInv) : (closeWindow s).TraceInv := by
  obtain ⟨cs, hclosed, hwindows, hout⟩ := (State.traceInv_iff_of_busy hbusy).mp htrace
  rw [closeWindow_eq]
  refine (State.traceInv_iff_of_free rfl).mpr ⟨cs ++ [(s.openedWindow, s.busIdx, s.busFail)], ?_, ?_, ?_⟩
  · exact List.forall_mem_append.mpr ⟨hclosed, List.forall_mem_singleton.mpr hend⟩
  · rw [List.map_append]
    exact hwindows
  · rw [closedRecords_concat]
    exact hout

/-- Where the completion is enabled, the window is done: its batch was acknowledged, or its next transaction failed
(R180). -/
theorem State.BusInv.closedWindow_of_completeEnabled (hinv : s.BusInv) (henabled : s.completeEnabled = true) :
    closedWindow (s.openedWindow, s.busIdx, s.busFail) := by
  obtain ⟨hbusy, hend⟩ := State.completeEnabled_iff.mp henabled
  cases hfail : s.busFail with
  | true => exact hinv.failed hbusy hfail
  | false => exact hend.resolve_left (by rw [hfail]; decide)

end

/-! ## Requests, whole windows and motor commands -/

/-- A request never touches the open window: its requester has none pending, the window's owner has (R55 (i), R176). -/
theorem placeRequest_keeps_trace {s : State} {r : Nat} {batch : List Bytes} (hinv : s.BusInv)
    (hok : s.requestOk r batch = true) (htrace : s.TraceInv) (tmo : Nat) (cfg : DeviceConfig) :
    (placeRequest r batch tmo cfg s).TraceInv := by
  cases hbusy : s.busBusy with
  | false =>
    exact (State.traceInv_iff_of_free (s := placeRequest r batch tmo cfg s) hbusy).mpr
      ((State.traceInv_iff_of_free hbusy).mp htrace)
  | true =>
    obtain ⟨-, hnone, -⟩ := State.requestOk_iff.mp hok
    obtain ⟨hpending, -⟩ := hinv.busy hbusy
    have hne : s.busOwner ≠ r := fun h => Bool.false_ne_true (hnone.symm.trans (h ▸ hpending))
    have hreq : (placeRequest r batch tmo cfg s).req s.busOwner = s.req s.busOwner :=
      (req_placeRequest hinv.reqsWf r batch tmo cfg _).trans (if_neg hne)
    have hopened : (placeRequest r batch tmo cfg s).openedWindow = s.openedWindow :=
      congrArg (fun q : Req => (⟨s.busOwner, q.batch, s.busCfg⟩ : Window)) hreq
    refine (State.traceInv_iff_of_busy (s := placeRequest r batch tmo cfg s) hbusy).mpr ?_
    rw [hopened]
    exact (State.traceInv_iff_of_busy hbusy).mp htrace

theorem busBusy_transferAll (answer : Nat → XferOutcome) (n : Nat) (s : State) :
    (transferAll answer n s).busBusy = s.busBusy := by
  induction n generalizing s with
  | zero => rfl
  | succ n ih =>
    simp only [transferAll]
    split
    · exact ih _
    · rfl

theorem ownerBatch_transferAll (answer : Nat → XferOutcome) (n : Nat) (s : State) :
    (transferAll answer n s).ownerBatch = s.ownerBatch := by
  rw [State.ownerBatch, req_transferAll, busOwner_transferAll, State.ownerBatch]

theorem transferAll_keeps_trace (answer : Nat → XferOutcome) (n : Nat) {s : State} (htrace : s.TraceInv) :
    (transferAll answer n s).TraceInv := by
  induction n generalizing s with
  | zero => exact htrace
  | succ n ih =>
    simp only [transferAll]
    split
    next henabled => exact ih (transfer_keeps_trace (s := s.drew) henabled htrace _)
    next => exact htrace

/-- Up to as many transfers as the batch has transactions bring a fresh window to its end (R181). -/
theorem transferAll_closes (answer : Nat → XferOutcome) (r : Nat) (s : State) :
    let t := transferAll answer (s.req r).batch.length (openWindow r s)
    closedWindow (t.openedWindow, t.busIdx, t.busFail) := by
  intro t
  have hbatch : t.ownerBatch = (s.req r).batch := ownerBatch_transferAll ..
  obtain ⟨k, ok, hle, hall, -, -, hidx, hfail, -⟩ :=
    transferAll_spec answer (s.req r).batch.length (openWindow r s) rfl rfl (Nat.zero_add _).symm
  have hk : t.busIdx = k := hidx.trans (Nat.zero_add k)
  have hf : t.busFail = !ok := hfail
  show if t.busFail then t.busIdx < t.ownerBatch.length else t.busIdx = t.ownerBatch.length
  rw [hf, hk, hbatch]
  cases ok with
  | true => exact hall.mp rfl
  | false => exact Nat.lt_of_le_of_ne hle fun h => Bool.false_ne_true (hall.mpr h)

/-- A whole window adds one closed segment (R181). -/
theorem runWindow_keeps_trace {s : State} (hfree : s.busBusy = false) (htrace : s.TraceInv)
    (answer : Nat → XferOutcome) (r : Nat) : (runWindow answer r s).TraceInv :=
  closeWindow_keeps_trace (busBusy_transferAll ..) (transferAll_closes answer r s)
    (transferAll_keeps_trace _ _ (openWindow_keeps_trace hfree htrace r))

theorem executeBatch_keeps_trace {s : State} (hinv : s.BusInv) (htrace : s.TraceInv) (answer : Nat → XferOutcome)
    (r : Nat) (batch : List Bytes) (tmo : Nat) (cfg : DeviceConfig) :
    (executeBatch answer r batch tmo cfg s).TraceInv := by
  rcases executeBatch_cases answer r batch tmo cfg s with ⟨-, e⟩ | ⟨hok, -, e⟩ | ⟨hok, hfree, e⟩ <;> rw [e]
  · exact htrace
  · exact placeRequest_keeps_trace hinv hok htrace tmo cfg
  · obtain ⟨hbusy, -⟩ := Bool.or_eq_false_iff.mp hfree
    exact runWindow_keeps_trace (s := placeRequest r batch tmo cfg s) hbusy
      (placeRequest_keeps_trace hinv hok htrace tmo cfg) answer r

theorem issueMotor_keeps_trace {s : State} (htrace : s.TraceInv) (m : MotorMode) (g : Byte) :
    (issueMotor m g s).TraceInv := by
  by_cases h : s.motorNext m g
  · obtain ⟨hbusy, hfail, hnext⟩ := h
    obtain ⟨henabled, -⟩ := State.xferEnabled_of_getElem? hbusy hfail hnext
    rw [issueMotor_of_next ⟨hbusy, hfail, hnext⟩]
    exact transfer_keeps_trace (s := s.drew) henabled htrace _
  · rw [issueMotor_of_not_next h]
    exact htrace

/-! ## Every instruction and every step -/

theorem exec_onBus_keeps_trace {i : Instr} {s t : State} (hw : (writerOf i).onBus = true) (hinv : s.BusInv)
    (htrace : s.TraceInv) (h : exec i s = .next t) : t.TraceInv := by
  cases i <;> simp only [writerOf, Writer.onBus, Bool.false_eq_true] at hw <;> obtain rfl := Host.Outcome.next.inj h
  case motorRev g => exact issueMotor_keeps_trace htrace .reverse g
  case motorFwd g => exact issueMotor_keeps_trace htrace .forward g
  case motorBrk g => exact issueMotor_keeps_trace htrace .brake g
  case busExecute r batch tmo cfg => exact executeBatch_keeps_trace hinv htrace deviceAnswer r batch tmo cfg
  case busRequest r batch tmo cfg =>
    split
    next hok => exact placeRequest_keeps_trace hinv hok htrace tmo cfg
    next => exact htrace
  case busGrant r =>
    split
    next henabled => exact openWindow_keeps_trace (State.grantEnabled_iff.mp henabled).1 htrace r
    next => exact htrace
  case busXfer o =>
    split
    next henabled => exact transfer_keeps_trace henabled htrace o
    next => exact htrace
  case busComplete =>
    split
    next henabled =>
      exact closeWindow_keeps_trace (State.completeEnabled_iff.mp henabled).1
        (hinv.closedWindow_of_completeEnabled henabled) htrace
    next => exact htrace

/-- After `RESET` there are no windows and no records (R56). -/
theorem traceInv_resetBlock (s : State) : (resetBlock s).TraceInv :=
  (State.traceInv_iff_of_free rfl).mpr ⟨[], fun _ hc => absurd hc List.not_mem_nil, rfl, rfl⟩

/-- Only the bus and `RESET` write what the trace property speaks of (R78). -/
theorem exec_keeps_trace {i : Instr} {s t : State} (hinv : s.BusInv) (htrace : s.TraceInv)
    (h : exec i s = .next t) : t.TraceInv := by
  cases hw : writerOf i with
  | receive =>
    obtain ⟨bs, r, rfl⟩ := exec_receive hw h
    have hframe : rxRun bs s = _ := rxRun_frame bs s
    rw [hframe]
    exact htrace
  | transmit => rcases exec_transmit hw h with ⟨c, rfl, -⟩ | ⟨frame, fid, rfl⟩ <;> exact htrace
  | request | arbiter | execute => exact exec_onBus_keeps_trace (by rw [hw]; rfl) hinv htrace h
  | acknowledge | clear | reader | telemetry =>
    obtain ⟨_, _, _, _, _, _, rfl⟩ := exec_atSide (by rw [hw]; rfl) h
    exact htrace
  | resetter =>
    cases i <;> simp only [writerOf, reduceCtorEq] at hw
    obtain rfl := Host.Outcome.next.inj h
    exact traceInv_resetBlock s

/-- The bus invariant speaks neither of the waiting events nor of the free values drawn. -/
theorem State.BusInv.with_inbox_draws {s : State} (h : s.BusInv) (inbox : List Event) (draws : Nat) :
    ({ s with inbox := inbox, draws := draws } : State).BusInv where
  reqsWf := h.reqsWf
  pendingOk := h.pendingOk
  nDoneLe := h.nDoneLe
  busy := h.busy
  failed := h.failed
  cfgOwners := h.cfgOwners
  busReserved := h.busReserved

/-- Settles O11: taking an event out changes nothing the property speaks of, and the instruction it stands for keeps it
(`exec_keeps_trace`). -/
theorem everyStepKeepsTheBusTrace : Obligations.EveryStepKeepsTheBusTrace := by
  intro s t hinv htrace h
  rcases step_next_cases h with ⟨-, rfl⟩ | ⟨i, hi⟩ | ⟨i, hi⟩ | rfl
  · exact htrace
  · exact exec_keeps_trace (s := s.popInbox) (hinv.bus.with_inbox_draws s.inbox.tail s.draws) htrace hi
  · exact exec_keeps_trace (s := s.popInbox.drew) (hinv.bus.with_inbox_draws s.inbox.tail (s.draws + 1)) htrace hi
  · exact htrace

end Sys2Proof.Machine
end

section
/-! PROOF. The payload formats (`43_payload_formats.md`): packed bits there and back, which payloads are parsed, and what
the host makes of an accepted one. -/

namespace Sys2Proof.Machine

/-! ## Packed bits -/

/-- Boolean `k` as `Unpack` reads it: bit `k mod 8` of byte `k div 8`, 0 beyond the end (R213). -/
def bitAt (s : Bytes) (k : Nat) : Bool := (s.getD (k / 8) 0).getLsbD (k % 8)

/-- Byte strings of one length are told apart by their bits. -/
theorem bytes_eq_iff_bitAt {s t : Bytes} :
    s = t ↔ s.length = t.length ∧ ∀ k < 8 * t.length, bitAt s k = bitAt t k := by
  refine ⟨fun h => ⟨congrArg _ h, fun _ _ => by rw [h]⟩, fun ⟨hlen, hbits⟩ => ?_⟩
  refine List.ext_getElem hlen fun i hs ht => BitVec.eq_of_getLsbD_eq fun j hj => ?_
  have hbit := hbits (8 * i + j) (by omega)
  have hdiv : (8 * i + j) / 8 = i := by omega
  have hmod : (8 * i + j) % 8 = j := by omega
  rwa [bitAt, bitAt, hdiv, hmod, ← List.getElem_eq_getD (h := hs), ← List.getElem_eq_getD (h := ht)] at hbit

theorem length_unpack (s : Bytes) (n : Nat) : (unpack s n).length = n := by
  simp only [unpack, List.length_map, List.length_range]

theorem getElem_unpack {s : Bytes} {n j : Nat} (h : j < (unpack s n).length) : (unpack s n)[j] = bitAt s j := by
  simp only [unpack, List.getElem_map, List.getElem_range, bitAt]

theorem getD_unpack (s : Bytes) (n j : Nat) : (unpack s n).getD j false = (decide (j < n) && bitAt s j) := by
  by_cases hj : j < n
  · have hj' : j < (unpack s n).length := (length_unpack s n).symm ▸ hj
    rw [← List.getElem_eq_getD (h := hj'), getElem_unpack, decide_eq_true hj, Bool.true_and]
  · rw [List.getD_eq_default _ _ ((length_unpack s n).symm ▸ Nat.not_lt.mp hj), decide_eq_false hj, Bool.false_and]

/-- Bit `k` of the packed bytes is boolean `k`, and 0 past the last boolean (R212). -/
theorem bitAt_pack {d : List Bool} {k : Nat} (hk : k < 8 * (pack d).length) : bitAt (pack d) k = d.getD k false := by
  rw [length_pack] at hk
  rw [bitAt, pack_getD d (k / 8) (k % 8) (by omega) (by omega), Nat.div_add_mod]

/-- Unpacking undoes packing. -/
theorem unpack_pack (d : List Bool) : unpack (pack d) d.length = d := by
  refine List.ext_getElem (length_unpack _ _) fun j _ hj => ?_
  have hbytes : j < 8 * (pack d).length := by rw [length_pack]; omega
  rw [getElem_unpack, bitAt_pack hbytes, List.getElem_eq_getD]

/-- Packing undoes unpacking exactly where the bytes are just enough and no bit past the last boolean is set. -/
theorem pack_unpack_eq_iff {s : Bytes} {n : Nat} :
    pack (unpack s n) = s ↔ s.length = (n + 7) / 8 ∧ ∀ k, n ≤ k → k < 8 * s.length → bitAt s k = false := by
  rw [bytes_eq_iff_bitAt, length_pack, length_unpack, eq_comm (b := s.length)]
  refine and_congr_right fun hlen => forall_congr' fun k => ?_
  have hsame : (pack (unpack s n)).length = s.length := by rw [length_pack, length_unpack, hlen]
  have hbit (hk : k < 8 * s.length) : bitAt (pack (unpack s n)) k = (decide (k < n) && bitAt s k) := by
    rw [bitAt_pack (hsame.symm ▸ hk), getD_unpack]
  constructor
  · intro h hn hk
    rw [← h hk, hbit hk, decide_eq_false (Nat.not_lt.mpr hn), Bool.false_and]
  · intro h hk
    rw [hbit hk]
    by_cases hn : k < n
    · rw [decide_eq_true hn, Bool.true_and]
    · rw [h (Nat.not_lt.mp hn) hk, Bool.and_false]

/-- Settles O54. -/
theorem packAndUnpackAgree : Obligations.PackAndUnpackAgree :=
  ⟨fun d => ⟨length_pack d, unpack_pack d⟩, fun _ _ => pack_unpack_eq_iff⟩

/-! ## Which payloads are parsed -/

section

variable {p : Params} {bs : Bytes}

/-- The first test of `ParseIncoming` (R208). -/
theorem parseIncoming_of_short (h : bs.length < payloadInLen p) : parseIncoming p bs = none := if_pos h

/-- The second test of `ParseIncoming`; a payload with no tag at all fails the first (R208). -/
theorem parseIncoming_of_head_ne (h : bs.head? ≠ some p.identIn) : parseIncoming p bs = none := by
  cases bs with
  | nil => exact parseIncoming_of_short (by rw [payloadInLen, List.length_nil]; omega)
  | cons tag rest =>
    have htag : tag ≠ p.identIn := fun e => h (congrArg some e)
    simp only [parseIncoming, List.getD_cons_zero, if_pos htag, ite_self]

/-- Every position `ParseIncoming` reads lies within the least length (R207). -/
theorem parseIncoming_append (h : payloadInLen p ≤ bs.length) (extra : Bytes) :
    parseIncoming p (bs ++ extra) = parseIncoming p bs := by
  have hlong : payloadInLen p ≤ (bs ++ extra).length := by rw [List.length_append]; omega
  have hend : 5 + p.nAnalog + p.digBytes ≤ bs.length := h
  have hbyte (i : Nat) (hi : i < 5) : (bs ++ extra).getD i 0 = bs.getD i 0 :=
    List.getD_append _ _ _ _ (by omega)
  have hpart (i n : Nat) (hin : i + n ≤ bs.length) : ((bs ++ extra).drop i).take n = (bs.drop i).take n := by
    rw [List.drop_append_of_le_length (by omega), List.take_append_of_le_length (by rw [List.length_drop]; omega)]
  simp only [parseIncoming, if_neg (Nat.not_lt.mpr hlong), if_neg (Nat.not_lt.mpr h), hbyte 0 (by omega),
    hbyte 1 (by omega), hbyte 2 (by omega), hpart 5 p.nAnalog (by omega), hpart (5 + p.nAnalog) p.digBytes hend]

end

/-- Settles O56: an outgoing payload begins with the other tag (R216). -/
theorem parseRejectsWhatItMust : Obligations.ParseRejectsWhatItMust := by
  intro p bs extra htags
  refine ⟨parseIncoming_of_short, parseIncoming_of_head_ne, fun t => ?outgoing, fun h => parseIncoming_append h extra⟩
  case outgoing => exact parseIncoming_of_head_ne fun e => htags (Option.some.inj e).symm

/-! ## What the host makes of an accepted payload -/

/-- An accepted payload leaves these records, and the block as it was (R215, R227). -/
theorem acceptIncoming_answer_eq (st : Incoming) (s : State) : (acceptIncoming st s).answer .accepted =
    { s with
      telemetry :=
        { incoming := st
          outgoing := { analog := st.analog, digital := st.digital }
          lastUpdate := s.telemetry.clock + Config.clockStep s.draws
          clock := s.telemetry.clock + Config.clockStep s.draws }
      draws := s.draws + 1
      result := .accepted } := by
  rw [acceptIncoming_frame, acceptIncoming_telemetry]
  rfl

/-- A payload with the layout is accepted, with these fields (R206, R208, R227). -/
theorem exec_payloadIn_of_layout {s : State} {analog digital : Bytes} (ha : analog.length = s.params.nAnalog)
    (hd : digital.length = s.params.digBytes) (ft fl r3 r4 : Byte) :
    exec (.payloadIn ft fl r3 r4 analog digital) s = .next ((acceptIncoming
      { fieldTime := ft, canMove := fl.getLsbD 0, isAutonomous := fl.getLsbD 1, isBlue := fl.getLsbD 2,
        analog := analog, digital := unpack digital s.params.nDigital } s).answer .accepted) :=
  congrArg _ (takeIncoming_of_some (parseIncoming_payloadInBytes s.params ft fl r3 r4 analog digital ha hd))

/-- Settles O55: an acceptance writes the host's records and moves its clock on by a free value. -/
theorem incomingPayloadIsCommitted : Obligations.IncomingPayloadIsCommitted := by
  intro s ft fl r3 r4 analog digital ha hd
  rw [exec_payloadIn_of_layout ha hd, acceptIncoming_answer_eq]
  exact ⟨_, rfl, rfl, rfl, rfl, rfl, Nat.le_add_right _ _⟩

/-- A legal `SendOutgoing` emits the payload built of the mirror (R228, R157). -/
theorem sendOutgoing_of_legal {s : State} (hpeer : s.peerValid = true)
    (hlen : (buildOutgoing s.params s.telemetry.outgoing).length ≤ s.params.txPayloadMax) :
    let frame := encodeFrame s.params s.peerAddr (BitVec.ofNat 8 s.txFid.toNat)
      (buildOutgoing s.params s.telemetry.outgoing)
    (sendOutgoing s).result = .emitted frame ∧ (sendOutgoing s).txOut = s.txOut ++ frame := by
  rw [sendOutgoing, sendToPeer_of_legal hpeer hlen]
  exact ⟨rfl, rfl⟩

/-- Settles O58: what an acceptance leaves in the mirror is what the next send builds its payload of, and it leaves peer,
frame id and `tx_out` as they were. -/
theorem outgoingTelemetryEchoes : Obligations.OutgoingTelemetryEchoes := by
  refine ⟨fun s t ft fl r3 r4 analog digital hpeer ha hd hmax h => ?echo, fun s h => length_buildOutgoing h⟩
  case echo =>
  have hlen : (payloadOutBytes s.params analog (pack (unpack digital s.params.nDigital))).length ≤
      s.params.txPayloadMax := by
    rwa [length_payloadOutBytes, length_pack, length_unpack, ha]
  rw [exec_payloadIn_of_layout ha hd, acceptIncoming_answer_eq] at h
  obtain rfl := Host.Outcome.next.inj h
  exact sendOutgoing_of_legal hpeer hlen

end Sys2Proof.Machine
end

section
/-! PROOF. What the host does with a received frame, and the Supervisor's tick (`44_host_environment.md`): the watchdog, and
the calls a tick makes on the actuators. -/

namespace Sys2Proof.Machine

/-! ## `PollIncoming` -/

/-- What the host makes of a payload does not depend on the answer of the operation before. -/
theorem takeIncoming_answer (bs : Bytes) (s : State) (r : OpResult) :
    takeIncoming bs (s.answer r) = takeIncoming bs s := by
  rcases takeIncoming_cases bs s with ⟨st, hst, e⟩ | ⟨hnone, e⟩ <;> rw [e]
  · exact takeIncoming_of_some (s := s.answer r) hst
  · simp only [takeIncoming, State.answer, hnone]

theorem chunk_result (bs : Bytes) (s : State) : (chunk bs s).result = .chunk (rxRunAccepts bs s) := rfl

theorem pollIncoming_of_no_accept {bs : Bytes} {s : State} (h : (chunk bs s).result = .chunk false) :
    pollIncoming bs s = chunk bs s := by
  rw [chunk_result] at h
  rw [pollIncoming, OpResult.chunk.inj h, if_neg Bool.false_ne_true]

/-- On an accepted frame: the chunk, the acknowledgement, and the committed payload taken (R227). -/
theorem pollIncoming_of_accept {bs : Bytes} {s : State} (h : (chunk bs s).result = .chunk true) :
    pollIncoming bs s =
      takeIncoming ((chunk bs s).frPayload.bytes (chunk bs s).frPlen.toNat) (ackFrame (chunk bs s)) := by
  rw [chunk_result] at h
  rw [pollIncoming, if_pos (OpResult.chunk.inj h)]
  exact (takeIncoming_answer _ (ackFrame (rxRun bs s)) (.chunk (rxRunAccepts bs s))).symm

/-- Settles O57: what `PollIncoming` does with an accepted frame is to take its payload, which is rejected or accepted. -/
theorem pollParsesTheCommittedPayload : Obligations.PollParsesTheCommittedPayload := by
  intro s t bs h
  obtain rfl := Host.Outcome.next.inj h
  refine ⟨pollIncoming_of_no_accept, fun haccept hnone => ?reject, fun haccept st hst => ?accept⟩
  all_goals rw [pollIncoming_of_accept haccept]
  case reject => simp only [takeIncoming, ackFrame, hnone, State.answer]
  case accept =>
    rw [takeIncoming_of_some (s := ackFrame (chunk bs s)) hst, acceptIncoming_answer_eq]
    exact ⟨rfl, rfl, rfl⟩

/-! ## The calls of one tick -/

theorem mem_tickCalls_write {prev canMove : Bool} {n j : Nat} :
    .write j ∈ tickCalls prev canMove n ↔ canMove = true ∧ j < n := by
  cases prev <;> cases canMove <;> simp [tickCalls, levelCall]

theorem mem_tickCalls_kill {prev canMove : Bool} {n j : Nat} :
    .kill j ∈ tickCalls prev canMove n ↔ canMove = false ∧ j < n := by
  cases prev <;> cases canMove <;> simp [tickCalls, levelCall]

theorem mem_tickCalls_revive {prev canMove : Bool} {n j : Nat} :
    .revive j ∈ tickCalls prev canMove n ↔ prev = false ∧ canMove = true ∧ j < n := by
  cases prev <;> cases canMove <;> simp [tickCalls, levelCall]

theorem levelCall_injective (canMove : Bool) : Function.Injective (levelCall canMove) := by
  intro i j h
  cases canMove
  · exact ActuatorCall.kill.inj h
  · exact ActuatorCall.write.inj h

theorem levelCall_ne_revive (canMove : Bool) (i j : Nat) : levelCall canMove i ≠ .revive j := by
  cases canMove <;> exact nofun

/-- No call is made twice in a tick: the revives differ by their index, and so do the level-driven calls (R234). -/
theorem nodup_tickCalls (prev canMove : Bool) (n : Nat) : (tickCalls prev canMove n).Nodup := by
  have hlevel : ((List.range n).map (levelCall canMove)).Nodup := List.nodup_range.map (levelCall_injective canMove)
  rw [tickCalls]
  split
  · refine List.nodup_append.mpr ⟨List.nodup_range.map fun _ _ => ActuatorCall.revive.inj, hlevel, ?_⟩
    intro c hc d hd
    obtain ⟨i, -, rfl⟩ := List.mem_map.mp hc
    obtain ⟨j, -, rfl⟩ := List.mem_map.mp hd
    exact (levelCall_ne_revive canMove j i).symm
  · exact hlevel

theorem count_tickCalls {prev canMove : Bool} {n : Nat} {c : ActuatorCall} {P : Prop} [Decidable P]
    (h : c ∈ tickCalls prev canMove n ↔ P) : (tickCalls prev canMove n).count c = if P then 1 else 0 := by
  rw [(nodup_tickCalls prev canMove n).count]
  exact if_congr h rfl rfl

/-! ## A tick begins, goes on, or waits -/

section

variable {sup : Supervisor} {s : State} {a : BusPort} {i : Nat} {as : List (BusPort × Nat)}

/-- Going on keeps the list of calls made and owed, and the effective `canMove`. -/
theorem continueTick_calls (sup : Supervisor) (s : State) :
    (continueTick sup s).1.prevCanMove = sup.prevCanMove ∧
    (continueTick sup s).1.calls ++ (continueTick sup s).1.owed = sup.calls ++ sup.owed := by
  rcases continueTick_cases sup s with ⟨-, -, -, -, -, -, e⟩ | e <;> rw [e]
  · exact ⟨rfl, rfl⟩
  · exact issueCalls_calls _ sup s

/-- A blocked call whose requester has no result yet stops the tick (R312). -/
theorem continueTick_of_blocked (ht : sup.todo = (a, i) :: as) (hw : sup.waiting = true)
    (hd : (s.req a.requester).done = false) : continueTick sup s = (sup, s) := by
  simp only [continueTick, hw, ht, hd, Bool.false_eq_true, if_false]

/-- A request pending on the next call's requester holds that call back (R249 (e)). -/
theorem continueTick_of_pending (ht : sup.todo = (a, i) :: as) (hw : sup.waiting = false)
    (hp : (s.req a.requester).pending = true) : continueTick sup s = (sup, s) := by
  have hsame : { sup with todo := (a, i) :: as, waiting := false } = sup := by rw [← ht, ← hw]
  simp only [continueTick, hw, ht, issueCalls, hp, if_true, hsame]

/-- Where the blocked call has returned, the bus is free and nothing is pending, the tick ends (R181). -/
theorem continueTick_free (hwf : ReqFile.wf s.reqs) (hfree : s.busBusy = false) (hp : ∀ j, (s.req j).pending = false)
    (hd : ∀ a i as, sup.todo = (a, i) :: as → sup.waiting = true → (s.req a.requester).done = true) :
    (continueTick sup s).1.todo = [] := by
  rcases continueTick_cases sup s with ⟨a, i, as, hw, ht, hdone, -⟩ | e
  · exact nomatch hdone.symm.trans (hd a i as ht hw)
  · rw [e]
    exact issueCalls_free _ sup s hwf hfree hp

theorem supervisorTick_of_idle (ht : sup.todo = []) (now : Nat) (s : State) :
    supervisorTick now sup s = continueTick (beginTick now sup s) s := if_pos ht

theorem supervisorTick_of_under_way (ht : sup.todo ≠ []) (now : Nat) (s : State) :
    supervisorTick now sup s = continueTick sup s := if_neg ht

/-- A tick that begins takes the watchdog's `canMove` (R234, R235). -/
theorem supervisorTick_canMove_of_idle (ht : sup.todo = []) (now : Nat) (s : State) :
    (supervisorTick now sup s).1.prevCanMove = effectiveCanMove s.params now (snapshot s) := by
  rw [supervisorTick_of_idle ht, (continueTick_calls _ s).1]
  rfl

theorem supervisorTick_canMove_of_under_way (ht : sup.todo ≠ []) (now : Nat) (s : State) :
    (supervisorTick now sup s).1.prevCanMove = sup.prevCanMove := by
  rw [supervisorTick_of_under_way ht, (continueTick_calls sup s).1]

/-- A tick that begins makes and owes the calls of its `canMove` (R234, R237, R238). -/
theorem supervisorTick_calls_of_idle (ht : sup.todo = []) (now : Nat) (s : State) :
    (supervisorTick now sup s).1.calls ++ (supervisorTick now sup s).1.owed =
      tickCalls sup.prevCanMove (supervisorTick now sup s).1.prevCanMove sup.registry.length := by
  rw [supervisorTick_canMove_of_idle ht, supervisorTick_of_idle ht, (continueTick_calls _ s).2]
  exact decideTick_calls s.params now (snapshot s) sup

/-- A tick that begins and has to wait has a request pending on the port it waits for. -/
theorem supervisorTick_waiting_of_idle (hwf : ReqFile.wf s.reqs) (ht : sup.todo = []) (now : Nat)
    (hw : (supervisorTick now sup s).1.waiting = true) :
    ∃ a i as, (supervisorTick now sup s).1.todo = (a, i) :: as ∧
      ((supervisorTick now sup s).2.req a.requester).pending = true := by
  rw [supervisorTick_of_idle ht] at hw ⊢
  -- the tick has just begun, so no call of it is blocked yet: it goes straight to its calls
  exact issueCalls_waiting (beginTick now sup s).todo _ s hwf hw

end

theorem effectiveCanMove_of_stale {p : Params} {now : Nat} {snap : Incoming × Nat}
    (h : p.heartbeatTimeoutMs < now - snap.2) : effectiveCanMove p now snap = false := by
  rw [effectiveCanMove, decide_eq_true h, Bool.not_true, Bool.and_false]

theorem effectiveCanMove_of_fresh {p : Params} {now : Nat} {snap : Incoming × Nat}
    (h : now - snap.2 ≤ p.heartbeatTimeoutMs) : effectiveCanMove p now snap = snap.1.canMove := by
  rw [effectiveCanMove, decide_eq_false (Nat.not_lt.mpr h), Bool.not_false, Bool.and_true]

/-- Settles O59: a tick that begins takes the watchdog's value, one under way keeps its own. -/
theorem watchdogOverridesStaleCanMove : Obligations.WatchdogOverridesStaleCanMove := by
  intro now sup s
  refine ⟨fun ht hstale => ?_, fun ht hfresh => ?_, fun ht => supervisorTick_canMove_of_under_way ht now s⟩
  all_goals rw [supervisorTick_canMove_of_idle ht]
  · exact effectiveCanMove_of_stale hstale
  · exact effectiveCanMove_of_fresh hfresh

/-- Settles O60: a tick that begins owes the calls of its `canMove`, each once, and going on with it only moves calls from
those owed to those made; it goes on unless its call is blocked or its requester has a request pending. -/
theorem tickWritesOrKillsEveryActuator : Obligations.TickWritesOrKillsEveryActuator := by
  intro now sup s
  refine ⟨fun ht => ?begins, fun ht => ?goesOn, fun hend => ?ended, fun a i as ht hstop => ?waits,
    fun hwf ht => supervisorTick_waiting_of_idle hwf ht now, fun hwf hfree hp hd => ?ends⟩
  case begins =>
    rw [supervisorTick_calls_of_idle ht]
    exact ⟨rfl, fun _ =>
      ⟨count_tickCalls mem_tickCalls_write, count_tickCalls mem_tickCalls_kill, count_tickCalls mem_tickCalls_revive⟩⟩
  case goesOn =>
    rw [supervisorTick_of_under_way ht]
    exact (continueTick_calls sup s).2
  case ended =>
    rw [Supervisor.owed, hend, List.tail_nil, ite_self, List.map_nil, List.append_nil]
  case waits =>
    rw [supervisorTick_of_under_way (ht ▸ List.cons_ne_nil _ _)]
    split at hstop
    case isTrue hw => exact continueTick_of_blocked ht hw hstop
    case isFalse hw => exact continueTick_of_pending ht (Bool.eq_false_of_not_eq_true hw) hstop
  case ends =>
    by_cases ht : sup.todo = []
    · rw [supervisorTick_of_idle ht]
      exact continueTick_free hwf hfree hp fun _ _ _ _ hw => absurd hw Bool.false_ne_true
    · rw [supervisorTick_of_under_way ht]
      exact continueTick_free hwf hfree hp hd

end Sys2Proof.Machine
end

section
/-! PROOF. The status registers (`60_exceptions.md` R265 to R267, R287): every instruction completes, `CLR_STATUS` clears
what its masks name, status bits are sticky, and no behaviour depends on them. -/

namespace Sys2Proof.Machine

/-! ## Completion and clearing -/

/-- Settles O7: each arm of the dispatch answers a next state. -/
theorem everyInstructionCompletes : Obligations.EveryInstructionCompletes := by
  intro i s
  cases i <;> exact ⟨_, rfl⟩

theorem getLsbD_and_not {w : Nat} (x m : BitVec w) (k : Nat) :
    (x &&& ~~~m).getLsbD k = (x.getLsbD k && !m.getLsbD k) := by
  rcases Nat.lt_or_ge k w with hk | hk
  · simp [hk]
  · simp [BitVec.getLsbD_of_ge x k hk]

/-- Settles O53. -/
theorem clearStatusClearsMaskedBits : Obligations.ClearStatusClearsMaskedBits :=
  fun s cmask bmask => ⟨(s.clearStatus cmask bmask).answer .none, rfl, rfl, fun k =>
    ⟨getLsbD_and_not s.codecStatus cmask k, getLsbD_and_not s.busStatus bmask k⟩⟩

/-! ## Status bits are only set -/

/-- From `s` to `t` bits of the two status registers are set, and none is cleared (R266, R267). -/
structure StatusGrows (s t : State) : Prop where
  codec : ∃ m, t.codecStatus = s.codecStatus ||| m
  bus : ∃ m, t.busStatus = s.busStatus ||| m

theorem exists_or_of_eq {x y : Byte} (h : y = x) : ∃ m, y = x ||| m := ⟨0, h.trans BitVec.or_zero.symm⟩

theorem StatusGrows.of_eq {s t : State} (hc : t.codecStatus = s.codecStatus) (hb : t.busStatus = s.busStatus) :
    StatusGrows s t :=
  ⟨exists_or_of_eq hc, exists_or_of_eq hb⟩

theorem RxFrame.busStatus_eq {s t : State} (h : RxFrame s t) : t.busStatus = s.busStatus := by
  have hf : t = _ := h
  rw [hf]

theorem BusFrame.codecStatus_eq {s t : State} (h : BusFrame s t) : t.codecStatus = s.codecStatus := by
  have hf : t = _ := h
  rw [hf]

theorem rxRun_statusGrows (bs : Bytes) (s : State) : StatusGrows s (rxRun bs s) := by
  obtain ⟨m, hset, -⟩ := rxRun_codecStatus bs s
  exact ⟨⟨m, hset⟩, exists_or_of_eq (rxRun_frame bs s).busStatus_eq⟩

theorem TransmitOutcome.statusGrows {s t : State} (h : TransmitOutcome s t) : StatusGrows s t := by
  rcases h with ⟨c, rfl, -⟩ | ⟨frame, fid, rfl⟩
  · exact ⟨⟨codecBit c, rfl⟩, busBit c, rfl⟩
  · exact .of_eq rfl rfl

theorem busStatus_issueMotor (m : MotorMode) (g : Byte) (s : State) : (issueMotor m g s).busStatus = s.busStatus := by
  unfold issueMotor
  split <;> rfl

/-- Of the steps on the bus only a completion, also the one at the end of `BUS_EXECUTE`, touches `bus_status`, and it only
sets bits (R180, R267). -/
theorem exec_bus_busStatus {i : Instr} {s t : State} (hw : (writerOf i).onBus = true) (h : exec i s = .next t) :
    ∃ m, t.busStatus = s.busStatus ||| m := by
  cases i <;> simp only [writerOf, Writer.onBus, Bool.false_eq_true] at hw <;> obtain rfl := Host.Outcome.next.inj h
  case motorRev g => exact exists_or_of_eq (busStatus_issueMotor .reverse g s)
  case motorFwd g => exact exists_or_of_eq (busStatus_issueMotor .forward g s)
  case motorBrk g => exact exists_or_of_eq (busStatus_issueMotor .brake g s)
  case busRequest r batch tmo cfg => exact exists_or_of_eq (by split <;> rfl)
  case busGrant r => exact exists_or_of_eq (by split <;> rfl)
  case busXfer o => exact exists_or_of_eq (by split <;> rfl)
  case busComplete =>
    split
    · exact busStatus_closeWindow s
    · exact exists_or_of_eq rfl
  case busExecute r batch tmo cfg => exact (executeBatch_outputs deviceAnswer r batch tmo cfg s).1

theorem exec_bus_statusGrows {i : Instr} {s t : State} (hw : (writerOf i).onBus = true) (h : exec i s = .next t) :
    StatusGrows s t :=
  ⟨exists_or_of_eq (exec_bus hw h).frame.codecStatus_eq, exec_bus_busStatus hw h⟩

/-- No instruction but `CLR_STATUS` and `RESET` clears a status bit, by who issues it (R78). -/
theorem exec_statusGrows {i : Instr} {s t : State} (h : exec i s = .next t) (hclear : writerOf i ≠ .clear)
    (hreset : writerOf i ≠ .resetter) : StatusGrows s t := by
  cases hw : writerOf i with
  | receive =>
    obtain ⟨bs, r, rfl⟩ := exec_receive hw h
    obtain ⟨hcodec, hbus⟩ := rxRun_statusGrows bs s
    exact ⟨hcodec, hbus⟩
  | transmit => exact (exec_transmit hw h).statusGrows
  | request | arbiter | execute => exact exec_bus_statusGrows (by rw [hw]; rfl) h
  | acknowledge =>
    cases i <;> simp only [writerOf, reduceCtorEq] at hw
    obtain rfl := Host.Outcome.next.inj h
    exact .of_eq rfl rfl
  | telemetry =>
    cases i <;> simp only [writerOf, reduceCtorEq] at hw
    obtain rfl := Host.Outcome.next.inj h
    obtain ⟨tel, d, r, e⟩ := takeIncoming_frame (payloadInBytes s.params _ _ _ _ _ _) s
    rw [e]
    exact .of_eq rfl rfl
  | reader =>
    cases i <;> simp only [writerOf, reduceCtorEq] at hw
    obtain rfl := Host.Outcome.next.inj h
    obtain ⟨d, r, e, -⟩ := readInto_frame (s.readAnswer _ _) s
    rw [e]
    exact .of_eq rfl rfl
  | clear => exact absurd hw hclear
  | resetter => exact absurd hw hreset

/-- Settles O13: a register that only had bits set keeps those it had. -/
theorem statusBitsAreSticky : Obligations.StatusBitsAreSticky := by
  intro i s t h hclear hreset
  obtain ⟨⟨mc, hcodec⟩, mb, hbus⟩ := exec_statusGrows h hclear hreset
  rw [hcodec, hbus]
  exact ⟨or_and_self_left _ mc, or_and_self_left _ mb⟩

/-! ## What reads no status register -/

/-- The value `v` takes of a state is the same with other status registers. -/
def IgnoresStatus {α : Type} (v : State → α) : Prop := ∀ s c b, v (s.withStatus c b) = v s

/-- With other status registers before it, `f` gives the same state but for the status registers (R265). -/
def StatusBlind (f : State → State) : Prop := ∀ s c b, ∃ c' b', f (s.withStatus c b) = (f s).withStatus c' b'

section

variable {f g : State → State}

/-- The operations that leave the status registers alone. -/
theorem StatusBlind.of_commutes (h : ∀ s c b, f (s.withStatus c b) = (f s).withStatus c b) : StatusBlind f :=
  fun s c b => ⟨c, b, h s c b⟩

theorem StatusBlind.comp (hg : StatusBlind g) (hf : StatusBlind f) : StatusBlind fun s => g (f s) := by
  intro s c b
  obtain ⟨c₁, b₁, e⟩ := hf s c b
  obtain ⟨c₂, b₂, e'⟩ := hg (f s) c₁ b₁
  exact ⟨c₂, b₂, (congrArg g e).trans e'⟩

theorem StatusBlind.ite {P : State → Prop} {inst : DecidablePred P} (hP : IgnoresStatus P) (hf : StatusBlind f)
    (hg : StatusBlind g) : StatusBlind fun s => if P s then f s else g s := by
  intro s c b
  simp only [hP s c b]
  split
  · exact hf s c b
  · exact hg s c b

theorem StatusBlind.answer {r : State → OpResult} (hf : StatusBlind f) (hr : IgnoresStatus r) :
    StatusBlind fun s => (f s).answer (r s) := by
  intro s c b
  obtain ⟨c', b', e⟩ := hf s c b
  exact ⟨c', b', by simp only [e, hr s c b]; rfl⟩

end

theorem statusBlind_answer (r : OpResult) : StatusBlind (State.answer · r) := .of_commutes fun _ _ _ => rfl

theorem statusBlind_refuse (e : Cause) : StatusBlind (State.refuse · e) := fun _ _ _ => ⟨_, _, rfl⟩

theorem statusBlind_raiseIf {p : State → Bool} (hp : IgnoresStatus p) (e : Cause) :
    StatusBlind fun s => s.raiseIf (p s) e :=
  .ite (fun s c b => congrArg (· = true) (hp s c b)) (fun _ _ _ => ⟨_, _, rfl⟩) (.of_commutes fun _ _ _ => rfl)

/-! ## The receive line -/

theorem statusBlind_takeSource (a : Byte) : StatusBlind (takeSource a) := by
  refine .of_commutes fun s c b => ?_
  by_cases hc : s.rxCnt = 7
  · rw [takeSource_last hc, takeSource_last (s := s.withStatus c b) hc, pinPeer_eq, pinPeer_eq]
    rfl
  · rw [takeSource_of_ne hc, takeSource_of_ne (s := s.withStatus c b) hc]
    rfl

theorem statusBlind_commit (ck : Byte) (ok : Bool) : StatusBlind (commit ck ok) := by
  intro s c b
  rw [commit, commit, raiseIf_of_busBit rfl, raiseIf_of_busBit rfl]
  exact ⟨_, _, rfl⟩

/-- The verdict and the policy read no status register, and the two causes only set bits of them (R135). -/
theorem statusBlind_takeChecksum (ck : Byte) : StatusBlind (takeChecksum ck) := by
  have raised : StatusBlind fun s => ({ s with rxCk := ck } : State).raiseIf (!s.cksumOk ck) .eCksum :=
    (statusBlind_raiseIf (p := fun s => !s.cksumOk ck) (fun _ _ _ => rfl) .eCksum).comp
      (f := fun s => { s with rxCk := ck }) (.of_commutes fun _ _ _ => rfl)
  have committed : StatusBlind fun s =>
      commit ck (s.cksumOk ck) (({ s with rxCk := ck } : State).raiseIf (!s.cksumOk ck) .eCksum) :=
    fun s => (statusBlind_commit ck (s.cksumOk ck)).comp raised s
  exact .comp (g := fun s => { s with rxState := .idle, rxCnt := 0 }) (.of_commutes fun _ _ _ => rfl)
    (.ite (P := fun s => s.policy (s.cksumOk ck) = true) (fun _ _ _ => rfl) committed raised)

theorem statusBlind_takeIgnored : StatusBlind takeIgnored :=
  .ite (P := fun s => s.rxCnt = 1) (fun _ _ _ => rfl) (.of_commutes fun _ _ _ => rfl) (.of_commutes fun _ _ _ => rfl)

/-- Only the handlers that can raise a cause write a status register; every other one commutes with a change of them. -/
theorem statusBlind_handlerEffect (row : Instr) : StatusBlind (handlerEffect row) := by
  cases row
  case rxTypeData64Short t => exact fun _ _ _ => ⟨_, _, rfl⟩
  case rxTypeData64Oversize t => exact fun _ _ _ => ⟨_, _, rfl⟩
  case rxSrc a => exact statusBlind_takeSource a
  case rxCksum ck => exact statusBlind_takeChecksum ck
  case rxIgnore x => exact statusBlind_takeIgnored
  all_goals exact .of_commutes fun _ _ _ => rfl

/-- A handler row: which row a byte selects, and the result of its push, no status register decides (R110, R125). -/
theorem statusBlind_rowStep (row : Instr) (x : Byte) : StatusBlind fun s => rowStep row x (handlerEffect row s) s :=
  .ite (P := fun s => decodeLine s.ctx x = row) (fun _ _ _ => rfl)
    ((statusBlind_handlerEffect row).answer fun _ _ _ => rfl) (statusBlind_answer .notEnabled)

theorem statusBlind_rxStep (x : Byte) : StatusBlind (rxStep x) := by
  intro s c b
  rw [rxStep_eq_handlerEffect, rxStep_eq_handlerEffect]
  exact statusBlind_handlerEffect (decodeLine s.ctx x) s c b

theorem statusBlind_rxRun (bs : Bytes) : StatusBlind (rxRun bs) := by
  induction bs with
  | nil => exact .of_commutes fun _ _ _ => rfl
  | cons x bs ih => exact ih.comp (statusBlind_rxStep x)

/-- The `accept` bits of a run of pushes, whose states differ in the status registers alone (R138). -/
theorem ignoresStatus_rxRunAccepts (bs : Bytes) : IgnoresStatus (rxRunAccepts bs) := by
  induction bs with
  | nil => exact fun _ _ _ => rfl
  | cons x bs ih =>
    intro s c b
    obtain ⟨c', b', e⟩ := statusBlind_rxStep x s c b
    rw [rxRunAccepts, rxRunAccepts, e, ih]
    rfl

/-- `RX_CHUNK` with its result (R138). -/
theorem statusBlind_chunk (bs : Bytes) : StatusBlind (chunk bs) :=
  (statusBlind_rxRun bs).answer fun s c b => congrArg OpResult.chunk (ignoresStatus_rxRunAccepts bs s c b)

/-! ## The transmit side -/

theorem statusBlind_encodeTo (dest : Addr) (fid : Byte) (payload : Bytes) : StatusBlind (encodeTo dest fid payload) :=
  .ite (P := fun _ => Config.fidMod ≤ fid.toNat) (fun _ _ _ => rfl) (statusBlind_refuse .eFid)
    (.ite (P := fun s => s.params.txPayloadMax < payload.length) (fun _ _ _ => rfl) (statusBlind_refuse .eTxlen)
      (.of_commutes fun _ _ _ => rfl))

theorem statusBlind_sendToPeer (payload : Bytes) : StatusBlind (sendToPeer payload) :=
  .ite (P := fun s => (!s.peerValid) = true) (fun _ _ _ => rfl) (statusBlind_refuse .eNopeer)
    (.ite (P := fun s => s.params.txPayloadMax < payload.length) (fun _ _ _ => rfl) (statusBlind_refuse .eTxlen)
      (.of_commutes fun _ _ _ => rfl))

/-! ## The bus -/

theorem statusBlind_closeWindow : StatusBlind closeWindow := by
  intro s c b
  simp only [closeWindow, raiseIf_eBus]
  exact ⟨_, _, rfl⟩

theorem statusBlind_transferAll (answer : Nat → XferOutcome) (n : Nat) : StatusBlind (transferAll answer n) := by
  induction n with
  | zero => exact .of_commutes fun _ _ _ => rfl
  | succ n ih =>
    exact .ite (P := fun s => s.xferEnabled = true) (fun _ _ _ => rfl)
      (ih.comp (f := fun s => transfer (answer s.draws) s.drew) (.of_commutes fun _ _ _ => rfl))
      (.of_commutes fun _ _ _ => rfl)

/-- The completion with its result (R180). -/
theorem statusBlind_complete : StatusBlind fun s => (closeWindow s).answer (closeResult s) :=
  statusBlind_closeWindow.answer fun _ _ _ => rfl

/-- A whole window: the length of the batch it runs is no status register's either (R181). -/
theorem statusBlind_runWindow (answer : Nat → XferOutcome) (r : Nat) : StatusBlind (runWindow answer r) := fun s =>
  (statusBlind_complete.comp ((statusBlind_transferAll answer (s.req r).batch.length).comp
    (f := openWindow r) (.of_commutes fun _ _ _ => rfl))) s

theorem statusBlind_executeBatch (answer : Nat → XferOutcome) (r : Nat) (batch : List Bytes) (tmo : Nat)
    (cfg : DeviceConfig) : StatusBlind (executeBatch answer r batch tmo cfg) :=
  .ite (P := fun s => s.requestOk r batch = true) (fun _ _ _ => rfl)
    (.ite (P := fun s => (s.busBusy || s.othersPending r) = true) (fun _ _ _ => rfl) (.of_commutes fun _ _ _ => rfl)
      ((statusBlind_runWindow answer r).comp (f := placeRequest r batch tmo cfg) (.of_commutes fun _ _ _ => rfl)))
    (statusBlind_answer (.refused none))

theorem statusBlind_issueMotor (m : MotorMode) (g : Byte) : StatusBlind (issueMotor m g) :=
  .ite (P := fun s => (s.xferEnabled && s.currentTxn == motorCmd m g) = true) (fun _ _ _ => rfl)
    (.of_commutes fun _ _ _ => rfl) (statusBlind_answer .notEnabled)

/-! ## Reads and the host's records -/

/-- Of all registers only the two status registers themselves show a difference (R140). -/
theorem ignoresStatus_readAnswer {name : ReadName} (hc : name ≠ .codecStatus) (hb : name ≠ .busStatus) (idx : Nat) :
    IgnoresStatus fun s => s.readAnswer idx name := by
  cases name
  case codecStatus => exact absurd rfl hc
  case busStatus => exact absurd rfl hb
  all_goals exact fun _ _ _ => rfl

theorem statusBlind_readInto {a : State → ReadAnswer} (ha : IgnoresStatus a) :
    StatusBlind fun s => readInto (a s) s := by
  refine .of_commutes fun s c b => ?_
  simp only [ha s c b]
  cases a s <;> rfl

theorem takeIncoming_of_none {bs : Bytes} {s : State} (h : parseIncoming s.params bs = none) :
    takeIncoming bs s = s.answer .rejected := by simp only [takeIncoming, h]

theorem statusBlind_takeIncoming (bs : Bytes) : StatusBlind (takeIncoming bs) := by
  refine .of_commutes fun s c b => ?_
  rcases takeIncoming_cases bs s with ⟨st, hparse, e⟩ | ⟨hparse, e⟩
  · rw [e, takeIncoming_of_some (s := s.withStatus c b) hparse]
    rfl
  · rw [e, takeIncoming_of_none (s := s.withStatus c b) hparse]
    rfl

/-! ## All instructions -/

/-- Every instruction but a read of a status register is a function of the state that no status register decides. -/
theorem exec_eq_statusBlind {i : Instr} (hread : ∀ n, i ≠ .rxRead .codecStatus n ∧ i ≠ .rxRead .busStatus n) :
    ∃ f, StatusBlind f ∧ ∀ s, exec i s = .next (f s) := by
  cases i
  case rxFrameData64 src q o payload =>
    exact ⟨_, fun s => statusBlind_chunk (rxDataFrame s.params src q o payload) s, fun _ => rfl⟩
  case rxFrameOther ty xs => exact ⟨_, statusBlind_chunk (rxOtherFrame ty xs), fun _ => rfl⟩
  case rxPush x => exact ⟨_, (statusBlind_rxStep x).answer fun _ _ _ => rfl, fun _ => rfl⟩
  case rxChunk bs => exact ⟨_, statusBlind_chunk bs, fun _ => rfl⟩
  case rxAck => exact ⟨_, .of_commutes fun _ _ _ => rfl, fun _ => rfl⟩
  case rxRead name idx =>
    have hname : name ≠ .codecStatus ∧ name ≠ .busStatus :=
      ⟨fun h => (hread idx).1 (h ▸ rfl), fun h => (hread idx).2 (h ▸ rfl)⟩
    exact ⟨_, statusBlind_readInto (ignoresStatus_readAnswer hname.1 hname.2 idx), fun _ => rfl⟩
  case txFrame dest fid payload => exact ⟨_, statusBlind_encodeTo dest fid payload, fun _ => rfl⟩
  case txEncode dest fid payload => exact ⟨_, statusBlind_encodeTo dest fid payload, fun _ => rfl⟩
  case txSend payload => exact ⟨_, statusBlind_sendToPeer payload, fun _ => rfl⟩
  case payloadOut analog digital =>
    exact ⟨_, fun s => statusBlind_sendToPeer (payloadOutBytes s.params analog digital) s, fun _ => rfl⟩
  case payloadIn ft fl r3 r4 analog digital =>
    exact ⟨_, fun s => statusBlind_takeIncoming (payloadInBytes s.params ft fl r3 r4 analog digital) s, fun _ => rfl⟩
  case reset => exact ⟨resetBlock, fun _ _ _ => ⟨0, 0, rfl⟩, fun _ => rfl⟩
  case clrStatus cmask bmask => exact ⟨_, fun _ _ _ => ⟨_, _, rfl⟩, fun _ => rfl⟩
  case motorRev g => exact ⟨_, statusBlind_issueMotor .reverse g, fun _ => rfl⟩
  case motorFwd g => exact ⟨_, statusBlind_issueMotor .forward g, fun _ => rfl⟩
  case motorBrk g => exact ⟨_, statusBlind_issueMotor .brake g, fun _ => rfl⟩
  case busRequest r batch tmo cfg =>
    exact ⟨_, .ite (P := fun s => s.requestOk r batch = true) (fun _ _ _ => rfl) (.of_commutes fun _ _ _ => rfl)
      (statusBlind_answer (.refused none)), fun _ => rfl⟩
  case busGrant r =>
    exact ⟨_, .ite (P := fun s => s.grantEnabled r = true) (fun _ _ _ => rfl) (.of_commutes fun _ _ _ => rfl)
      (statusBlind_answer .notEnabled), fun _ => rfl⟩
  case busXfer o =>
    exact ⟨_, .ite (P := fun s => s.xferEnabled = true) (fun _ _ _ => rfl) (.of_commutes fun _ _ _ => rfl)
      (statusBlind_answer .notEnabled), fun _ => rfl⟩
  case busComplete =>
    exact ⟨_, .ite (P := fun s => s.completeEnabled = true) (fun _ _ _ => rfl) statusBlind_complete
      (statusBlind_answer .notEnabled), fun _ => rfl⟩
  case busExecute r batch tmo cfg => exact ⟨_, statusBlind_executeBatch deviceAnswer r batch tmo cfg, fun _ => rfl⟩
  all_goals exact ⟨_, statusBlind_rowStep _ _, fun _ => rfl⟩

/-- Settles O14: the instruction's function is blind to the status registers (`exec_eq_statusBlind`). -/
theorem noBehaviourDependsOnStatus : Obligations.NoBehaviourDependsOnStatus := by
  intro i s t c b h hread
  obtain ⟨f, hblind, hexec⟩ := exec_eq_statusBlind hread
  obtain rfl := Host.Outcome.next.inj ((hexec s).symm.trans h)
  obtain ⟨c', b', e⟩ := hblind s c b
  exact ⟨c', b', (hexec _).trans (congrArg Host.Outcome.next e)⟩

end Sys2Proof.Machine
end

section
/-! PROOF. Chunks cut in two, and reads while no frame is held (`40_decoder.md` section 4,
`70_reset_and_hazards.md` R296). -/

namespace Sys2Proof.Machine

/-! ## Chunks cut in two -/

/-- Settles O29: both runs of pushes are cut where the string is (`rxRun_append`, `rxRunAccepts_append`), and the second
does not see the result of the first. -/
theorem chunksMayBeCutAnywhere : Obligations.ChunksMayBeCutAnywhere := by
  intro s xs ys
  refine ⟨_, _, _, _, rfl, rfl, rfl, rfl, congrArg Host.Outcome.next ?_⟩
  show chunk (xs ++ ys) s = (chunk ys (chunk xs s)).answer _
  simp only [chunk, rxRun_append, rxRunAccepts_append, rxRun_answer, rxRunAccepts_answer, State.answer_answer]

/-! ## Reads without a frame -/

/-- A read of an unspecified length returns some number of 16 bits and draws it (R296, U10). -/
theorem exec_rxRead_of_anyLen {s : State} {i : Nat} {n : ReadName} (h : s.readAnswer i n = .anyLen) :
    ∃ v, v < 65536 ∧ exec (.rxRead n i) s = .next { s with draws := s.draws + 1, result := .value v } :=
  ⟨_, (Config.unspecifiedLen s.draws).isLt, congrArg (fun a => Host.Outcome.next (readInto a s)) h⟩

/-- While no frame is held its data registers are unspecified (R296). -/
theorem frByte_of_not_valid {s : State} (hv : s.frValid = false) (b : Byte) : s.frByte b = .anyByte :=
  if_neg (Bool.eq_false_iff.mp hv)

/-- Settles O32: without a frame each of these registers answers `anyLen` or `anyByte`; the payload does so on both
sides of the frame's length. -/
theorem readWithoutFrameIsUnspecified : Obligations.ReadWithoutFrameIsUnspecified := by
  intro s i hv unspecified
  have hbyte (b : Byte) := frByte_of_not_valid hv b
  refine ⟨exec_rxRead_of_anyLen (if_neg (Bool.eq_false_iff.mp hv)), exec_rxRead_of_anyByte (hbyte _),
    exec_rxRead_of_anyByte (hbyte _), exec_rxRead_of_anyByte (hbyte _),
    fun hi => exec_rxRead_of_anyByte ((readAnswer_frSrc_of_lt hi).trans (hbyte _)),
    fun hi => exec_rxRead_of_anyByte ?_⟩
  rcases Nat.lt_or_ge i s.frPlen.toNat with hwithin | hpast
  · exact (readAnswer_frPayload_within hi hwithin).trans (hbyte _)
  · exact readAnswer_frPayload_past hi hpast

end Sys2Proof.Machine
end

section
/-! PROOF. `BUS_EXECUTE` on a free bus: the whole window as one step (`42_bus_arbiter.md` section 2). -/

namespace Sys2Proof.Machine

/-! ## A whole window -/

/-- From `s` to `t` the window of requester `r` ran from grant to completion: `n` transactions were acknowledged, and
unless `ok` the next one failed (R177, R179, R180, R181). -/
structure WindowRan (answer : Nat → XferOutcome) (r n : Nat) (ok : Bool) (s t : State) : Prop where
  within : n ≤ (s.req r).batch.length
  all : ok = true ↔ n = (s.req r).batch.length
  acked : ∀ j, j < n → answer (s.draws + j) = .ack
  stopped : ok = false → answer (s.draws + n) = .fail
  result : t.result = .complete r ok n
  records : t.busOut = s.busOut ++ windowRecords ⟨r, (s.req r).batch, (s.req r).cfg⟩ n (!ok)
  owner : t.req r = { s.req r with ok := ok, nDone := n, done := true, pending := false }
  others : ∀ j, j ≠ r → t.req j = s.req j
  freed : t.busBusy = false
  status : t.busStatus = s.busStatus ||| (if ok then 0x00 else 0x01)

theorem runWindow_ran {s : State} (hwf : ReqFile.wf s.reqs) (answer : Nat → XferOutcome) (r : Nat) :
    ∃ n ok, WindowRan answer r n ok s (runWindow answer r s) := by
  obtain ⟨-, hothers, -, hfreed⟩ := req_runWindow hwf answer r
  obtain ⟨n, ok, hle, hall, hacked, hstopped, hidx, hfail, hrecords⟩ :=
    transferAll_spec answer (s.req r).batch.length (openWindow r s) rfl rfl (Nat.zero_add _).symm
  obtain ⟨t, ht⟩ : ∃ t, transferAll answer (s.req r).batch.length (openWindow r s) = t := ⟨_, rfl⟩
  have hrun : runWindow answer r s = (closeWindow t).answer (closeResult t) := by rw [← ht]; rfl
  have howner : t.busOwner = r := ht ▸ busOwner_transferAll ..
  have hreqs : t.reqs = s.reqs := ht ▸ reqs_transferAll ..
  have hstatus : t.busStatus = s.busStatus := ht ▸ busStatus_transferAll ..
  have hn : t.busIdx = n := ht ▸ hidx.trans (Nat.zero_add n)
  have hout : t.busOut = s.busOut ++ windowRecords ⟨r, (s.req r).batch, (s.req r).cfg⟩ (0 + n) (!ok) :=
    ht ▸ hrecords ⟨r, (s.req r).batch, (s.req r).cfg⟩ rfl rfl s.busOut (List.append_nil _).symm
  rw [Nat.zero_add] at hout
  rw [ht] at hfail
  refine ⟨n, ok, hle, hall, hacked, hstopped, ?result, ?records, ?owner, hothers, hfreed, ?status⟩ <;> rw [hrun]
  case result => simp only [State.answer_result, closeResult, howner, hfail, hn, Bool.not_not]
  case records => exact (busOut_closeWindow t).trans hout
  case owner =>
    have hq := (req_closeWindow (hreqs ▸ hwf) r).trans (if_pos howner.symm)
    rwa [howner, hn, hfail, Bool.not_not, req_of_reqs_eq hreqs] at hq
  case status =>
    rw [State.answer_busStatus, closeWindow_eq]
    cases ok <;> simp [hfail, hstatus]

/-- Settles O49: uncontended, `BUS_EXECUTE` is its request and then the whole window (`runWindow_ran`), and operands
within the widths of their registers are kept as they are. -/
theorem executeRunsTheWholeWindow : Obligations.ExecuteRunsTheWholeWindow := by
  intro s r batch tmo cfg hwf hok hfree hothers htmo haddr hclk
  have hplaced := (req_placeRequest hwf r batch tmo cfg r).trans (if_pos rfl)
  rw [fitTimeout_of_lt htmo, fitCfg_of_lt haddr hclk] at hplaced
  obtain ⟨n, ok, hran⟩ := runWindow_ran (placeRequest_wf hwf r batch tmo cfg) deviceAnswer r
  have hrun : exec (.busExecute r batch tmo cfg) s =
      .next (runWindow deviceAnswer r (placeRequest r batch tmo cfg s)) :=
    congrArg Host.Outcome.next ((if_pos hok).trans (if_neg (by rw [hfree, hothers]; decide)))
  obtain ⟨hwithin, hall, hacked, hstopped, hresult, hrecords, howner, hrest, hfreed, hstatus⟩ := hran
  rw [hplaced] at hwithin hall hrecords howner
  exact ⟨_, n, ok, hrun, hresult, hwithin, hall, hacked, hstopped, hrecords, howner,
    fun j hj => (hrest j hj).trans ((req_placeRequest hwf r batch tmo cfg j).trans (if_neg hj)), hfreed, hstatus⟩

end Sys2Proof.Machine
end

section
/-! PROOF. The invariant of the codec (`10_state.md` R55 (a) to (h), (j)), kept by every handler and by every
instruction. -/

namespace Sys2Proof.Machine

/-! ## The sequencer and the registers -/

/-- The lengths of a data frame under way (R55 (e)). -/
def State.LengthsMatch (s : State) : Prop :=
  s.rxLen.toNat = s.rxPlen.toNat + Config.hdrLen ∧ s.rxPlen.toNat ≤ s.params.rxPayloadMax

/-- Past the source address, at a field of one byte (R55 (e), (f); R28). -/
def State.AtByteField (s : State) : Prop := s.rxCnt = 0 ∧ s.LengthsMatch ∧ s.peerValid = true

/-- The codec's invariants on the sequencer, by the decoder's state (R55 (b) to (f); R28, R142). -/
def State.SequencerInv (s : State) : Prop :=
  match s.rxState with
  | .idle => s.rxCnt = 0
  | .length => (s.rxCnt = 0 ∧ s.rxLen = 0) ∨ (s.rxCnt = 1 ∧ s.rxLen.toNat % 256 = 0)
  | .type => s.rxCnt = 0
  | .sourceAddr => s.rxCnt.toNat ≤ 7 ∧ s.LengthsMatch
  | .quality => s.AtByteField
  | .options => s.AtByteField
  | .payload => s.rxCnt.toNat < s.rxPlen.toNat ∧ s.LengthsMatch ∧ s.peerValid = true
  | .checksum => s.AtByteField
  | .ignoreUnknown => 1 ≤ s.rxCnt.toNat

/-- The codec's invariants on the registers the sequencer's state does not enter into (R55 (a), (g), (h), (j); R37, R38,
R60). -/
structure State.RegisterInv (s : State) : Prop where
  fid : s.txFid.toNat ≤ 126
  newHeld : s.frValid = false → s.frNew = false
  heldPinned : s.frValid = true → s.peerValid = true
  frLen : s.frPlen.toNat ≤ s.params.rxPayloadMax
  enforced : s.params.cksumEnforce = true → s.frValid = true → s.frCkOk = true
  codecReserved : s.codecStatus &&& 0x80 = 0
  rxBufWf : s.rxBuf.wf ∧ ∀ c ∈ s.rxBuf, c.1 < s.params.rxPayloadMax
  frPayloadWf : s.frPayload.wf ∧ ∀ c ∈ s.frPayload, c.1 < s.params.rxPayloadMax

/-- The invariant of the codec is the sequencer's, case by case, and the registers'. -/
theorem State.codecInv_iff {s : State} : s.CodecInv ↔ s.SequencerInv ∧ s.RegisterInv := by
  constructor
  · intro h
    refine ⟨?_, { h with }⟩
    have atField (hs : s.rxState = .quality ∨ s.rxState = .options ∨ s.rxState = .checksum) : s.AtByteField :=
      ⟨h.zeroCnt (by tauto), h.lens (by unfold State.inDataFrame; tauto), h.pinned (by unfold State.pastSource; tauto)⟩
    cases hs : s.rxState <;> simp only [State.SequencerInv, hs]
    case idle => exact h.zeroCnt (.inl hs)
    case length => exact h.lengthCnt hs
    case type => exact h.zeroCnt (.inr (.inl hs))
    case sourceAddr => exact ⟨h.sourceCnt hs, h.lens (.inl hs)⟩
    case quality => exact atField (.inl hs)
    case options => exact atField (.inr (.inl hs))
    case payload =>
      exact ⟨h.payloadCnt hs, h.lens (.inr (.inr (.inr (.inl hs)))), h.pinned (.inr (.inr (.inl hs)))⟩
    case checksum => exact atField (.inr (.inr hs))
    case ignoreUnknown => exact h.ignoreCnt hs
  · rintro ⟨hseq, hregs⟩
    unfold State.SequencerInv at hseq
    exact { hregs with
      payloadCnt := fun hs => by simp only [hs] at hseq; exact hseq.1
      sourceCnt := fun hs => by simp only [hs] at hseq; exact hseq.1
      ignoreCnt := fun hs => by simpa only [hs] using hseq
      lengthCnt := fun hs => by simpa only [hs] using hseq
      zeroCnt := by
        rintro (hs | hs | hs | hs | hs) <;> simp only [hs] at hseq
        · exact hseq
        · exact hseq
        all_goals exact hseq.1
      lens := by
        rintro (hs | hs | hs | hs | hs) <;> simp only [hs] at hseq
        · exact hseq.2
        all_goals exact hseq.2.1
      pinned := by
        rintro (hs | hs | hs | hs) <;> simp only [hs] at hseq <;> exact hseq.2.2 }

/-! ## What a push keeps of the sequencer -/

section

variable {s : State} {b : Byte}

theorem takeIdle_keeps_sequencer (h : s.SequencerInv) : (takeIdle b s).SequencerInv := by
  unfold takeIdle
  split
  · exact .inl ⟨rfl, rfl⟩
  · exact h

theorem takeLength_keeps_sequencer (hs : s.rxState = .length) : (takeLength b s).SequencerInv := by
  unfold takeLength
  split
  · have hb := b.isLt
    simp only [State.SequencerInv, takeLengthHigh, hs, BitVec.toNat_ofNat]
    exact .inr ⟨trivial, by omega⟩
  · rfl

theorem skipFrame_keeps_sequencer : (skipFrame b s).SequencerInv := by
  by_cases hempty : s.rxLen = 0
  · simp only [State.SequencerInv, skipFrame, hempty, if_true]
  · simp only [State.SequencerInv, skipFrame, hempty, if_false]
    exact Nat.pos_of_ne_zero fun h0 => hempty (BitVec.eq_of_toNat_eq h0)

theorem admitFrame_keeps_sequencer (hadm : s.admitsData b = true) : (admitFrame b s).SequencerInv := by
  simp only [State.admitsData, Bool.and_eq_true, decide_eq_true_eq] at hadm
  obtain ⟨⟨-, hlong⟩, hfits⟩ := hadm
  have hplen : (admitFrame b s).rxPlen.toNat = s.rxLen.toNat - Config.hdrLen :=
    toNat_ofNat_half (Nat.lt_of_le_of_lt (Nat.sub_le ..) s.rxLen.isLt)
  refine ⟨Nat.zero_le _, ?_, ?_⟩ <;> rw [hplen]
  · exact (Nat.sub_add_cancel hlong).symm
  · exact hfits

theorem takeSource_keeps_sequencer (hs : s.rxState = .sourceAddr) (h : s.SequencerInv) :
    (takeSource b s).SequencerInv := by
  simp only [State.SequencerInv, hs] at h
  obtain ⟨hcnt, hlens⟩ := h
  by_cases hlast : s.rxCnt = 7
  · rw [takeSource_last hlast, pinPeer_eq]
    exact ⟨rfl, hlens, rfl⟩
  · have hne : s.rxCnt.toNat ≠ 7 := fun e => hlast (BitVec.eq_of_toNat_eq e)
    have hsucc := toNat_add_one_half (c := s.rxCnt) (by omega)
    rw [takeSource_of_ne hlast]
    simp only [State.SequencerInv, hs, hsucc]
    exact ⟨by omega, hlens⟩

theorem takeOptions_keeps_sequencer (h : s.AtByteField) : (takeOptions b s).SequencerInv := by
  obtain ⟨-, hlens, hpeer⟩ := h
  by_cases hempty : s.rxPlen = 0
  · simp only [State.SequencerInv, takeOptions, hempty, if_true]
    exact ⟨rfl, hempty ▸ hlens, hpeer⟩
  · simp only [State.SequencerInv, takeOptions, hempty, if_false]
    exact ⟨Nat.pos_of_ne_zero fun h0 => hempty (BitVec.eq_of_toNat_eq h0), hlens, hpeer⟩

theorem takePayload_keeps_sequencer (hs : s.rxState = .payload) (h : s.SequencerInv) :
    (takePayload b s).SequencerInv := by
  simp only [State.SequencerInv, hs] at h
  obtain ⟨hcnt, hlens, hpeer⟩ := h
  by_cases hlast : s.rxCnt.toNat + 1 = s.rxPlen.toNat
  · simp only [State.SequencerInv, takePayload, hlast, if_true]
    exact ⟨rfl, hlens, hpeer⟩
  · have hlt := s.rxPlen.isLt
    have hsucc := toNat_add_one_half (c := s.rxCnt) (by omega)
    simp only [State.SequencerInv, takePayload, hlast, if_false, hsucc]
    exact ⟨by omega, hlens, hpeer⟩

theorem takeIgnored_keeps_sequencer (hs : s.rxState = .ignoreUnknown) (h : s.SequencerInv) :
    (takeIgnored s).SequencerInv := by
  simp only [State.SequencerInv, hs] at h
  unfold takeIgnored
  split
  next => rfl
  next hmore =>
    have hne : s.rxCnt.toNat ≠ 1 := fun e => hmore (BitVec.eq_of_toNat_eq e)
    simp only [State.SequencerInv, hs]
    bv_omega

/-- Each handler leaves the sequencer in a state that has its invariant (R126 to R137). -/
theorem rxStep_keeps_sequencer (h : s.SequencerInv) (b : Byte) : (rxStep b s).SequencerInv := by
  cases hs : s.rxState <;> simp only [rxStep, hs]
  case idle => exact takeIdle_keeps_sequencer h
  case length => exact takeLength_keeps_sequencer hs
  case type =>
    unfold takeType
    split
    next hadm => exact admitFrame_keeps_sequencer hadm
    next => exact skipFrame_keeps_sequencer
  case sourceAddr => exact takeSource_keeps_sequencer hs h
  case quality =>
    simp only [State.SequencerInv, hs] at h
    exact h
  case options =>
    simp only [State.SequencerInv, hs] at h
    exact takeOptions_keeps_sequencer h
  case payload => exact takePayload_keeps_sequencer hs h
  case checksum => rfl
  case ignoreUnknown => exact takeIgnored_keeps_sequencer hs h

/-! ## What a push keeps of the registers -/

/-- No cause sets the reserved bit of `codec_status` (R55 (j), R266). -/
theorem State.RegisterInv.raise (h : s.RegisterInv) (c : Cause) : (s.raise c).RegisterInv :=
  have hbit : codecBit c &&& 0x80 = 0 := by cases c <;> decide
  { h with codecReserved := (and_of_or_masked hbit).trans h.codecReserved }

theorem State.RegisterInv.raiseIf (h : s.RegisterInv) (p : Bool) (c : Cause) : (s.raiseIf p c).RegisterInv := by
  cases p
  · exact h
  · exact h.raise c

theorem takeSource_keeps_registers (h : s.RegisterInv) : (takeSource b s).RegisterInv := by
  by_cases hlast : s.rxCnt = 7
  · rw [takeSource_last hlast, pinPeer_eq]
    exact { h with heldPinned := fun _ => rfl }
  · rw [takeSource_of_ne hlast]
    exact { h with }

/-- A payload byte is stored below `RX_PAYLOAD_MAX` (R134, R55 (b), (e)). -/
theorem takePayload_keeps_registers (h : s.RegisterInv) (hcnt : s.rxCnt.toNat < s.params.rxPayloadMax) :
    (takePayload b s).RegisterInv :=
  { h with
    rxBufWf := ⟨Memory.write_wf h.rxBufWf.1 _ _, fun _ hc => (Memory.mem_write hc).elim (· ▸ hcnt) (h.rxBufWf.2 _)⟩ }

/-- The committed frame is the one under way, its source pinned and its verdict accepted (R136). -/
theorem commit_keeps_registers (h : s.RegisterInv) (hfits : s.rxPlen.toNat ≤ s.params.rxPayloadMax)
    (hpeer : s.peerValid = true) {ok : Bool} (hpolicy : s.policy ok = true) : (commit b ok s).RegisterInv := by
  have hraised := (h.raiseIf s.frNew .eOverrun).codecReserved
  rw [raiseIf_of_busBit rfl] at hraised
  rw [commit, raiseIf_of_busBit rfl]
  exact { h with
    newHeld := id
    heldPinned := fun _ => hpeer
    frLen := hfits
    enforced := fun henforce _ => by
      simpa [State.policy, show s.params.cksumEnforce = true from henforce] using hpolicy
    codecReserved := hraised
    frPayloadWf := ⟨Memory.copy_wf _ h.frPayloadWf.1 _, fun c hc =>
      (Memory.mem_copy _ hc).elim (Nat.lt_of_lt_of_le · hfits) (h.frPayloadWf.2 c)⟩ }

theorem takeChecksum_keeps_registers (h : s.RegisterInv) (hfield : s.AtByteField) :
    (takeChecksum b s).RegisterInv := by
  obtain ⟨-, ⟨-, hfits⟩, hpeer⟩ := hfield
  have hbyte : ({ s with rxCk := b } : State).RegisterInv := { h with }
  have hck := hbyte.raiseIf (!s.cksumOk b) .eCksum
  simp only [takeChecksum]
  split
  next hpolicy =>
    exact { commit_keeps_registers (b := b) hck (by simpa using hfits) (by simpa using hpeer)
      (ok := s.cksumOk b) (by simpa [State.policy] using hpolicy) with }
  next => exact { hck with }

/-- Each handler keeps the registers' invariant: a payload byte has its place in the buffer, a committed frame its
pinned source, as the sequencer's invariant says. -/
theorem rxStep_keeps_registers (hseq : s.SequencerInv) (h : s.RegisterInv) (b : Byte) : (rxStep b s).RegisterInv := by
  cases hs : s.rxState <;> simp only [rxStep, hs] <;> simp only [State.SequencerInv, hs] at hseq
  case idle =>
    unfold takeIdle
    split
    · exact { h with }
    · exact h
  case length =>
    unfold takeLength
    split <;> exact { h with }
  case type =>
    unfold takeType
    split
    · exact { h with }
    · exact { (h.raiseIf (s.tooShort b) .eShort).raiseIf (State.tooLong _ b) .eOversize with }
  case sourceAddr => exact takeSource_keeps_registers h
  case quality => exact { h with }
  case options => exact { h with }
  case payload =>
    obtain ⟨hcnt, ⟨-, hfits⟩, -⟩ := hseq
    exact takePayload_keeps_registers h (Nat.lt_of_lt_of_le hcnt hfits)
  case checksum => exact takeChecksum_keeps_registers h hseq
  case ignoreUnknown =>
    unfold takeIgnored
    split <;> exact { h with }

end

theorem rxRun_keeps_codec {s : State} (h : s.CodecInv) (bs : Bytes) : (rxRun bs s).CodecInv := by
  induction bs generalizing s with
  | nil => exact h
  | cons b bs ih =>
    obtain ⟨hseq, hregs⟩ := State.codecInv_iff.mp h
    exact ih (State.codecInv_iff.mpr ⟨rxStep_keeps_sequencer hseq b, rxStep_keeps_registers hseq hregs b⟩)

/-! ## What an instruction keeps of the codec -/

/-- A frame id stays below 127 (R55 (a), R158). -/
theorem nextFid_le (f : Fid) : (nextFid f).toNat ≤ 126 := by
  have hlt : (f.toNat + 1) % Config.fidMod < 127 := Nat.mod_lt _ (by decide)
  rw [nextFid, BitVec.toNat_ofNat]
  omega

section

variable {s : State}

theorem State.CodecInv.raise (h : s.CodecInv) (c : Cause) : (s.raise c).CodecInv :=
  have ⟨hseq, hregs⟩ := State.codecInv_iff.mp h
  State.codecInv_iff.mpr ⟨hseq, hregs.raise c⟩

theorem encodeTo_keeps_codec (h : s.CodecInv) (dest : Addr) (fid : Byte) (payload : Bytes) :
    (encodeTo dest fid payload s).CodecInv := by
  rcases encodeTo_cases dest fid payload s with ⟨c, e, -⟩ | e <;> rw [e]
  · exact { h.raise c with }
  · exact { h with }

theorem sendToPeer_keeps_codec (h : s.CodecInv) (payload : Bytes) : (sendToPeer payload s).CodecInv := by
  rcases sendToPeer_cases payload s with ⟨c, e, -⟩ | e <;> rw [e]
  · exact { h.raise c with }
  · exact { h with fid := nextFid_le s.txFid }

/-- Clearing bits of a status register keeps its reserved bits clear (R55 (j), R287). -/
theorem and_mask_eq_zero {x k : Byte} (h : x &&& k = 0) (m : Byte) : (x &&& m) &&& k = 0 := by
  rw [BitVec.and_assoc, BitVec.and_comm m, ← BitVec.and_assoc, h]
  exact BitVec.zero_and

theorem codecInv_init (p : Params) : (State.init p).CodecInv :=
  State.codecInv_iff.mpr ⟨rfl,
    { fid := Nat.zero_le _
      newHeld := fun _ => rfl
      heldPinned := fun h => absurd h Bool.false_ne_true
      frLen := Nat.zero_le _
      enforced := fun _ h => absurd h Bool.false_ne_true
      codecReserved := (by decide : (0x00 : Byte) &&& 0x80 = 0)
      rxBufWf := ⟨⟨.nil, List.forall_mem_nil _⟩, List.forall_mem_nil _⟩
      frPayloadWf := ⟨⟨.nil, List.forall_mem_nil _⟩, List.forall_mem_nil _⟩ }⟩

/-- Every instruction keeps the codec's invariant, by who issues it (R78): the receive line and the transmit side by
their own rules, `RX_ACK`, `CLR_STATUS` and `RESET` by what they clear, and the others write nothing of the codec. -/
theorem exec_keeps_codec {i : Instr} {t : State} (h : s.CodecInv) (hexec : exec i s = .next t) : t.CodecInv := by
  have hframe := singleWriterTable i s t hexec
  cases hw : writerOf i <;> simp only [hw] at hframe
  case receive =>
    obtain ⟨bs, r, rfl⟩ := exec_receive hw hexec
    exact { rxRun_keeps_codec h bs with }
  case transmit =>
    cases i <;> simp only [writerOf, reduceCtorEq] at hw <;> obtain rfl := Host.Outcome.next.inj hexec
    case txFrame dest fid payload => exact encodeTo_keeps_codec h dest fid payload
    case txEncode dest fid payload => exact encodeTo_keeps_codec h dest fid payload
    case txSend payload => exact sendToPeer_keeps_codec h payload
    case payloadOut analog digital => exact sendToPeer_keeps_codec h _
  case acknowledge =>
    rw [hframe]
    exact { h with newHeld := fun _ => rfl }
  case clear =>
    cases i <;> simp only [writerOf, reduceCtorEq] at hw
    obtain rfl := Host.Outcome.next.inj hexec
    exact { h with codecReserved := and_mask_eq_zero h.codecReserved _ }
  case request | arbiter | execute =>
    rw [hframe.1]
    exact { h with }
  case telemetry | reader =>
    rw [hframe]
    exact { h with }
  case resetter =>
    rw [hframe]
    exact { codecInv_init s.params with }

end

end Sys2Proof.Machine
end

section
/-! PROOF. The invariant of the arbiter (`10_state.md` R55 (i), (j)), kept by the parts of a window, by whole windows,
and by all instructions. -/

namespace Sys2Proof.Machine

/-! ## What the parts of a window keep of the bus -/

section

variable {s : State} {r : Nat}

/-- A pending batch is within `BATCH_MAX` (R44, R102). -/
theorem State.BusInv.length_le (h : s.BusInv) (hpending : (s.req r).pending = true) :
    (s.req r).batch.length ≤ s.params.batchMax := by
  obtain ⟨-, hbatch⟩ := h.pendingOk r hpending
  simp only [batchOk, Bool.and_eq_true, decide_eq_true_eq] at hbatch
  exact hbatch.1

/-- A request leaves the registers of the open window's owner as they are: its requester has none pending (R55 (i),
R176). -/
theorem req_owner_placeRequest (h : s.BusInv) {batch : List Bytes} (hok : s.requestOk r batch = true)
    (hbusy : s.busBusy = true) (tmo : Nat) (cfg : DeviceConfig) :
    (placeRequest r batch tmo cfg s).req s.busOwner = s.req s.busOwner := by
  obtain ⟨-, hnone, -⟩ := State.requestOk_iff.mp hok
  obtain ⟨hpending, -⟩ := h.busy hbusy
  have hne : s.busOwner ≠ r := fun e => Bool.false_ne_true (hnone.symm.trans (e ▸ hpending))
  exact (req_placeRequest h.reqsWf r batch tmo cfg _).trans (if_neg hne)

theorem placeRequest_keeps_bus (h : s.BusInv) {batch : List Bytes} (hok : s.requestOk r batch = true) (tmo : Nat)
    (cfg : DeviceConfig) : (placeRequest r batch tmo cfg s).BusInv := by
  have hreq := req_placeRequest h.reqsWf r batch tmo cfg
  have howner := req_owner_placeRequest h hok (tmo := tmo) (cfg := cfg)
  obtain ⟨hr, -⟩ := State.requestOk_iff.mp hok
  obtain ⟨-, hbatch⟩ := (Bool.and_eq_true _ _).mp hok
  refine { h with
    reqsWf := placeRequest_wf h.reqsWf r batch tmo cfg
    pendingOk := fun j hj => ?pendingOk
    nDoneLe := fun j => ?nDoneLe
    busy := fun hbusy => ?busy
    failed := fun hbusy hfail => ?failed
    cfgOwners := fun hbusy => ?cfgOwners }
  case pendingOk =>
    rw [hreq j] at hj ⊢
    split at hj
    next e => rw [if_pos e]; exact ⟨e ▸ hr, hbatch⟩
    next e => rw [if_neg e]; exact h.pendingOk j hj
  case nDoneLe =>
    rw [hreq j]
    split
    · exact h.nDoneLe r
    · exact h.nDoneLe j
  case busy =>
    show ((placeRequest r batch tmo cfg s).req s.busOwner).pending = true ∧ _ ∧
      _ ≤ ((placeRequest r batch tmo cfg s).req s.busOwner).batch.length
    rw [howner hbusy]
    exact h.busy hbusy
  case failed =>
    show _ < ((placeRequest r batch tmo cfg s).req s.busOwner).batch.length
    rw [howner hbusy]
    exact h.failed hbusy hfail
  case cfgOwners =>
    show _ = ((placeRequest r batch tmo cfg s).req s.busOwner).cfg
    rw [howner hbusy]
    exact h.cfgOwners hbusy

theorem openWindow_keeps_bus (h : s.BusInv) (hpending : (s.req r).pending = true) : (openWindow r s).BusInv :=
  { h with
    busy := fun _ => ⟨hpending, rfl, Nat.zero_le _⟩
    failed := fun _ hfail => absurd hfail Bool.false_ne_true
    cfgOwners := fun _ => rfl }

theorem transfer_keeps_bus (h : s.BusInv) (henabled : s.xferEnabled = true) (o : XferOutcome) :
    (transfer o s).BusInv := by
  obtain ⟨hbusy, hfail, hidx⟩ := State.xferEnabled_iff.mp henabled
  obtain ⟨hpending, hvalid, hle⟩ := h.busy hbusy
  cases o with
  | ack =>
    exact { h with
      busy := fun _ => ⟨hpending, hvalid, hidx⟩
      failed := fun _ hfailed => absurd (hfail.symm.trans hfailed) Bool.false_ne_true }
  | fail =>
    exact { h with
      busy := fun _ => ⟨hpending, hvalid, hle⟩
      failed := fun _ _ => hidx }

/-- The count of a completed window is at most its batch's length, and `E_BUS` is no reserved bit (R45, R180, R267). -/
theorem closeWindow_keeps_bus (h : s.BusInv) (hbusy : s.busBusy = true) : (closeWindow s).BusInv := by
  have hreq := req_closeWindow h.reqsWf
  obtain ⟨hpending, -, hle⟩ := h.busy hbusy
  have hparams : (closeWindow s).params = s.params := (congrArg State.params (closeWindow_eq s) :)
  have hstatus : (closeWindow s).busStatus = if s.busFail then s.busStatus ||| 0x01 else s.busStatus :=
    (congrArg State.busStatus (closeWindow_eq s) :)
  refine
    { reqsWf := ?reqsWf
      pendingOk := fun j hj => ?pendingOk
      nDoneLe := fun j => ?nDoneLe
      busy := fun hopen => absurd hopen Bool.false_ne_true
      failed := fun hopen => absurd hopen Bool.false_ne_true
      cfgOwners := fun hopen => absurd hopen Bool.false_ne_true
      busReserved := ?busReserved }
  case reqsWf =>
    unfold closeWindow
    cases s.busFail <;> exact State.setReq_wf h.reqsWf _ _
  case pendingOk =>
    rw [hreq j] at hj ⊢
    rw [hparams]
    split at hj
    next => exact absurd hj Bool.false_ne_true
    next e => rw [if_neg e]; exact h.pendingOk j hj
  case nDoneLe =>
    rw [hreq j, hparams]
    split
    · exact Nat.le_trans hle (h.length_le hpending)
    · exact h.nDoneLe j
  case busReserved =>
    rw [hstatus]
    split
    · exact (and_of_or_masked (by decide)).trans h.busReserved
    · exact h.busReserved

/-! ## What whole windows and motor commands keep of the bus -/

theorem transferAll_keeps_bus (answer : Nat → XferOutcome) (n : Nat) (h : s.BusInv) :
    (transferAll answer n s).BusInv := by
  induction n generalizing s with
  | zero => exact h
  | succ n ih =>
    simp only [transferAll]
    split
    next henabled => exact ih (transfer_keeps_bus (s := s.drew) { h with } henabled _)
    next => exact h

theorem runWindow_keeps_bus (h : s.BusInv) (hpending : (s.req r).pending = true) (answer : Nat → XferOutcome) :
    (runWindow answer r s).BusInv :=
  { closeWindow_keeps_bus (transferAll_keeps_bus answer _ (openWindow_keeps_bus h hpending))
      (busBusy_transferAll ..) with }

theorem executeBatch_keeps_bus (h : s.BusInv) (answer : Nat → XferOutcome) (r : Nat) (batch : List Bytes) (tmo : Nat)
    (cfg : DeviceConfig) : (executeBatch answer r batch tmo cfg s).BusInv := by
  rcases executeBatch_cases answer r batch tmo cfg s with ⟨-, e⟩ | ⟨hok, -, e⟩ | ⟨hok, -, e⟩ <;> rw [e]
  · exact { h with }
  · exact { placeRequest_keeps_bus h hok tmo cfg with }
  · have hplaced := (req_placeRequest h.reqsWf r batch tmo cfg r).trans (if_pos rfl)
    exact runWindow_keeps_bus (placeRequest_keeps_bus h hok tmo cfg) (congrArg Req.pending hplaced) answer

theorem issueMotor_keeps_bus (h : s.BusInv) (m : MotorMode) (g : Byte) : (issueMotor m g s).BusInv := by
  by_cases hnext : s.motorNext m g
  · obtain ⟨hbusy, hfail, htxn⟩ := hnext
    obtain ⟨henabled, -⟩ := State.xferEnabled_of_getElem? hbusy hfail htxn
    rw [issueMotor_of_next ⟨hbusy, hfail, htxn⟩]
    exact { transfer_keeps_bus (s := s.drew) { h with } henabled _ with }
  · rw [issueMotor_of_not_next hnext]
    exact { h with }

/-! ## What an instruction keeps of the bus -/

theorem exec_onBus_keeps_bus {i : Instr} {t : State} (hw : (writerOf i).onBus = true) (h : s.BusInv)
    (hexec : exec i s = .next t) : t.BusInv := by
  have hanswer (r : OpResult) : (s.answer r).BusInv := { h with }
  cases i <;> simp only [writerOf, Writer.onBus, Bool.false_eq_true] at hw <;> obtain rfl := Host.Outcome.next.inj hexec
  case motorRev g => exact issueMotor_keeps_bus h .reverse g
  case motorFwd g => exact issueMotor_keeps_bus h .forward g
  case motorBrk g => exact issueMotor_keeps_bus h .brake g
  case busExecute r batch tmo cfg => exact executeBatch_keeps_bus h deviceAnswer r batch tmo cfg
  case busRequest r batch tmo cfg =>
    split
    next hok => exact { placeRequest_keeps_bus h hok tmo cfg with }
    next => exact hanswer (.refused none)
  case busGrant r =>
    split
    next henabled => exact { openWindow_keeps_bus h (State.grantEnabled_iff.mp henabled).2 with }
    next => exact hanswer .notEnabled
  case busXfer o =>
    split
    next henabled => exact { transfer_keeps_bus h henabled o with }
    next => exact hanswer .notEnabled
  case busComplete =>
    split
    next henabled => exact { closeWindow_keeps_bus h (State.completeEnabled_iff.mp henabled).1 with }
    next => exact hanswer .notEnabled

theorem busInv_init (p : Params) : (State.init p).BusInv where
  reqsWf := ⟨.nil, List.forall_mem_nil _⟩
  pendingOk := fun _ h => absurd h Bool.false_ne_true
  nDoneLe := fun _ => Nat.zero_le _
  busy := fun h => absurd h Bool.false_ne_true
  failed := fun h => absurd h Bool.false_ne_true
  cfgOwners := fun h => absurd h Bool.false_ne_true
  busReserved := (by decide : (0x00 : Byte) &&& 0xFE = 0)

/-- Every instruction keeps the arbiter's invariant: the requesters and the arbiter by the parts of a window,
`CLR_STATUS` and `RESET` by what they clear, and the others write nothing of the arbiter (R78). -/
theorem exec_keeps_bus {i : Instr} {t : State} (h : s.BusInv) (hexec : exec i s = .next t) : t.BusInv := by
  have hframe := singleWriterTable i s t hexec
  cases hw : writerOf i <;> simp only [hw] at hframe
  case request | arbiter | execute => exact exec_onBus_keeps_bus (by rw [hw]; rfl) h hexec
  case clear =>
    cases i <;> simp only [writerOf, reduceCtorEq] at hw
    obtain rfl := Host.Outcome.next.inj hexec
    exact { h with busReserved := and_mask_eq_zero h.busReserved _ }
  case receive | transmit =>
    rw [hframe.1]
    exact { h with }
  case acknowledge | telemetry | reader =>
    rw [hframe]
    exact { h with }
  case resetter =>
    rw [hframe]
    exact { busInv_init s.params with }

end

end Sys2Proof.Machine
end

section
/-! PROOF. The invariant of the machine (`10_state.md` section 6): it holds after power-up, every step keeps it, and so
every reachable state has it. -/

namespace Sys2Proof.Machine

section

variable {s : State}

/-! ## The parameters and the host's records -/

/-- The parameters are fixed for a run (R9). -/
theorem exec_params {i : Instr} {t : State} (hexec : exec i s = .next t) : t.params = s.params := by
  have hframe := singleWriterTable i s t hexec
  cases hw : writerOf i <;> simp only [hw] at hframe
  case receive | transmit | request | arbiter | execute => rw [hframe.1]
  case acknowledge | clear | telemetry | reader => rw [hframe]
  case resetter =>
    rw [hframe]
    rfl

/-- Only an incoming payload writes the host's records (R227). -/
theorem exec_keeps_host {i : Instr} {t : State} (h : s.HostInv) (hexec : exec i s = .next t) : t.HostInv := by
  have hframe := singleWriterTable i s t hexec
  cases hw : writerOf i <;> simp only [hw] at hframe
  case telemetry =>
    cases i <;> simp only [writerOf, reduceCtorEq] at hw
    obtain rfl := Host.Outcome.next.inj hexec
    exact takeIncoming_hostInv h _
  case receive | transmit | request | arbiter | execute =>
    rw [hframe.1]
    exact { h with }
  case acknowledge | clear | reader | resetter =>
    rw [hframe]
    exact { h with }

/-! ## The invariant of the machine -/

theorem exec_keeps_inv {i : Instr} {t : State} (h : s.Inv) (hexec : exec i s = .next t) : t.Inv where
  params := (exec_params hexec).symm ▸ h.params
  codec := exec_keeps_codec h.codec hexec
  bus := exec_keeps_bus h.bus hexec
  host := exec_keeps_host h.host hexec

/-- The invariant speaks neither of the waiting events nor of the model's own result and draws. -/
theorem State.Inv.with_model (h : s.Inv) (inbox : List Event) (result : OpResult) (draws : Nat) :
    ({ s with inbox := inbox, result := result, draws := draws } : State).Inv where
  params := h.params
  codec := { h.codec with }
  bus := { h.bus with }
  host := { h.host with }

end

/-- Settles O8: taking an event out touches nothing the invariant speaks of, and the instruction it stands for keeps it
(`exec_keeps_inv`). -/
theorem everyStepKeepsTheInvariants : Obligations.EveryStepKeepsTheInvariants := by
  intro s t hinv h
  rcases step_next_cases h with ⟨-, rfl⟩ | ⟨i, hi⟩ | ⟨i, hi⟩ | rfl
  · exact hinv
  · exact exec_keeps_inv (s := s.popInbox) (hinv.with_model s.inbox.tail s.result s.draws) hi
  · exact exec_keeps_inv (s := s.popInbox.drew) (hinv.with_model s.inbox.tail s.result (s.draws + 1)) hi
  · exact hinv.with_model s.inbox.tail .rejected s.draws

/-! ## From power-up on -/

theorem inv_init {p : Params} (hp : p.ok) : (State.init p).Inv where
  params := hp
  codec := codecInv_init p
  bus := busInv_init p
  host := init_hostInv p

/-- The parameters after power-up keep R11 and R13, whatever the open ones are. -/
theorem configParams_ok : Config.params.ok := by
  refine ⟨?_, Nat.le_refl _, Nat.le_refl _, Nat.le_add_left .., Nat.le_add_left .., Nat.le_add_left ..,
    Nat.le_add_left .., Nat.le_add_left .., Nat.le_add_left ..⟩
  simp only [Config.params]
  split
  next => exact fun h => absurd (left_eq_add.mp h) (by decide)
  next hraw => exact Ne.symm hraw

/-- Settles O9: under `Config.params` the initial state has the invariant, and a `RESET` gives that state again. -/
theorem invariantsHoldAfterPowerUp : Obligations.InvariantsHoldAfterPowerUp :=
  ⟨inv_init configParams_ok, traceInv_resetBlock State.reset, rfl⟩

theorem run_keeps_inv {s t : State} (h : s.Inv) (n : Nat) (hrun : Sys2Proof.core.run n s = .next t) : t.Inv := by
  induction n generalizing s with
  | zero =>
    obtain rfl := Host.Outcome.next.inj hrun
    exact h
  | succ n ih =>
    simp only [Host.Core.run] at hrun
    split at hrun
    next u hstep => exact ih (everyStepKeepsTheInvariants s u h hstep) hrun
    all_goals cases hrun

/-- Settles O10: the run starts with the invariant (`inv_init`) and every step keeps it. -/
theorem everyReachableStateHasTheInvariants : Obligations.EveryReachableStateHasTheInvariants :=
  fun p es n _ hp => run_keeps_inv ((inv_init hp).with_model es (State.init p).result (State.init p).draws) n

end Sys2Proof.Machine
end
